-- ==== Sys2Proof/Word.lean ====
section
/-! DEFINITION. The word types of the block's ports (spec/00_scope.md rules R8, R9). -/

namespace Sys2Proof

/-- A data byte of a bus transaction (rule R72: every transaction moves exactly one byte). -/
abbrev Byte := BitVec 8

/-- A port word: this spec's 16-bit encoding of one input event (rule R90). -/
abbrev PortWord := BitVec 16

/-- A register offset: the 5 address bits a chip decodes (rules R70, R91). -/
abbrev Offset := BitVec 5

/-- One signed 16-bit output sample (rule R293). -/
abbrev Sample := BitVec 16

/-- The name of an event of the scheduler; the set `EVENTS` is a parameter of the block (rules R7, R358; log entry 7). -/
abbrev EventId := Nat

/-- A chip index; the chips of a block with `N_CHIPS` chips are `0 .. N_CHIPS - 1` (rules R358, R367). -/
abbrev ChipIndex := Nat

end Sys2Proof
end

