-- ==== Sys2Proof/Config.lean ====
section
/-! DEFINITION. The implementation parameters of the block (spec/00_scope.md rule R7) and the uninterpreted numerics behind the
OPEN ones. A parameter that is plain data is a field of `Params`; a parameter that is a table or a function is named by a `Source`:
its default of the spec, or a member of an uninterpreted family (log entry 3). -/

namespace Sys2Proof

/-- The two chip models (rule R2). -/
inductive ChipModel where
  | mos6581
  | mos8580
  deriving DecidableEq, Repr

/-- Where an OPEN table or function parameter comes from: the default its rule states, or a given one, number `k` of an
uninterpreted family (rule R7 "OPEN"; `93_implementation_defined.md` section 1.1, treatment "parameter"). -/
inductive Source where
  | default
  | given (k : Nat)
  deriving DecidableEq, Repr

/-- A position of the `FILTER_CURVE` knob, an OPEN real (rules R7, R258): a rational one, or real number `k` of an uninterpreted
family (log entry 6). -/
inductive Curve where
  | rational (q : Rat)
  | given (k : Nat)
  deriving DecidableEq, Repr

/-- The parameters of rule R7 that are fixed when the block is built and shared by its chips. The model and the host inputs of a
chip stand in the chip's own state (rule R29). -/
structure Params where
  /-- `CLOCK_HZ`, a positive integer (rule R7, decision D44). -/
  clockHz : Nat
  /-- `SRR_CYCLES(MOS6581)`, held in the 32 bits of `srr_count` (rules R7, R23). -/
  srrCycles6581 : BitVec 32
  /-- `SRR_CYCLES(MOS8580)`. -/
  srrCycles8580 : BitVec 32
  /-- `FLOAT_TTL(MOS6581)`, held in the 32 bits of `floating_ttl` (rules R7, R23). -/
  floatTtl6581 : BitVec 32
  /-- `FLOAT_TTL(MOS8580)`. -/
  floatTtl8580 : BitVec 32
  /-- `FILTER_CURVE(MOS6581)` (rule R258). -/
  filterCurve6581 : Curve
  /-- `FILTER_CURVE(MOS8580)`. -/
  filterCurve8580 : Curve
  /-- `VC_CLAMP_6581` (rule R258). -/
  vcClamp6581 : Bool
  /-- `WAVE_TABLE` (rule R153). -/
  waveTable : Source
  /-- `WAVE_DAC` (rule R281). -/
  waveDac : Source
  /-- `ENV_DAC` (rule R282). -/
  envDac : Source
  /-- `VOICE_OUT` (rule R283). -/
  voiceOut : Source
  /-- `VOICE_SCALE` (rule R257). -/
  voiceScale : Source
  /-- `RES_GAIN` (rule R250). -/
  resGain : Source
  /-- `SUMMER` (rule R251). -/
  summer : Source
  /-- `MIXER` (rule R252). -/
  mixer : Source
  /-- `VOL_GAIN` (rule R253). -/
  volGain : Source
  /-- `INTEG` (rules R254, R255). -/
  integ : Source
  /-- `INTEG_INIT` (rule R256). -/
  integInit : Source
  /-- `EVENTS`, the finite set of events known to the scheduler, as a list of its members (rule R7). -/
  events : List EventId
  deriving DecidableEq, Repr

/-- The names of rule R7 of the parameters that can be out of their domain (rule R351: `ConfigRefused` records "the parameter's
name"; rule R356). -/
inductive ParamName where
  | nChips
  | digiBoost
  | clockHz
  | srrCycles
  | floatTtl
  | waveTable
  | envDac
  | resGain
  | summer
  | mixer
  | volGain
  | integ
  deriving DecidableEq, Repr

namespace Config

/-- `K_8580 = 1.3`, the 8580 coupling coefficient, a tuning constant the source says to preserve (rule R258). -/
def k8580 : Rat := 13 / 10

/-! The uninterpreted numerics. Each family's first argument is the `k` of `Source.given k`. None has a body: a statement that
holds in the model holds whatever they are. -/

/-- Entries of a measured combined-waveform table (rule R153). -/
opaque waveTable : Nat → ChipModel → BitVec 3 → BitVec 12 → BitVec 12

/-- Entries of a measured 12-bit waveform DAC (rule R281). -/
opaque waveDac : Nat → ChipModel → BitVec 12 → Int

/-- Entries of a measured 8-bit envelope DAC (rule R282). -/
opaque envDac : Nat → ChipModel → BitVec 8 → Int

/-- A measured voice output: model, waveform output, envelope counter, not the DACs' levels (rule R283, log entry 31). -/
opaque voiceOut : Nat → ChipModel → BitVec 12 → BitVec 8 → Int

/-- A measured map of a voice output into the filter's input domain (rule R257). -/
opaque voiceScale : Nat → ChipModel → Int → Int

/-- A measured resonance feedback: model, `res`, `Vbp` (rule R250). -/
opaque resGain : Nat → ChipModel → BitVec 4 → Int → Int

/-- Entries of a measured op-amp summer table: model, number of routed inputs, input sum (rule R251). -/
opaque summer : Nat → ChipModel → Nat → Int → Int

/-- Entries of a measured output mixer table: model, number of inputs, input sum (rule R252). -/
opaque mixer : Nat → ChipModel → Nat → Int → Int

/-- Entries of a measured volume gain table: model, `vol`, mixer output (rule R253). -/
opaque volGain : Nat → ChipModel → BitVec 4 → Int → Int

/-- The rounding that the set's 8580 resonance table is made with, in units of its result (rule R250: "up to the table's rounding",
which the spec does not bound; log entry 17). -/
opaque resGainRounding : Nat → Nat

/-- Positions of the `FILTER_CURVE` knob (rule R258). -/
opaque filterCurve : Nat → ℝ

/-- The start value of an integrator's `vx` in a measured parameter set (rule R256). -/
opaque integInitVx : Nat → ChipModel → Int

/-- The start value of an integrator's `vc` in a measured parameter set (rule R256). -/
opaque integInitVc : Nat → ChipModel → Int

/-- Whether the op-amp transfer from which the tables of the set were built is strictly decreasing (rule R254). -/
opaque opAmpDecreasing : Nat → Bool

/-- Entries of the 6581's 11-bit cutoff DAC table (rule R254). -/
opaque cutoffDac6581 : Nat → BitVec 11 → Int

/-- The shift of the 6581 cutoff DAC's zero point by `FILTER_CURVE` (rule R258). -/
opaque cutoffZero6581 : Nat → ℝ → Int

/-- `kVg`, formed from the cutoff DAC's level, `vx` and `vi` with the table `vcr_kVg` (rules R249, R254). -/
opaque vcrKVg : Nat → Int → Int → Int → Int

/-- `Ids`, the table `vcr_n_Ids_term` (rules R249, R254). -/
opaque vcrIds : Nat → Int → Int

/-- `Vgst`, formed from the cutoff DAC's level, `vx` and `vi` (rules R249, R254). -/
opaque vgst : Nat → Int → Int → Int → Int

/-- `Vgdt`, formed from the cutoff DAC's level, `vx` and `vi` (rules R249, R254). -/
opaque vgdt : Nat → Int → Int → Int → Int

/-- `n_snake` (rules R249, R254). -/
opaque nSnake : Nat → Int

/-- `n_vcr` (rules R249, R254). -/
opaque nVcr : Nat → Int

/-- `dt` of the 6581 integrator (rules R249, R254). -/
opaque dt6581 : Nat → Int

/-- `opamp_rev`, the op-amp reverse table of unsigned 16-bit entries, by its index `(vc >> 15) + 0x8000` (rules R249, R254). The table
has 65536 entries; what it gives at an index outside them, which an unclamped `vc` can form, the spec does not say: here a free
unsigned 16-bit value (DESIGN CHOICE, log entry 26). -/
opaque opampRev : Nat → Int → BitVec 16

/-- `VC_MIN` (rules R254, R258). -/
opaque vcMin : Nat → Int

/-- `VC_MAX` (rules R254, R258). -/
opaque vcMax : Nat → Int

/-- The conductance of bit `b` of the 8580's 11-bit cutoff DAC, by its W/L (rule R255). -/
opaque cutoffWeight8580 : Nat → Nat → Rat

/-- The shift of the 8580 cutoff DAC's zero point by `FILTER_CURVE` (rule R258). -/
opaque cutoffZero8580 : Nat → ℝ → Rat

/-- The part of the 8580 integrator's new `vc` that does not depend on its input, from the cutoff DAC's level, `K_8580`, `vx` and
`vc` (rule R255). -/
opaque integOffset8580 : Nat → Rat → Rat → Int → Int → Int

/-- The 8580 integrator's slope in its input, from the cutoff DAC's level, `K_8580`, `vx` and `vc` (rule R255: "linear in vi for
fixed state and fc"). -/
opaque integSlope8580 : Nat → Rat → Rat → Int → Int → Rat

/-- The 8580 integrator's new `vx`, from the cutoff DAC's level and its new `vc` (rule R255). -/
opaque integVx8580 : Nat → Rat → Int → Int

end Config

end Sys2Proof
end

