-- ==== Sys2Proof/Syntax.lean ====
section
/-! DEFINITION. The instructions of the block, one constructor per row of spec/opcode_table.json, and the input events that carry
them: port words addressed to a chip, scheduler calls and the host's own inputs (spec/30_encoding.md rules R90, R94, R98;
spec/00_scope.md rule R14). -/

namespace Sys2Proof

/-- The two phases of a scheduler cycle (rules R110, R358). -/
inductive Phase where
  | phi1
  | phi2
  deriving DecidableEq, Repr

/-- One constructor per row of the opcode table. A trailing digit of a voice write is the row's voice in the table's numbering
(voice 1 is `V[0]`); a trailing offset of `W_NONE` and `R_BUS` is the row's first offset, and `o` its free offset bits. -/
inductive Instr where
  -- bus writes to voice 1, offsets $00 .. $06
  | wFreqLo1 (d : Byte)
  | wFreqHi1 (d : Byte)
  | wPwLo1 (d : Byte)
  | wPwHi1 (d : Byte)
  | wControl1 (d : Byte)
  | wAd1 (d : Byte)
  | wSr1 (d : Byte)
  -- bus writes to voice 2, offsets $07 .. $0D
  | wFreqLo2 (d : Byte)
  | wFreqHi2 (d : Byte)
  | wPwLo2 (d : Byte)
  | wPwHi2 (d : Byte)
  | wControl2 (d : Byte)
  | wAd2 (d : Byte)
  | wSr2 (d : Byte)
  -- bus writes to voice 3, offsets $0E .. $14
  | wFreqLo3 (d : Byte)
  | wFreqHi3 (d : Byte)
  | wPwLo3 (d : Byte)
  | wPwHi3 (d : Byte)
  | wControl3 (d : Byte)
  | wAd3 (d : Byte)
  | wSr3 (d : Byte)
  -- bus writes to the filter, offsets $15 .. $18
  | wFcLo (d : Byte)
  | wFcHi (d : Byte)
  | wResFilt (d : Byte)
  | wModeVol (d : Byte)
  -- bus writes to offsets that hold no write register: $19, $1A-$1B, $1C-$1F
  | wNone19 (d : Byte)
  | wNone1A (o : BitVec 1) (d : Byte)
  | wNone1C (o : BitVec 2) (d : Byte)
  -- bus reads of the read registers $19 .. $1C
  | rPotX
  | rPotY
  | rOsc3
  | rEnv3
  -- bus reads of the bus value: $00-$0F, $10-$17, $18, $1D, $1E-$1F
  | rBus00 (o : BitVec 4)
  | rBus10 (o : BitVec 3)
  | rBus18
  | rBus1D
  | rBus1E (o : BitVec 1)
  -- one SID cycle, and the chip reset
  | clk
  | reset
  -- the scheduler calls
  | schedule (e : EventId) (delay : Nat) (ph : Phase)
  | cancel (e : EventId)
  | dispatch
  | runUntil (target : Nat)
  | getTime
  | catchup (c : ChipIndex)
  deriving DecidableEq, Repr

/-- What a legal port word asks of a chip, by its format (rule R90): the four cases of the port-word interpreter (rule R300). -/
inductive PortOp where
  | busWrite (off : Offset) (d : Byte)
  | busRead (off : Offset)
  | clock
  | reset
  deriving DecidableEq, Repr

/-- A call of the scheduler's interface (rule R90: "not port words"). -/
inductive SchedCall where
  | schedule (e : EventId) (delay : Nat) (ph : Phase)
  | cancel (e : EventId)
  | dispatch
  | runUntil (target : Nat)
  | getTime
  | catchup (c : ChipIndex)
  deriving DecidableEq, Repr

/-- The instruction of a scheduler call. -/
def SchedCall.instr : SchedCall → Instr
  | .schedule e delay ph => .schedule e delay ph
  | .cancel e => .cancel e
  | .dispatch => .dispatch
  | .runUntil target => .runUntil target
  | .getTime => .getTime
  | .catchup c => .catchup c

/-- A host input of a chip and the value it is driven to (rules R7, R260, R321, R325, R326). -/
inductive HostInput where
  | potX (c : ChipIndex) (x : Byte)
  | potY (c : ChipIndex) (y : Byte)
  | mute (c : ChipIndex) (voice : Fin 3) (on : Bool)
  | extIn (c : ChipIndex) (x : Int)
  deriving DecidableEq, Repr

/-- One operation of an event's callback (rule R121: "bus transactions, CATCHUP, SCHEDULE and CANCEL, plus effects on state outside
the block", of which a host input is what the block can see). `DISPATCH` and `RUN_UNTIL` are no callback operations (rule R371; log
entry 8). -/
inductive CallOp where
  | port (c : ChipIndex) (w : PortWord)
  | schedule (e : EventId) (delay : Nat) (ph : Phase)
  | cancel (e : EventId)
  | getTime
  | catchup (c : ChipIndex)
  | drive (inp : HostInput)
  deriving DecidableEq, Repr

/-- The arguments of `POWER_ON` (rules R7, R380). -/
structure PowerOnArgs where
  /-- `MODEL[0 .. N_CHIPS - 1]`; the length is `N_CHIPS`. -/
  models : List ChipModel
  /-- `DIGI_BOOST`, which must be false (rule R284). -/
  digiBoost : Bool
  params : Params
  deriving DecidableEq, Repr

/-- What the outside world can do to the block besides operations: the host inputs of rule R7, the callback sequences that the
owners of events supply (rule R121), and building the block anew (rule R380). -/
inductive HostEvent where
  | drive (inp : HostInput)
  | supplyCallback (e : EventId) (ops : List CallOp)
  | powerOn (args : PowerOnArgs)
  deriving DecidableEq, Repr

/-- One input of the block, in the single total order of rule R79: a port word with its chip-select, a scheduler call, or a host
event. -/
inductive Input where
  | port (c : ChipIndex) (w : PortWord)
  | call (call : SchedCall)
  | host (ev : HostEvent)
  deriving DecidableEq, Repr

end Sys2Proof
end

