-- ==== Sys2Proof/WellFormed.lean ====
section
/-! DEFINITION. Which terms a block's users can write (spec/60_exceptions.md rule R358): every operand an element of its type. The
widths of a port word's fields, the phases and the delays are the Lean types themselves; a chip index is below the block's `N_CHIPS`
and an event is of its `EVENTS`, which are parameters of the block and so arguments here (spec/00_scope.md rule R7). -/

namespace Sys2Proof

/-- The most chips a block can have (rule R7: `N_CHIPS` is 1, 2 or 3). -/
def maxChips : Nat := 3

/-- The operands of an instruction are of their types in a block of `n` chips with these events. -/
def Instr.wellFormed (n : Nat) (events : List EventId) : Instr → Bool
  | .catchup c => c < n
  | .schedule e _ _ | .cancel e => e ∈ events
  | .wFreqLo1 _ | .wFreqHi1 _ | .wPwLo1 _ | .wPwHi1 _ | .wControl1 _ | .wAd1 _ | .wSr1 _ => true
  | .wFreqLo2 _ | .wFreqHi2 _ | .wPwLo2 _ | .wPwHi2 _ | .wControl2 _ | .wAd2 _ | .wSr2 _ => true
  | .wFreqLo3 _ | .wFreqHi3 _ | .wPwLo3 _ | .wPwHi3 _ | .wControl3 _ | .wAd3 _ | .wSr3 _ => true
  | .wFcLo _ | .wFcHi _ | .wResFilt _ | .wModeVol _ => true
  | .wNone19 _ | .wNone1A _ _ | .wNone1C _ _ => true
  | .rPotX | .rPotY | .rOsc3 | .rEnv3 => true
  | .rBus00 _ | .rBus10 _ | .rBus18 | .rBus1D | .rBus1E _ => true
  | .clk | .reset => true
  | .dispatch | .runUntil _ | .getTime => true

/-- The chip a host input is driven into. -/
def HostInput.chip : HostInput → ChipIndex
  | .potX c _ | .potY c _ | .mute c _ _ | .extIn c _ => c

/-- The operands of a callback operation are of their types. -/
def CallOp.wellFormed (n : Nat) (events : List EventId) : CallOp → Bool
  | .port c _ => c < n
  | .catchup c => c < n
  | .drive inp => inp.chip < n
  | .schedule e _ _ | .cancel e => e ∈ events
  | .getTime => true

/-- A callback sequence can be written in the block: its event and the operands of its operations are of their types. -/
def callbackWellFormed (n : Nat) (events : List EventId) (cb : EventId × List CallOp) : Bool :=
  decide (cb.1 ∈ events) && cb.2.all (CallOp.wellFormed n events)

/-- The operands of an input are of their types. -/
def Input.wellFormed (n : Nat) (events : List EventId) : Input → Bool
  | .port c _ => c < n
  | .call a => a.instr.wellFormed n events
  | .host (.drive inp) => inp.chip < n
  | .host (.supplyCallback e ops) => callbackWellFormed n events (e, ops)
  | .host (.powerOn _) => true

end Sys2Proof
end

