-- ==== Sys2Proof/Decode.lean ====
section
/-! DEFINITION. Port words to instructions and back (spec/30_encoding.md rules R90, R91, R94, R95, R98). `decode` is total on port
words and answers `none` exactly on the illegal ones. -/

namespace Sys2Proof

/-- The offset `w[12:8]` (rule R91). -/
def offsetField (w : PortWord) : Offset := w.extractLsb' 8 5

/-- The data byte `w[7:0]` (rule R91). -/
def dataField (w : PortWord) : Byte := w.extractLsb' 0 8

/-- The kind `w[15:14]` (rule R90). -/
def kindField (w : PortWord) : BitVec 2 := w.extractLsb' 14 2

/-- The four formats of rule R90; `none` where rule R95 calls the word illegal: a reserved bit is set, or a `CTL` word's `op`
`w[13:12]` is not 00. -/
def decodePort (w : PortWord) : Option PortOp :=
  if kindField w = 0b00#2 then
    if w.getLsbD 13 then none else some (.busWrite (offsetField w) (dataField w))
  else if kindField w = 0b01#2 then
    if w.getLsbD 13 || dataField w != 0x00#8 then none else some (.busRead (offsetField w))
  else if kindField w = 0b10#2 then
    if w.extractLsb' 0 14 = 0#14 then some .clock else none
  else
    if w.extractLsb' 12 2 = 0b00#2 && w.extractLsb' 0 12 = 0x000#12 then some .reset else none

/-- Bus writes by offset (rule R94): the voice is `off / 7` and its register `off mod 7`. -/
def busWriteInstr (off : Offset) (d : Byte) : Instr :=
  match off.toNat with
  | 0x00 => .wFreqLo1 d | 0x01 => .wFreqHi1 d | 0x02 => .wPwLo1 d | 0x03 => .wPwHi1 d
  | 0x04 => .wControl1 d | 0x05 => .wAd1 d | 0x06 => .wSr1 d
  | 0x07 => .wFreqLo2 d | 0x08 => .wFreqHi2 d | 0x09 => .wPwLo2 d | 0x0A => .wPwHi2 d
  | 0x0B => .wControl2 d | 0x0C => .wAd2 d | 0x0D => .wSr2 d
  | 0x0E => .wFreqLo3 d | 0x0F => .wFreqHi3 d | 0x10 => .wPwLo3 d | 0x11 => .wPwHi3 d
  | 0x12 => .wControl3 d | 0x13 => .wAd3 d | 0x14 => .wSr3 d
  | 0x15 => .wFcLo d | 0x16 => .wFcHi d | 0x17 => .wResFilt d | 0x18 => .wModeVol d
  | 0x19 => .wNone19 d
  | n => if n < 0x1C then .wNone1A (off.extractLsb' 0 1) d else .wNone1C (off.extractLsb' 0 2) d

/-- Bus reads by offset (rule R94): four read registers, and the bus value everywhere else. -/
def busReadInstr (off : Offset) : Instr :=
  match off.toNat with
  | 0x18 => .rBus18
  | 0x19 => .rPotX
  | 0x1A => .rPotY
  | 0x1B => .rOsc3
  | 0x1C => .rEnv3
  | 0x1D => .rBus1D
  | n =>
    if n < 0x10 then .rBus00 (off.extractLsb' 0 4)
    else if n < 0x18 then .rBus10 (off.extractLsb' 0 3)
    else .rBus1E (off.extractLsb' 0 1)

/-- The instruction a port operation is, by the opcode map of rule R94. -/
def PortOp.instr : PortOp → Instr
  | .busWrite off d => busWriteInstr off d
  | .busRead off => busReadInstr off
  | .clock => .clk
  | .reset => .reset

/-- The decoder: the instruction of a port word, or `none` for an illegal word (rule R95). -/
def decode (w : PortWord) : Option Instr := (decodePort w).map PortOp.instr

/-- The host's reading of a table word: `w` of `nbits` bits as a port word. A row without bits (the scheduler calls) and a number
wider than a port word are no port word (rules R90, R97). -/
def decodeTableWord (nbits w : Nat) : Option Instr :=
  if 0 < nbits ∧ nbits ≤ 16 ∧ w < 2 ^ 16 then decode (BitVec.ofNat 16 w) else none

/-! The encoder. -/

/-- The port operation an instruction stands for, read off the table's row; `none` for a scheduler call, which has no encoding
(rule R90). -/
def Instr.port? : Instr → Option PortOp
  | .wFreqLo1 d => some (.busWrite 0x00#5 d)
  | .wFreqHi1 d => some (.busWrite 0x01#5 d)
  | .wPwLo1 d => some (.busWrite 0x02#5 d)
  | .wPwHi1 d => some (.busWrite 0x03#5 d)
  | .wControl1 d => some (.busWrite 0x04#5 d)
  | .wAd1 d => some (.busWrite 0x05#5 d)
  | .wSr1 d => some (.busWrite 0x06#5 d)
  | .wFreqLo2 d => some (.busWrite 0x07#5 d)
  | .wFreqHi2 d => some (.busWrite 0x08#5 d)
  | .wPwLo2 d => some (.busWrite 0x09#5 d)
  | .wPwHi2 d => some (.busWrite 0x0A#5 d)
  | .wControl2 d => some (.busWrite 0x0B#5 d)
  | .wAd2 d => some (.busWrite 0x0C#5 d)
  | .wSr2 d => some (.busWrite 0x0D#5 d)
  | .wFreqLo3 d => some (.busWrite 0x0E#5 d)
  | .wFreqHi3 d => some (.busWrite 0x0F#5 d)
  | .wPwLo3 d => some (.busWrite 0x10#5 d)
  | .wPwHi3 d => some (.busWrite 0x11#5 d)
  | .wControl3 d => some (.busWrite 0x12#5 d)
  | .wAd3 d => some (.busWrite 0x13#5 d)
  | .wSr3 d => some (.busWrite 0x14#5 d)
  | .wFcLo d => some (.busWrite 0x15#5 d)
  | .wFcHi d => some (.busWrite 0x16#5 d)
  | .wResFilt d => some (.busWrite 0x17#5 d)
  | .wModeVol d => some (.busWrite 0x18#5 d)
  | .wNone19 d => some (.busWrite 0x19#5 d)
  | .wNone1A o d => some (.busWrite (0b1101#4 ++ o) d)
  | .wNone1C o d => some (.busWrite (0b111#3 ++ o) d)
  | .rPotX => some (.busRead 0x19#5)
  | .rPotY => some (.busRead 0x1A#5)
  | .rOsc3 => some (.busRead 0x1B#5)
  | .rEnv3 => some (.busRead 0x1C#5)
  | .rBus00 o => some (.busRead (0b0#1 ++ o))
  | .rBus10 o => some (.busRead (0b10#2 ++ o))
  | .rBus18 => some (.busRead 0x18#5)
  | .rBus1D => some (.busRead 0x1D#5)
  | .rBus1E o => some (.busRead (0b1111#4 ++ o))
  | .clk => some .clock
  | .reset => some .reset
  | .schedule _ _ _ | .cancel _ | .dispatch | .runUntil _ | .getTime | .catchup _ => none

/-- The words of rule R98: `0b00_0_ooooo_dddddddd`, `0b01_0_ooooo_00000000`, 0x8000 and 0xC000. -/
def encodePort : PortOp → PortWord
  | .busWrite off d => (0b000#3 ++ off) ++ d
  | .busRead off => (0b010#3 ++ off) ++ 0x00#8
  | .clock => 0x8000#16
  | .reset => 0xC000#16

/-- The encoder: the port word of a port transaction, `none` for a scheduler call. -/
def encode (i : Instr) : Option PortWord := i.port?.map encodePort

/-- A row of the opcode table with a bit pattern: the words `w` with `w & mask = pattern`. -/
structure TableRow where
  mask : PortWord
  pattern : PortWord
  deriving DecidableEq, Repr

/-- The row of an instruction in spec/opcode_table.json ("mask" and "match"); the scheduler calls have none. -/
def Instr.row : Instr → Option TableRow
  | .wFreqLo1 _ => some ⟨0xFF00#16, 0x0000#16⟩
  | .wFreqHi1 _ => some ⟨0xFF00#16, 0x0100#16⟩
  | .wPwLo1 _ => some ⟨0xFF00#16, 0x0200#16⟩
  | .wPwHi1 _ => some ⟨0xFF00#16, 0x0300#16⟩
  | .wControl1 _ => some ⟨0xFF00#16, 0x0400#16⟩
  | .wAd1 _ => some ⟨0xFF00#16, 0x0500#16⟩
  | .wSr1 _ => some ⟨0xFF00#16, 0x0600#16⟩
  | .wFreqLo2 _ => some ⟨0xFF00#16, 0x0700#16⟩
  | .wFreqHi2 _ => some ⟨0xFF00#16, 0x0800#16⟩
  | .wPwLo2 _ => some ⟨0xFF00#16, 0x0900#16⟩
  | .wPwHi2 _ => some ⟨0xFF00#16, 0x0A00#16⟩
  | .wControl2 _ => some ⟨0xFF00#16, 0x0B00#16⟩
  | .wAd2 _ => some ⟨0xFF00#16, 0x0C00#16⟩
  | .wSr2 _ => some ⟨0xFF00#16, 0x0D00#16⟩
  | .wFreqLo3 _ => some ⟨0xFF00#16, 0x0E00#16⟩
  | .wFreqHi3 _ => some ⟨0xFF00#16, 0x0F00#16⟩
  | .wPwLo3 _ => some ⟨0xFF00#16, 0x1000#16⟩
  | .wPwHi3 _ => some ⟨0xFF00#16, 0x1100#16⟩
  | .wControl3 _ => some ⟨0xFF00#16, 0x1200#16⟩
  | .wAd3 _ => some ⟨0xFF00#16, 0x1300#16⟩
  | .wSr3 _ => some ⟨0xFF00#16, 0x1400#16⟩
  | .wFcLo _ => some ⟨0xFF00#16, 0x1500#16⟩
  | .wFcHi _ => some ⟨0xFF00#16, 0x1600#16⟩
  | .wResFilt _ => some ⟨0xFF00#16, 0x1700#16⟩
  | .wModeVol _ => some ⟨0xFF00#16, 0x1800#16⟩
  | .wNone19 _ => some ⟨0xFF00#16, 0x1900#16⟩
  | .wNone1A _ _ => some ⟨0xFE00#16, 0x1A00#16⟩
  | .wNone1C _ _ => some ⟨0xFC00#16, 0x1C00#16⟩
  | .rPotX => some ⟨0xFFFF#16, 0x5900#16⟩
  | .rPotY => some ⟨0xFFFF#16, 0x5A00#16⟩
  | .rOsc3 => some ⟨0xFFFF#16, 0x5B00#16⟩
  | .rEnv3 => some ⟨0xFFFF#16, 0x5C00#16⟩
  | .rBus00 _ => some ⟨0xF0FF#16, 0x4000#16⟩
  | .rBus10 _ => some ⟨0xF8FF#16, 0x5000#16⟩
  | .rBus18 => some ⟨0xFFFF#16, 0x5800#16⟩
  | .rBus1D => some ⟨0xFFFF#16, 0x5D00#16⟩
  | .rBus1E _ => some ⟨0xFEFF#16, 0x5E00#16⟩
  | .clk => some ⟨0xFFFF#16, 0x8000#16⟩
  | .reset => some ⟨0xFFFF#16, 0xC000#16⟩
  | .schedule _ _ _ | .cancel _ | .dispatch | .runUntil _ | .getTime | .catchup _ => none

/-! The pseudo-instructions of rule R98, each two bus writes, low half first. -/

/-- `WFREQ v,#$hhll`, for voice index `v`. -/
def pseudoFreq (v : Fin 3) (x : BitVec 16) : List PortWord :=
  [encodePort (.busWrite (BitVec.ofNat 5 (7 * v)) (x.extractLsb' 0 8)),
   encodePort (.busWrite (BitVec.ofNat 5 (7 * v + 1)) (x.extractLsb' 8 8))]

/-- `WPW v,#$hll`, for voice index `v`. -/
def pseudoPw (v : Fin 3) (x : BitVec 12) : List PortWord :=
  [encodePort (.busWrite (BitVec.ofNat 5 (7 * v + 2)) (x.extractLsb' 0 8)),
   encodePort (.busWrite (BitVec.ofNat 5 (7 * v + 3)) (0b0000#4 ++ x.extractLsb' 8 4))]

/-- `WFC #$xxx`. -/
def pseudoFc (x : BitVec 11) : List PortWord :=
  [encodePort (.busWrite 0x15#5 (0b00000#5 ++ x.extractLsb' 0 3)),
   encodePort (.busWrite 0x16#5 (x.extractLsb' 3 8))]

end Sys2Proof
end

