-- ==== Sys2Proof/Machine/State.lean ====
section
/-! DEFINITION. Every piece of state the spec gives the block (spec/10_state.md rules R22-R34, spec/60_exceptions.md rule R350),
its host inputs (rules R7, R29), the trace it is driven by (rule R300), and its value after power-on (spec/70_reset_and_hazards.md
rules R380-R384). Plain data throughout. -/

namespace Sys2Proof.Machine

/-- The voices of a chip: "voice 3" of the prose is `V[2]` (rule R10). -/
inductive VoiceId where
  | v1
  | v2
  | v3
  deriving DecidableEq, Repr

/-- The waveform generator of a voice (rule R23). -/
structure Wave where
  /-- the 24-bit phase accumulator -/
  acc : BitVec 24
  /-- the per-cycle increment -/
  freq : BitVec 16
  /-- the pulse width -/
  pw : BitVec 12
  /-- control bits 7..4: NOISE, PULSE, SAW, TRI as bits 3..0 -/
  waveform : BitVec 4
  test : Bool
  ring : Bool
  sync : Bool
  /-- the noise LFSR: 23 significant bits in a 24-bit field (conflict C7) -/
  sr : BitVec 24
  /-- cycles until a bit-19 edge clocks the LFSR -/
  shiftPipeline : BitVec 2
  /-- `shift_register_reset` countdown while `test` is set -/
  srrCount : BitVec 32
  /-- accumulator bit 23 rose in the last cycle -/
  msbRising : Bool
  /-- 0x800000 or 0 -/
  ringMsbMask : BitVec 24
  /-- 0x000 if NOISE is selected, else 0xFFF -/
  noNoise : BitVec 12
  /-- 0x000 if PULSE is selected, else 0xFFF -/
  noPulse : BitVec 12
  noiseOutput : BitVec 12
  /-- the pulse level, one cycle late -/
  pulseOutput : BitVec 12
  /-- the DAC input of the voice -/
  waveformOutput : BitVec 12
  /-- the read-back latch -/
  osc3 : BitVec 12
  /-- the 8580 read-back delay stage -/
  triSawPipeline : BitVec 12
  /-- fade of the floating DAC input -/
  floatingTtl : BitVec 32
  deriving DecidableEq, Repr

/-- The states of the envelope (rule R25). -/
inductive EnvState where
  | attack
  | decaySustain
  | release
  deriving DecidableEq, Repr

/-- The exponential periods: one of 1, 2, 4, 8, 16, 30 (rules R25, R26). -/
inductive ExpPeriod where
  | p1
  | p2
  | p4
  | p8
  | p16
  | p30
  deriving DecidableEq, Repr

/-- The envelope generator of a voice (rule R25). -/
structure Env where
  /-- the 15-bit rate LFSR -/
  lfsr : BitVec 15
  /-- the rate comparison value, an entry of adsrtable -/
  rate : BitVec 15
  expCounter : BitVec 5
  expPeriod : ExpPeriod
  /-- the envelope level -/
  envelopeCounter : BitVec 8
  state : EnvState
  /-- target of a pipelined state change -/
  nextState : EnvState
  /-- the last gate bit written -/
  gate : Bool
  /-- cycles of pending state change -/
  statePipeline : BitVec 3
  /-- cycles until an envelope step -/
  envelopePipeline : BitVec 3
  /-- cycles until an exponential-counter event -/
  exponentialPipeline : BitVec 3
  attack : BitVec 4
  decay : BitVec 4
  release : BitVec 4
  /-- the extended sustain level `(s << 4) | s` (rule R202) -/
  sustain : BitVec 8
  /-- false = frozen -/
  counterEnabled : Bool
  /-- a rate-counter reset is pending -/
  resetLfsr : Bool
  /-- the ENV3 read-back latch -/
  env3 : BitVec 8
  deriving DecidableEq, Repr

/-- A voice: waveform and envelope generator (rules R13, R29). -/
structure Voice where
  wave : Wave
  env : Env
  deriving DecidableEq, Repr

/-- The state of one integrator of the filter (rule R27). -/
structure Integ where
  vx : Int
  vc : Int
  deriving DecidableEq, Repr

/-- The filter of a chip (rules R27, R244). The node voltages are signed integers in 16 bits (rule R259). -/
structure Filter where
  fc : BitVec 11
  res : BitVec 4
  /-- routing: bit 0 voice 1, bit 1 voice 2, bit 2 voice 3, bit 3 external input -/
  filt : BitVec 4
  /-- bit 0 LP, bit 1 BP, bit 2 HP, bit 3 voice3off -/
  mode : BitVec 4
  vol : BitVec 4
  vhp : Int
  vbp : Int
  vlp : Int
  /-- the integrator driven by `Vhp`, whose output is `Vbp` -/
  istateHp : Integ
  /-- the integrator driven by `Vbp`, whose output is `Vlp` -/
  istateBp : Integ
  deriving DecidableEq, Repr

/-- The external RC filter of a chip (rule R28). -/
structure ExtFilter where
  elp : Int
  ehp : Int
  deriving DecidableEq, Repr

/-- One chip (rule R29) with the host inputs that are driven into it (rules R7, R260, R321, R325, R326). -/
structure Chip where
  model : ChipModel
  voice1 : Voice
  voice2 : Voice
  voice3 : Voice
  filter : Filter
  ext : ExtFilter
  /-- the last byte written, fading -/
  busValue : BitVec 8
  /-- remaining bus-value life in cycles, a signed 32-bit number -/
  busTtl : BitVec 32
  /-- SID cycles executed since power-on -/
  cycles : BitVec 64
  /-- the informative sync deadline (rule R165) -/
  nextVoiceSync : BitVec 32
  /-- host input POTX -/
  potX : Byte
  /-- host input POTY -/
  potY : Byte
  /-- host inputs MUTE[0], MUTE[1], MUTE[2] -/
  mute1 : Bool
  mute2 : Bool
  mute3 : Bool
  /-- host input EXT_IN, held between calls -/
  extIn : Int
  deriving DecidableEq, Repr

/-- A pending entry of the scheduler's queue: `(e, time, seq)`, the time in half-cycles (rule R30). -/
structure QueueEntry where
  event : EventId
  time : BitVec 64
  seq : BitVec 64
  deriving DecidableEq, Repr

/-- The fault kinds with what each records (rule R351). -/
inductive BlockFault where
  | scheduleInPast (e : EventId) (t : Nat)
  | schedulePending (e : EventId)
  | runUntilPast (target : Nat)
  | timeOverflow (t : Nat)
  | configRefused (name : ParamName)
  | illegalPortWord (w : PortWord)
  deriving DecidableEq, Repr

/-- The spec's own numeric codes (rule R351). -/
def BlockFault.code : BlockFault → Nat
  | .scheduleInPast _ _ => 1
  | .schedulePending _ => 2
  | .runUntilPast _ => 3
  | .timeOverflow _ => 4
  | .configRefused _ => 5
  | .illegalPortWord _ => 6

/-- The outputs of the block (rule R300): "the read bytes; one signed 16-bit sample per CLOCK; the scheduler's results", the
`FAULT` that an operation returns in the fault state (rule R350), and the refusal of a construction (rule R356). -/
inductive Output where
  | byte (c : ChipIndex) (x : Byte)
  | sample (c : ChipIndex) (x : Sample)
  | dispatched (e : Option EventId)
  | time (cycle : Nat) (ph : Phase)
  | faultReturned
  | refused (f : BlockFault)
  deriving DecidableEq, Repr

/-- The whole block: its state, its host inputs and its ports. -/
structure State where
  /-- the parameters fixed at power-on (rule R7) -/
  params : Params
  /-- `C[0 .. N_CHIPS - 1]` (rule R335) -/
  chips : List Chip
  /-- `T`, in half-cycles (rules R30, R110) -/
  time : BitVec 64
  /-- `Q`, listed in its order by `(time, seq)` (rules R30, R112) -/
  queue : List QueueEntry
  /-- the insertion counter (rule R30) -/
  nextSeq : BitVec 64
  /-- `FAULTED`: the absorbing fault state (rule R350) -/
  faulted : Option BlockFault
  /-- the platform's chip-select: the chip a bus word is addressed to (rules R71, R90) -/
  chipSel : ChipIndex
  /-- the trace still to come (rules R79, R300), the next input first -/
  input : List Input
  /-- the callback sequences the owners have supplied and no dispatch has used, oldest first (rule R121, log entry 8) -/
  callbacks : List (EventId × List CallOp)
  /-- the outputs so far, newest first (log entry 9) -/
  outputs : List Output
  deriving DecidableEq, Repr

/-- Why the machine stops with a fault. The block's own faults are no stop: they are the state `faulted` (rule R350). -/
inductive Fault where
  /-- Raised by an operation whose chip index is not below `N_CHIPS`: no such operation can be written (rule R358). Safe: the
  machine stops where the block has no behaviour at all. -/
  | noSuchChip (c : ChipIndex)
  /-- Raised by `SCHEDULE` and `CANCEL` of an event that is not in `EVENTS`: no such operation can be written (rule R358). Safe: the
  machine stops where the block has no behaviour at all. -/
  | noSuchEvent (e : EventId)
  deriving DecidableEq, Repr

/-- Why an instruction has no meaning. -/
inductive Refusal where
  /-- Raised by `exec` for an instruction that has no meaning yet. Safe: nothing runs. -/
  | notModelled (mnemonic : String)
  deriving DecidableEq, Repr

/-- What an operation answers. -/
abbrev Out := Host.Outcome State Fault Refusal

/-! Power-on values. -/

/-- The waveform state after power-on (rules R23, R380, R381). -/
def Wave.powerOn : Wave where
  acc := 0x555555#24
  freq := 0
  pw := 0
  waveform := 0
  test := false
  ring := false
  sync := false
  sr := 0x7FFFFF#24
  shiftPipeline := 0
  srrCount := 0
  msbRising := false
  ringMsbMask := 0
  noNoise := 0xFFF#12
  noPulse := 0xFFF#12
  noiseOutput := 0xFF0#12
  pulseOutput := 0xFFF#12
  waveformOutput := 0
  osc3 := 0
  triSawPipeline := 0x555#12
  floatingTtl := 0

/-- The envelope state after power-on (rules R25, R380, R382). -/
def Env.powerOn : Env where
  lfsr := 0x7FFF#15
  rate := 0x007F#15
  expCounter := 0
  expPeriod := .p1
  envelopeCounter := 0xAA#8
  state := .release
  nextState := .release
  gate := false
  statePipeline := 0
  envelopePipeline := 0
  exponentialPipeline := 0
  attack := 0
  decay := 0
  release := 0
  sustain := 0
  counterEnabled := true
  resetLfsr := true
  env3 := 0

/-- A voice after power-on. -/
def Voice.powerOn : Voice := ⟨Wave.powerOn, Env.powerOn⟩

/-- The filter after power-on with its integrators at `init` = `INTEG_INIT(model)` (rules R27, R256, R383). -/
def Filter.powerOn (init : Integ) : Filter where
  fc := 0
  res := 0
  filt := 0
  mode := 0
  vol := 0
  vhp := 0
  vbp := 0
  vlp := 0
  istateHp := init
  istateBp := init

/-- A chip of the given model after power-on (rules R29, R380, R384), its host inputs at their defaults
(`93_implementation_defined.md` section 1.1). -/
def Chip.powerOn (model : ChipModel) (init : Integ) : Chip where
  model := model
  voice1 := Voice.powerOn
  voice2 := Voice.powerOn
  voice3 := Voice.powerOn
  filter := Filter.powerOn init
  ext := ⟨0, 0⟩
  busValue := 0
  busTtl := 0
  cycles := 0
  nextVoiceSync := 0xFFFFFFFF#32
  potX := 0
  potY := 0
  mute1 := false
  mute2 := false
  mute3 := false
  extIn := 0

/-- The parameters of the block `State.reset` stands for: the rate of the worked examples, the cycle counts that decision D14
works out for it, sixteen events, and the default of every OPEN table (DESIGN CHOICE, log entry 2; no statement rests on these values). -/
def Params.reference : Params where
  clockHz := 985248
  srrCycles6581 := 197050#32
  srrCycles8580 := 4926240#32
  floatTtl6581 := 197050#32
  floatTtl8580 := 4926240#32
  filterCurve6581 := .rational 0
  filterCurve8580 := .rational 0
  vcClamp6581 := false
  waveTable := .default
  waveDac := .default
  envDac := .default
  voiceOut := .default
  voiceScale := .default
  resGain := .default
  summer := .default
  mixer := .default
  volGain := .default
  integ := .default
  integInit := .default
  events := List.range 16

/-- The block right after power-on (rule R380) with one chip, a MOS6581, and the reference parameters (DESIGN CHOICE, log entry 2):
the start of the programs of `95_test_vectors.md` section 3. -/
def State.reset : State where
  params := Params.reference
  chips := [Chip.powerOn .mos6581 ⟨0, 0⟩]
  time := 0
  queue := []
  nextSeq := 0
  faulted := none
  chipSel := 0
  input := []
  callbacks := []
  outputs := []

end Sys2Proof.Machine
end

