-- ==== Sys2Proof/Machine/Operands.lean ====
section
/-! DEFINITION. Operand assembly: the register fields a data byte is written into (spec/30_encoding.md rule R92), the register map's
derived selections (rules R93, R94), the arithmetic of signed numbers (rule R9), and the accessors of a chip's voices (rules R10, R161). -/

namespace Sys2Proof.Machine

/-- `x >> n` on a signed mathematical integer: an arithmetic shift, rounding toward minus infinity (rule R9). -/
def asr (x : Int) (n : Nat) : Int := x / (2 ^ n : Int)

/-- `x` limited to the interval from `lo` to `hi`. -/
def clampInt (lo hi x : Int) : Int := min hi (max lo x)

/-- `sat16` of rule R291 and `sat16s` of rule R251: the nearest signed 16-bit value. -/
def sat16 (x : Int) : Int := clampInt (-32768) 32767 x

/-- `freq <- freq[15:8] : d` (rule R92 FREQ_LO). -/
def freqWithLo (freq : BitVec 16) (d : Byte) : BitVec 16 := freq.extractLsb' 8 8 ++ d

/-- `freq <- d : freq[7:0]` (rule R92 FREQ_HI). -/
def freqWithHi (freq : BitVec 16) (d : Byte) : BitVec 16 := d ++ freq.extractLsb' 0 8

/-- `pw <- pw[11:8] : d` (rule R92 PW_LO). -/
def pwWithLo (pw : BitVec 12) (d : Byte) : BitVec 12 := pw.extractLsb' 8 4 ++ d

/-- `pw <- d[3:0] : pw[7:0]`; d[7:4] is ignored (rule R92 PW_HI). -/
def pwWithHi (pw : BitVec 12) (d : Byte) : BitVec 12 := d.extractLsb' 0 4 ++ pw.extractLsb' 0 8

/-- `fc <- fc[10:3] : d[2:0]`; d[7:3] is ignored (rule R92 FC_LO). -/
def fcWithLo (fc : BitVec 11) (d : Byte) : BitVec 11 := fc.extractLsb' 3 8 ++ d.extractLsb' 0 3

/-- `fc <- d : fc[2:0]` (rule R92 FC_HI). -/
def fcWithHi (fc : BitVec 11) (d : Byte) : BitVec 11 := d ++ fc.extractLsb' 0 3

/-- `d[7:4]`: waveform, attack, sustain, res or mode (rule R92). -/
def hiNibble (d : Byte) : BitVec 4 := d.extractLsb' 4 4

/-- `d[3:0]`: decay, release, filt or vol (rule R92). -/
def loNibble (d : Byte) : BitVec 4 := d.extractLsb' 0 4

/-- The extended sustain level `s : s` (rules R92, R202). -/
def sustainLevel (s : BitVec 4) : BitVec 8 := s ++ s

/-- `waveform[2:0]`, which selects the base table (rule R93). -/
def waveSelect (waveform : BitVec 4) : BitVec 3 := waveform.extractLsb' 0 3

/-- NOISE combined with another waveform (rules R145, R159). -/
def noiseCombined (waveform : BitVec 4) : Bool := waveform.getLsbD 3 && waveSelect waveform != 0

/-- `acc[23:12]`, the part of the accumulator that every waveform is read at (rules R151, R156). -/
def accHigh (acc : BitVec 24) : BitVec 12 := acc.extractLsb' 12 12

/-- The sync and ring source `src(i) = (i + 2) mod 3` (rule R161). -/
def VoiceId.src : VoiceId → VoiceId
  | .v1 => .v3
  | .v2 => .v1
  | .v3 => .v2

/-- The voice that `i` is the source of: `(i + 1) mod 3` (rule R165). -/
def VoiceId.dest : VoiceId → VoiceId
  | .v1 => .v2
  | .v2 => .v3
  | .v3 => .v1

/-- The voice of a voice index. -/
def VoiceId.ofIndex : Fin 3 → VoiceId
  | 0 => .v1
  | 1 => .v2
  | 2 => .v3

/-- `C.V[i]`. -/
def Chip.voice (c : Chip) : VoiceId → Voice
  | .v1 => c.voice1
  | .v2 => c.voice2
  | .v3 => c.voice3

/-- `C.V[i] <- v`. -/
def Chip.setVoice (c : Chip) (i : VoiceId) (v : Voice) : Chip :=
  match i with
  | .v1 => { c with voice1 := v }
  | .v2 => { c with voice2 := v }
  | .v3 => { c with voice3 := v }

/-- Change one voice's waveform generator. -/
def Chip.mapWave (c : Chip) (i : VoiceId) (f : Wave → Wave) : Chip :=
  c.setVoice i { c.voice i with wave := f (c.voice i).wave }

/-- Change one voice's envelope generator. -/
def Chip.mapEnv (c : Chip) (i : VoiceId) (f : Env → Env) : Chip :=
  c.setVoice i { c.voice i with env := f (c.voice i).env }

/-- `MUTE[C][v]` (rule R7). -/
def Chip.muted (c : Chip) : VoiceId → Bool
  | .v1 => c.mute1
  | .v2 => c.mute2
  | .v3 => c.mute3

/-- The number an exponential period stands for (rule R25). -/
def ExpPeriod.value : ExpPeriod → BitVec 5
  | .p1 => 1
  | .p2 => 2
  | .p4 => 4
  | .p8 => 8
  | .p16 => 16
  | .p30 => 30

/-- `PHI1 = 0`, `PHI2 = 1` (rule R113). -/
def phaseBit : Phase → Nat
  | .phi1 => 0
  | .phi2 => 1

/-- `phase(T) = T & 1` (rule R110). -/
def phaseOf (t : BitVec 64) : Phase := if t.getLsbD 0 then .phi2 else .phi1

/-- `cycle(T) = T >> 1` (rule R110). -/
def cycleOf (t : BitVec 64) : Nat := t.toNat / 2

end Sys2Proof.Machine
end

