-- ==== Sys2Proof/Machine/Flags.lean ====
section
/-! DEFINITION. The block has no condition codes; this file computes its one-bit status state and the masks derived from the control
bits (spec/10_state.md rule R31; spec/41_waveform.md rules R144, R148, R162; spec/42_envelope.md rule R210). -/

namespace Sys2Proof.Machine

/-- Bit `n` of the accumulator rose from `old` to `new` (rule R148). -/
def bitRose (n : Nat) (old new : BitVec 24) : Bool := !old.getLsbD n && new.getLsbD n

/-- `msb_rising`: accumulator bit 23 rose (rule R148). -/
def msbRose (old new : BitVec 24) : Bool := bitRose 23 old new

/-- `ring_msb_mask`: 0x800000 when ring is set and the voice's own sawtooth bit is 0 (rules R144, R164). -/
def ringMask (ring : Bool) (waveform : BitVec 4) : BitVec 24 :=
  if ring && !waveform.getLsbD 1 then 0x800000#24 else 0x000000#24

/-- `no_noise`: 0x000 if NOISE is selected, else 0xFFF (rule R144). -/
def noNoiseMask (waveform : BitVec 4) : BitVec 12 := if waveform.getLsbD 3 then 0x000#12 else 0xFFF#12

/-- `no_pulse`: 0x000 if PULSE is selected, else 0xFFF (rule R144). -/
def noPulseMask (waveform : BitVec 4) : BitVec 12 := if waveform.getLsbD 2 then 0x000#12 else 0xFFF#12

/-- The pulse comparator: `acc[23:12] >= pw` (rule R156). -/
def pulseLevel (acc : BitVec 24) (pw : BitVec 12) : BitVec 12 :=
  if pw ≤ accHigh acc then 0xFFF#12 else 0x000#12

/-- The exponential period at an exact envelope level, and whether counting freezes there; `none` where the lookup changes nothing
(rule R210). -/
def expLookup (counter : BitVec 8) : Option (ExpPeriod × Bool) :=
  if counter = 0xFF#8 then some (.p1, false)
  else if counter = 0x5D#8 then some (.p2, false)
  else if counter = 0x36#8 then some (.p4, false)
  else if counter = 0x1A#8 then some (.p8, false)
  else if counter = 0x0E#8 then some (.p16, false)
  else if counter = 0x06#8 then some (.p30, false)
  else if counter = 0x00#8 then some (.p1, true)
  else none

end Sys2Proof.Machine
end

