-- ==== Sys2Proof/Machine/Envelope.lean ====
section
/-! DEFINITION. The envelope generator: the rate table, its register writes and its clock step (spec/42_envelope.md rules
R200-R210). -/

namespace Sys2Proof.Machine

/-- `adsrtable[0..15]`, "a fixed constant and must be reproduced bit-exactly" (rule R200). -/
def adsrTable : List (BitVec 15) :=
  [0x007F#15, 0x3000#15, 0x1E00#15, 0x0660#15, 0x0182#15, 0x5573#15, 0x000E#15, 0x3805#15]
    ++ [0x2424#15, 0x2220#15, 0x090C#15, 0x0ECD#15, 0x010E#15, 0x23F7#15, 0x5237#15, 0x64A8#15]

/-- `adsrtable[r]`. -/
def adsrRate (r : BitVec 4) : BitVec 15 := adsrTable.getD r.toNat 0

/-! ## Register writes -/

/-- The gate turns on: an attack is started (rule R203). -/
def Env.gateOn (e : Env) : Env :=
  let e1 := { e with gate := true, nextState := .attack, statePipeline := 2 }
  if e.resetLfsr || e.exponentialPipeline == 2 then
    { e1 with envelopePipeline := if e.expPeriod = .p1 || e.exponentialPipeline == 2 then 2 else 4 }
  else if e.exponentialPipeline = 1 then { e1 with statePipeline := 3 }
  else e1

/-- The gate turns off: a release is started (rule R203). -/
def Env.gateOff (e : Env) : Env :=
  { e with gate := false, nextState := .release, statePipeline := if e.envelopePipeline = 0 then 2 else 3 }

/-- `W_CONTROL`, gate half: an unchanged gate does nothing (rule R203). -/
def Env.writeControl (d : Byte) (e : Env) : Env :=
  if d.getLsbD 0 = e.gate then e else if d.getLsbD 0 then e.gateOn else e.gateOff

/-- `W_AD` (rule R204). -/
def Env.writeAd (d : Byte) (e : Env) : Env :=
  let e1 := { e with attack := hiNibble d, decay := loNibble d }
  match e.state with
  | .attack => { e1 with rate := adsrRate (hiNibble d) }
  | .decaySustain => { e1 with rate := adsrRate (loNibble d) }
  | .release => e1

/-- `W_SR` (rule R205). -/
def Env.writeSr (d : Byte) (e : Env) : Env :=
  let e1 := { e with sustain := sustainLevel (hiNibble d), release := loNibble d }
  match e.state with
  | .attack => e1
  | .decaySustain => e1
  | .release => { e1 with rate := adsrRate (loNibble d) }

/-! ## Clock step -/

/-- `STATE_CHANGE(E)`: advance a pending state change by one cycle (rule R207). From DecaySustain a Release takes effect 1 or 2 cycles
after gate off, as rule R207 says in its pseudocode and its words. Rule R396's "2, or 3" names no state and is marked as following from
rules R203 and R207 (rule R12), so it is read as their count from Attack (DEDUCED, log entry 27). -/
def Env.stateChange (e : Env) : Env :=
  let p := e.statePipeline - 1
  let e1 := { e with statePipeline := p }
  match e.nextState with
  | .attack =>
    if p = 1 then { e1 with rate := adsrRate e.decay }
    else if p = 0 then { e1 with state := .attack, rate := adsrRate e.attack, counterEnabled := true }
    else e1
  | .decaySustain =>
    if p = 0 then { e1 with state := .decaySustain, rate := adsrRate e.decay } else e1
  | .release =>
    if (e.state = .attack && p == 0) || (e.state = .decaySustain && p == 1) then
      { e1 with state := .release, rate := adsrRate e.release }
    else e1

/-- `EXP_LOOKUP(E)` (rule R210). -/
def Env.lookup (e : Env) : Env :=
  match expLookup e.envelopeCounter with
  | some (period, freeze) => { e with expPeriod := period, counterEnabled := e.counterEnabled && !freeze }
  | none => e

/-- `ENV_STEP(E)`: one step of the envelope counter (rule R209). -/
def Env.step (e : Env) : Env :=
  let e1 := match e.state with
    | .attack =>
      let n := e.envelopeCounter + 1
      if n = 0xFF#8 then
        { e with envelopeCounter := n, state := .decaySustain, nextState := .decaySustain, rate := adsrRate e.decay }
      else { e with envelopeCounter := n }
    | .decaySustain =>
      if e.envelopeCounter = e.sustain then e else { e with envelopeCounter := e.envelopeCounter - 1 }
    | .release => { e with envelopeCounter := e.envelopeCounter - 1 }
  e1.lookup

/-- The envelope-pipeline branch of the clock step (rule R206). -/
def Env.clockEnvelope (e : Env) : Env :=
  let e1 := { e with envelopePipeline := e.envelopePipeline - 1 }
  if e1.envelopePipeline = 0 && e.counterEnabled then e1.step else e1

/-- The exponential-pipeline branch of the clock step (rule R206). -/
def Env.clockExponential (e : Env) : Env :=
  let e1 := { e with exponentialPipeline := e.exponentialPipeline - 1 }
  if e1.exponentialPipeline = 0 then
    { e1 with expCounter := 0,
              envelopePipeline :=
                if (e.state = .decaySustain && e.envelopeCounter != e.sustain) || e.state = .release then 1
                else e.envelopePipeline }
  else e1

/-- The rate-counter reset branch of the clock step (rule R206). -/
def Env.clockReset (e : Env) : Env :=
  let e1 := { e with lfsr := 0x7FFF#15, resetLfsr := false }
  match e.state with
  | .attack => { e1 with expCounter := 0, envelopePipeline := 2 }
  | .decaySustain | .release =>
    if e.counterEnabled then
      { e1 with expCounter := e.expCounter + 1,
                exponentialPipeline :=
                  if e.expCounter + 1 = e.expPeriod.value then (if e.expPeriod = .p1 then 1 else 2)
                  else e.exponentialPipeline }
    else e1

/-- One step of the 15-bit rate LFSR: bit 14 becomes `lfsr[0] ^ lfsr[1]` (rule R208). -/
def lfsrNext (l : BitVec 15) : BitVec 15 := (l >>> 1) ||| (((l <<< 14) ^^^ (l <<< 13)) &&& 0x4000#15)

/-- `LFSR_STEP(E)`: a match holds the LFSR and arms its reset (rule R208). -/
def Env.lfsrStep (e : Env) : Env :=
  if e.lfsr = e.rate then { e with resetLfsr := true } else { e with lfsr := lfsrNext e.lfsr }

/-- The first part of the clock step: the read-back latch and the pending state change (rule R206). -/
def Env.clockLatch (e : Env) : Env :=
  let e1 := { e with env3 := e.envelopeCounter }
  if e.statePipeline = 0 then e1 else e1.stateChange

/-- The middle part of the clock step: the first of the three branches that is due (rule R206). -/
def Env.clockCounter (e : Env) : Env :=
  if e.envelopePipeline != 0 then e.clockEnvelope
  else if e.exponentialPipeline != 0 then e.clockExponential
  else if e.resetLfsr then e.clockReset
  else e

/-- `ENV_CLOCK(E)` (rule R206). -/
def Env.clock (e : Env) : Env := e.clockLatch.clockCounter.lfsrStep

end Sys2Proof.Machine
end

