-- ==== Sys2Proof/Machine/Numerics.lean ====
section
/-! DEFINITION. The parameters of the block as the rules use them: each OPEN table or function at its default or as a given one,
kept within the range its rule states (spec/00_scope.md rule R7; spec/41_waveform.md R152, R153; spec/43_filter.md R250-R258;
spec/44_output_stage.md R281-R283, R290; spec/45_chip_io.md R322). -/

namespace Sys2Proof.Machine

/-! ## Cycle counts by model -/

/-- `BUS_TTL(model)`, exact (rule R322). -/
def busTtlOf : ChipModel → BitVec 32
  | .mos6581 => 0x01D00#32
  | .mos8580 => 0xA2000#32

/-- `SRR_CYCLES(model)` (rule R7). -/
def srrCycles (p : Params) : ChipModel → BitVec 32
  | .mos6581 => p.srrCycles6581
  | .mos8580 => p.srrCycles8580

/-- `FLOAT_TTL(model)` (rule R7). -/
def floatTtl (p : Params) : ChipModel → BitVec 32
  | .mos6581 => p.floatTtl6581
  | .mos8580 => p.floatTtl8580

/-- The real number a knob position is. -/
def curveValue : Curve → ℝ
  | .rational q => (q : ℝ)
  | .given k => Config.filterCurve k

/-! ## Waveform bases -/

/-- `TRI(idx)` (rule R152). -/
def tri (idx : BitVec 12) : BitVec 12 := (if idx.getLsbD 11 then idx ^^^ 0xFFF#12 else idx) <<< 1

/-- `WAVE_TABLE_DEFAULT(sel, idx)` (rule R153). -/
def waveTableDefault (sel : BitVec 3) (idx : BitVec 12) : BitVec 12 :=
  (if sel.getLsbD 0 then tri idx else 0xFFF#12) &&& (if sel.getLsbD 1 then idx else 0xFFF#12) &&& 0xFF0#12

/-- `WAVE_TABLE(model, sel, idx)`: every entry has its 4 low bits 0 (rule R153 constraint (a)). -/
def waveTable (p : Params) (m : ChipModel) (sel : BitVec 3) (idx : BitVec 12) : BitVec 12 :=
  match p.waveTable with
  | .default => waveTableDefault sel idx
  | .given k => Config.waveTable k m sel idx &&& 0xFF0#12

/-- `WAVE(sel, idx)`: the single-waveform bases and the combined-waveform table (rules R152, R153). -/
def waveBase (p : Params) (m : ChipModel) (sel : BitVec 3) (idx : BitVec 12) : BitVec 12 :=
  if sel = 0 then 0xFFF#12
  else if sel = 1 then tri idx
  else if sel = 2 then idx
  else if sel = 4 then 0xFFF#12
  else waveTable p m sel idx

/-! ## DACs (rules R281, R282)

`LADDER` is the R-2R ladder of rule R282 in exact rationals. Only the ratio of its bit weights matters, so the default DACs use the
weights as whole numbers (`ladderWeights`); `Laws/Numerics.lean` proves them proportional to the rule's own computation. -/

/-- `k = 2R/R` (rule R282). -/
def ladderRatio : ChipModel → Rat
  | .mos6581 => 11 / 5
  | .mos8580 => 2

/-- Two resistances in parallel. -/
def parallel (a b : Rat) : Rat := a * b / (a + b)

/-- The tail resistance below bit `b` (rule R282); `none` is the open end of an unterminated ladder. -/
def ladderTail (m : ChipModel) : Nat → Option Rat
  | 0 => match m with
    | .mos6581 => none
    | .mos8580 => some (ladderRatio m)
  | b + 1 => match ladderTail m b with
    | none => some (1 + ladderRatio m)
    | some r => some (1 + parallel (ladderRatio m) r)

/-- The carry towards the output through `j` further stages (rule R282), from the voltage and resistance so far. -/
def ladderCarry (m : ChipModel) : Nat → Rat → Rat → Rat
  | 0, vn, _ => vn
  | j + 1, vn, rn =>
    let i := vn / (rn + 1)
    let r := parallel (ladderRatio m) (rn + 1)
    ladderCarry m j (r * i) r

/-- `bitv[b]`: the contribution of bit `b` of an `n`-bit ladder alone (rule R282). -/
def ladderBit (m : ChipModel) (n b : Nat) : Rat :=
  match ladderTail m b with
  | none => ladderCarry m (n - (b + 1)) 1 (ladderRatio m)
  | some r =>
    let rn := parallel (ladderRatio m) r
    ladderCarry m (n - (b + 1)) (rn / ladderRatio m) rn

/-- The sum of the weights of the bits set in `x`, bit 0 first. -/
def weightSum (x : Nat) : List Rat → Rat
  | [] => 0
  | w :: ws => (if x % 2 = 1 then w else 0) + weightSum (x / 2) ws

/-- `LADDER(model, n, x)` exactly as rule R282 computes it. -/
def ladder (m : ChipModel) (n x : Nat) : Rat :=
  let bits := (List.range n).map (ladderBit m n)
  weightSum x bits / (bits.sum / 2 ^ n)

/-- The bit weights of the 8-bit ladder as whole numbers, bit 0 first. -/
def ladderWeights8 : ChipModel → List Nat
  | .mos6581 => [19487171, 28344976, 50086861, 94595501, 182102096, 352382371, 682836451, 1323670736]
  | .mos8580 => [1, 2, 4, 8, 16, 32, 64, 128]

/-- The bit weights of the 12-bit ladder as whole numbers, bit 0 first. -/
def ladderWeights12 : ChipModel → List Nat
  | .mos6581 =>
    [285311670611, 414998793616, 733321731901, 1384972730141, 2666156787536, 5159230293811]
      ++ [9997408479091, 19379863245776, 37571346760541, 72840715166461, 141219499557136, 273788965564691]
  | .mos8580 => [1, 2, 4, 8, 16, 32] ++ [64, 128, 256, 512, 1024, 2048]

/-- The sum of the whole-number weights of the bits set in `x`, bit 0 first. -/
def weightSumNat (x : Nat) : List Nat → Nat
  | [] => 0
  | w :: ws => (if x % 2 = 1 then w else 0) + weightSumNat (x / 2) ws

/-- The nearest whole number to `a / b`, for `b` not 0. -/
def roundDiv (a b : Nat) : Nat := (2 * a + b) / (2 * b)

/-- `round(2^n * weights(x) / weights(2^n - 1))`: the rounded ladder of rule R282 from whole-number weights. -/
def ladderLevel (weights : List Nat) (x : Nat) : Int :=
  roundDiv (2 ^ weights.length * weightSumNat x weights) weights.sum

/-- `WAVE_DAC(model, w)` (rule R281). -/
def waveDac (p : Params) (m : ChipModel) (w : BitVec 12) : Int :=
  match p.waveDac with
  | .default => ladderLevel (ladderWeights12 m) w.toNat
  | .given k => Config.waveDac k m w

/-- `ENV_DAC(model, e)` (rule R282). -/
def envDac (p : Params) (m : ChipModel) (e : BitVec 8) : Int :=
  match p.envDac with
  | .default => ladderLevel (ladderWeights8 m) e.toNat
  | .given k => Config.envDac k m e

/-- `WAVE_ZERO(model)` (rule R283). -/
def waveZero (_ : ChipModel) : Int := 2048

/-- `VOICE_OUT(model, w, e)` (rule R283). A given one acts on the waveform output and the envelope counter themselves, as the signature of
rules R7 and R280 has it, not on the two DAC levels: beside it `WAVE_DAC` and `ENV_DAC` have no effect (DESIGN CHOICE, log entry 31). -/
def voiceOut (p : Params) (m : ChipModel) (w : BitVec 12) (e : BitVec 8) : Int :=
  match p.voiceOut with
  | .default => (waveDac p m w - waveZero m) * envDac p m e
  | .given k => Config.voiceOut k m w e

/-- `VOICE_SCALE(model, o)` (rule R257). -/
def voiceScale (p : Params) (m : ChipModel) (o : Int) : Int :=
  match p.voiceScale with
  | .default => asr o 7
  | .given k => Config.voiceScale k m o

/-! ## Filter numerics -/

/-- `Q1024(model, res)`, the default tables of rule R250. -/
def q1024Table : ChipModel → List Int
  | .mos6581 => [1448, 1324, 1219, 1129, 1052, 984, 925, 872] ++ [826, 783, 745, 711, 679, 651, 624, 600]
  | .mos8580 => [1448, 1328, 1218, 1117, 1024, 939, 861, 790] ++ [724, 664, 609, 558, 512, 470, 431, 395]

/-- `Q1024(model, res)` (rule R250). -/
def q1024 (m : ChipModel) (res : BitVec 4) : Int := (q1024Table m).getD res.toNat 0

/-- `RES_GAIN(model, res, x)` (rule R250). -/
def resGain (p : Params) (m : ChipModel) (res : BitVec 4) (x : Int) : Int :=
  match p.resGain with
  | .default => -(asr (x * q1024 m res) 10)
  | .given k => Config.resGain k m res x

/-- `SUMMER(model, n, x)`: a 16-bit signed value (rule R251). -/
def summer (p : Params) (m : ChipModel) (n : Nat) (x : Int) : Int :=
  match p.summer with
  | .default => sat16 (-x)
  | .given k => sat16 (Config.summer k m n x)

/-- `MIXER(model, n, x)`: an index of the gain table in [0, 65535] (rule R252). -/
def mixer (p : Params) (m : ChipModel) (n : Nat) (x : Int) : Int :=
  match p.mixer with
  | .default => clampInt 0 65535 (x + 0x8000)
  | .given k => clampInt 0 65535 (Config.mixer k m n x)

/-- `VOL_GAIN(model, vol, m)`: an unsigned 16-bit value (rule R253). -/
def volGain (p : Params) (m : ChipModel) (vol : BitVec 4) (x : Int) : Int :=
  match p.volGain with
  | .default => 0x8000 + asr ((x - 0x8000) * vol.toNat) 4
  | .given k => clampInt 0 65535 (Config.volGain k m vol x)

/-- `10^60 * π`, rounded down: enough digits for every rounding below to be exact (DEDUCED, log entry 10). -/
def piScaled : Nat := 3141592653589793238462643383279502884197169399375105820974944

/-- The scale of `piScaled`. -/
def piScale : Nat := 10 ^ 60

/-- `round(2π * a / b)` for `b` not 0. -/
def roundTwoPi (a b : Nat) : Nat := roundDiv (2 * piScaled * a) (piScale * b)

/-- `W0(fc) = round(2π * F0(fc) * 2^20 / CLOCK_HZ)` with `F0(fc) = 30 + fc * 12000 / 2047` Hz, an exact quotient: vector V-FI-1
(rule R255). -/
def cutoffW0 (p : Params) (fc : BitVec 11) : Int :=
  roundTwoPi ((30 * 2047 + fc.toNat * 12000) * 2 ^ 20) (2047 * p.clockHz)

/-- The linear default integrator of both models (rule R255): the new `{vx, vc}` and the output. It ignores `FILTER_CURVE` (rule R258)
and `VC_CLAMP_6581`: rule R254's clamp to `[VC_MIN, VC_MAX]` acts in a given 6581 integrator only, since the two bounds have no default
(DESIGN CHOICE, log entry 30). -/
def integDefault (p : Params) (fc : BitVec 11) (st : Integ) (vi : Int) : Integ × Int :=
  let vc := sat16 (st.vc - asr (cutoffW0 p fc * vi) 20)
  ({ st with vc := vc }, vc)

/-- The 6581 cutoff DAC's level: its table, its zero point shifted by `FILTER_CURVE` (rules R254, R258). -/
def cutoffLevel6581 (p : Params) (k : Nat) (fc : BitVec 11) : Int :=
  Config.cutoffDac6581 k fc + Config.cutoffZero6581 k (curveValue p.filterCurve6581)

/-- The 6581 integrator by the source's equation (rules R249, R254), with the tables and constants of the given set `k`. With
`VC_CLAMP_6581`, `vc` is clamped first, and both the new `vx` and the output are formed from the clamped `vc` (DESIGN CHOICE, log entry
34). -/
def integ6581 (p : Params) (k : Nat) (fc : BitVec 11) (st : Integ) (vi : Int) : Integ × Int :=
  let cutoff := cutoffLevel6581 p k fc
  let kVg := Config.vcrKVg k cutoff st.vx vi
  let vgst := Config.vgst k cutoff st.vx vi
  let vgdt := Config.vgdt k cutoff st.vx vi
  let snake := Config.nSnake k * (vgst ^ 2 - vgdt ^ 2)
  let vcr := Config.nVcr k * (Config.vcrIds k (kVg - st.vx) - Config.vcrIds k (kVg - vi))
  let vcNew := st.vc - (snake + vcr) * Config.dt6581 k
  let vc := if p.vcClamp6581 then clampInt (Config.vcMin k) (Config.vcMax k) vcNew else vcNew
  let vx : Int := (Config.opampRev k (asr vc 15 + 0x8000)).toNat
  (⟨vx, vc⟩, sat16 (vx + asr vc 14))

/-- The 8580 cutoff DAC's level: the parallel conductance of the bits set in `fc`, its zero point shifted by `FILTER_CURVE` (rules
R255, R258). -/
def cutoffLevel8580 (p : Params) (k : Nat) (fc : BitVec 11) : Rat :=
  weightSum fc.toNat ((List.range 11).map (Config.cutoffWeight8580 k)) + Config.cutoffZero8580 k (curveValue p.filterCurve8580)

/-- The 8580 integrator of the given set `k`: linear in `vi` for fixed state and `fc`, up to the rounding to a 16-bit signed value
(rule R255); `fc` and `FILTER_CURVE` act through the cutoff DAC's level, and `K_8580` only here (rule R258). -/
def integ8580 (p : Params) (k : Nat) (fc : BitVec 11) (st : Integ) (vi : Int) : Integ × Int :=
  let cutoff := cutoffLevel8580 p k fc
  let offset := Config.integOffset8580 k cutoff Config.k8580 st.vx st.vc
  let slope := Config.integSlope8580 k cutoff Config.k8580 st.vx st.vc
  let vc := sat16 (offset - (slope * (vi : Rat)).floor)
  (⟨Config.integVx8580 k cutoff vc, vc⟩, vc)

/-- `INTEG(model, fc, st, vi)` (rules R254, R255). -/
def integ (p : Params) (m : ChipModel) (fc : BitVec 11) (st : Integ) (vi : Int) : Integ × Int :=
  match p.integ with
  | .default => integDefault p fc st vi
  | .given k => match m with
    | .mos6581 => integ6581 p k fc st vi
    | .mos8580 => integ8580 p k fc st vi

/-- `INTEG_INIT(model)` (rule R256). It is OPEN "for the table model": beside the default `INTEG`, whose `st.vx` "is unused and stays
0" (rule R255), a given `INTEG_INIT` is not used and the integrators start at 0 (DESIGN CHOICE, log entry 29). -/
def integInit (p : Params) (m : ChipModel) : Integ :=
  match p.integ, p.integInit with
  | .given _, .given k => ⟨Config.integInitVx k m, Config.integInitVc k m⟩
  | .default, _ | .given _, .default => ⟨0, 0⟩

/-! ## External filter coefficients (rule R290) -/

/-- `EXT_W_LP = round(2π * 16000 * 2^7 / CLOCK_HZ)`. -/
def extWLp (p : Params) : Int := roundTwoPi (16000 * 2 ^ 7) p.clockHz

/-- `EXT_W_HP = round(2π * 16 * 2^17 / CLOCK_HZ)`. -/
def extWHp (p : Params) : Int := roundTwoPi (16 * 2 ^ 17) p.clockHz

end Sys2Proof.Machine
end

