-- ==== Sys2Proof/Machine/FilterStep.lean ====
section
/-! DEFINITION. The analog filter: its register writes, the routing and the per-cycle step (spec/43_filter.md rules R240-R248), and
the external RC filter that follows it (spec/44_output_stage.md rule R291). -/

namespace Sys2Proof.Machine

/-- `W_FC_LO` (rule R240). -/
def Filter.writeFcLo (d : Byte) (f : Filter) : Filter := { f with fc := fcWithLo f.fc d }

/-- `W_FC_HI` (rule R241). -/
def Filter.writeFcHi (d : Byte) (f : Filter) : Filter := { f with fc := fcWithHi f.fc d }

/-- `W_RES_FILT` (rule R242). -/
def Filter.writeResFilt (d : Byte) (f : Filter) : Filter := { f with res := hiNibble d, filt := loNibble d }

/-- `W_MODE_VOL` (rule R243). -/
def Filter.writeModeVol (d : Byte) (f : Filter) : Filter := { f with mode := hiNibble d, vol := loNibble d }

/-- The sums and counts of the routing: `Vi`, `nsum` into the filter and `Vo`, `nmix` past it (rules R245, R246). -/
structure Routed where
  vi : Int
  nsum : Nat
  vo : Int
  nmix : Nat
  deriving DecidableEq, Repr

/-- Send an input into the filter. -/
def Routed.toFilter (r : Routed) (x : Int) : Routed := { r with vi := r.vi + x, nsum := r.nsum + 1 }

/-- Send an input to the output mixer. -/
def Routed.toMixer (r : Routed) (x : Int) : Routed := { r with vo := r.vo + x, nmix := r.nmix + 1 }

/-- Route one input by its bit of `filt`. -/
def Routed.add (r : Routed) (filtered : Bool) (x : Int) : Routed := if filtered then r.toFilter x else r.toMixer x

/-- The routing of the three voices and the external input; 3OFF removes voice 3 from the direct path only (rule R245). -/
def Filter.route (f : Filter) (x1 x2 x3 xe : Int) : Routed :=
  let r := (Routed.mk 0 0 0 0).add (f.filt.getLsbD 0) x1
  let r := r.add (f.filt.getLsbD 1) x2
  let r :=
    if f.filt.getLsbD 2 then r.toFilter x3
    else if f.mode.getLsbD 3 then r
    else r.toMixer x3
  r.add (f.filt.getLsbD 3) xe

/-- The summer and the two integrators: the new `Vhp` feeds the first in the same step, the new `Vbp` the second (rule R247). -/
def Filter.integrate (p : Params) (m : ChipModel) (r : Routed) (f : Filter) : Filter :=
  let vhp := summer p m r.nsum (resGain p m f.res f.vbp + f.vlp + r.vi)
  let hp := integ p m f.fc f.istateHp vhp
  let bp := integ p m f.fc f.istateBp hp.2
  { f with vhp := vhp, vbp := hp.2, vlp := bp.2, istateHp := hp.1, istateBp := bp.1 }

/-- The output mixer's inputs: the direct path and the selected filter outputs LP, BP and HP (rules R246, R247). -/
def Filter.mix (r : Routed) (f : Filter) : Routed :=
  let r := if f.mode.getLsbD 0 then r.toMixer f.vlp else r
  let r := if f.mode.getLsbD 1 then r.toMixer f.vbp else r
  if f.mode.getLsbD 2 then r.toMixer f.vhp else r

/-- `FILTER_CLOCK(C, o1, o2, o3)`: the filter after the step, and its unsigned 16-bit output (rules R247, R248, R260). -/
def Filter.clock (p : Params) (m : ChipModel) (o1 o2 o3 xe : Int) (f : Filter) : Filter × Int :=
  let r := f.route (voiceScale p m o1) (voiceScale p m o2) (voiceScale p m o3) xe
  let f1 := f.integrate p m r
  let out := f1.mix r
  (f1, volGain p m f1.vol (mixer p m out.nmix out.vo))

/-- `EXT_CLOCK(C, f)`: the external filter after the step, and the output sample; the high-pass reads the low-pass value just
updated (rule R291). -/
def ExtFilter.clock (p : Params) (f : Int) (x : ExtFilter) : ExtFilter × Sample :=
  let vi := (f - 0x8000) * 2 ^ 11
  let elp := x.elp + asr (extWLp p * (vi - x.elp)) 7
  let ehp := x.ehp + asr (extWHp p * (elp - x.ehp)) 17
  (⟨elp, ehp⟩, BitVec.ofInt 16 (sat16 (asr (elp - ehp) 11)))

end Sys2Proof.Machine
end

