-- ==== Sys2Proof/Machine/Waveform.lean ====
section
/-! DEFINITION. The waveform generator: its register writes, clock step, output step, hard sync and the sync deadline
(spec/41_waveform.md rules R140-R165). -/

namespace Sys2Proof.Machine

/-! ## The noise LFSR -/

/-- `SHIFT(sr)`: one clock of the 23-bit noise LFSR (rule R149). -/
def noiseShift (sr : BitVec 24) : BitVec 24 :=
  ((sr <<< 1) ||| (BitVec.ofBool (sr.getLsbD 22 ^^ sr.getLsbD 17)).setWidth 24) &&& 0x7FFFFF#24

/-- The single bit `sr[from]` at position `to`. -/
def routeBit {n m : Nat} (x : BitVec n) (src dst : Nat) : BitVec m :=
  (BitVec.ofBool (x.getLsbD src)).setWidth m <<< dst

/-- `NOISE(sr)`: the 12-bit noise waveform (rule R150). -/
def noiseOf (sr : BitVec 24) : BitVec 12 :=
  routeBit sr 22 11 ||| routeBit sr 20 10 ||| routeBit sr 16 9 ||| routeBit sr 13 8 |||
    routeBit sr 11 7 ||| routeBit sr 7 6 ||| routeBit sr 4 5 ||| routeBit sr 2 4

/-- `WB_MASK(w)`: bits of `w` routed back to the taps they came from, every other LFSR bit kept (rule R158). -/
def wbMask (w : BitVec 12) : BitVec 24 :=
  (0x7FFFFF#24 &&& ~~~0x512894#24) |||
    (routeBit w 11 22 ||| routeBit w 10 20 ||| routeBit w 9 16 ||| routeBit w 8 13 |||
      routeBit w 7 11 ||| routeBit w 6 7 ||| routeBit w 5 4 ||| routeBit w 4 2)

/-- Write-back of the current output into the noise LFSR (rules R145, R158, R159). -/
def Wave.writeBack (v : Wave) : Wave :=
  { v with sr := v.sr &&& wbMask v.waveformOutput, noiseOutput := v.noiseOutput &&& v.waveformOutput }

/-! ## Register writes -/

/-- `W_FREQ_LO` (rule R140). -/
def Wave.writeFreqLo (d : Byte) (v : Wave) : Wave := { v with freq := freqWithLo v.freq d }

/-- `W_FREQ_HI` (rule R141). -/
def Wave.writeFreqHi (d : Byte) (v : Wave) : Wave := { v with freq := freqWithHi v.freq d }

/-- `W_PW_LO` (rule R142). -/
def Wave.writePwLo (d : Byte) (v : Wave) : Wave := { v with pw := pwWithLo v.pw d }

/-- `W_PW_HI` (rule R143). -/
def Wave.writePwHi (d : Byte) (v : Wave) : Wave := { v with pw := pwWithHi v.pw d }

/-- `TEST_RISE(V, wprev)`: write-back only when the selection before the write combined noise with another waveform (rule R145,
conflict C12). -/
def Wave.testRise (srr : BitVec 32) (wprev : BitVec 4) (v : Wave) : Wave :=
  let v := if noiseCombined wprev then v.writeBack else v
  { v with acc := 0, shiftPipeline := 0, srrCount := srr, pulseOutput := 0xFFF#12 }

/-- `TEST_FALL(V)`: one shift with the complement of bit 17 entering (rule R146). -/
def Wave.testFall (v : Wave) : Wave :=
  let sr := ((v.sr <<< 1) ||| (BitVec.ofBool (!v.sr.getLsbD 17)).setWidth 24) &&& 0x7FFFFF#24
  { v with sr := sr, noiseOutput := noiseOf sr }

/-- The selection part of the CONTROL write: the fields, and the masks and the floating TTL of a changed waveform (rule R144). -/
def Wave.select (ttl : BitVec 32) (d : Byte) (v : Wave) : Wave :=
  let w := hiNibble d
  let v1 := { v with waveform := w, test := d.getLsbD 3, ring := d.getLsbD 2, sync := d.getLsbD 1,
                     ringMsbMask := ringMask (d.getLsbD 2) w }
  if w = v.waveform then v1
  else { v1 with noNoise := noNoiseMask w, noPulse := noPulseMask w,
                 floatingTtl := if w = 0 then ttl else v1.floatingTtl }

/-- `W_CONTROL`, waveform half (rule R144), with `SRR_CYCLES` and `FLOAT_TTL` of the chip's model. -/
def Wave.writeControl (srr ttl : BitVec 32) (d : Byte) (v : Wave) : Wave :=
  let v1 := v.select ttl d
  if !v.test && d.getLsbD 3 then v1.testRise srr v.waveform
  else if v.test && !d.getLsbD 3 then v1.testFall
  else v1

/-! ## Clock step -/

/-- `WAVE_CLOCK` while the test bit is set (rule R147). -/
def Wave.clockTest (v : Wave) : Wave :=
  let v1 :=
    if v.srrCount = 0 then v
    else if v.srrCount = 1 then
      { v with srrCount := 0, sr := 0x7FFFFF#24, noiseOutput := noiseOf 0x7FFFFF#24 }
    else { v with srrCount := v.srrCount - 1 }
  { v1 with pulseOutput := 0xFFF#12, msbRising := false }

/-- The noise pipeline of the clock step: a bit-19 edge arms it, and the LFSR shifts on the second cycle after (rule R148). -/
def Wave.clockNoise (bit19Rose : Bool) (v : Wave) : Wave :=
  if bit19Rose then { v with shiftPipeline := 2 }
  else if v.shiftPipeline = 0 then v
  else if v.shiftPipeline = 1 then
    { v with shiftPipeline := 0, sr := noiseShift v.sr, noiseOutput := noiseOf (noiseShift v.sr) }
  else { v with shiftPipeline := v.shiftPipeline - 1 }

/-- `WAVE_CLOCK` while the test bit is clear (rule R148). -/
def Wave.clockRun (v : Wave) : Wave :=
  let acc := v.acc + v.freq.setWidth 24
  { v with acc := acc, msbRising := msbRose v.acc acc }.clockNoise (bitRose 19 v.acc acc)

/-- `WAVE_CLOCK(V)` (rules R147, R148). -/
def Wave.clock (v : Wave) : Wave := if v.test then v.clockTest else v.clockRun

/-! ## Output step -/

/-- The table index of a voice with the accumulator `srcAcc` of its ring source (rule R151). -/
def Wave.index (srcAcc : BitVec 24) (v : Wave) : BitVec 12 :=
  accHigh (v.acc ^^^ (~~~srcAcc &&& v.ringMsbMask))

/-- `(no_pulse | pulse_output) & (no_noise | noise_output)`: the pulse and noise gates of rules R154 and R155. -/
def Wave.gates (v : Wave) : BitVec 12 := (v.noPulse ||| v.pulseOutput) &&& (v.noNoise ||| v.noiseOutput)

/-- The DAC input of a selected waveform (rule R154). -/
def Wave.driven (base : BitVec 12) (v : Wave) : Wave := { v with waveformOutput := base &&& v.gates }

/-- The read-back latch: one output step late on a MOS8580 with triangle or sawtooth selected (rule R155). -/
def Wave.latchOsc3 (m : ChipModel) (base : BitVec 12) (v : Wave) : Wave :=
  if m = .mos8580 && v.waveform.extractLsb' 0 2 != 0 then
    { v with osc3 := v.triSawPipeline &&& v.gates, triSawPipeline := base }
  else { v with osc3 := v.waveformOutput }

/-- Write-back on the output step (rule R159). -/
def Wave.outputWriteBack (v : Wave) : Wave :=
  if noiseCombined v.waveform && !v.test && v.shiftPipeline != 1 then v.writeBack else v

/-- The floating DAC input of waveform 0 (rule R157). -/
def Wave.float (v : Wave) : Wave :=
  let v1 :=
    if v.floatingTtl = 0 then v
    else if v.floatingTtl = 1 then { v with floatingTtl := 0, waveformOutput := 0 }
    else { v with floatingTtl := v.floatingTtl - 1 }
  { v1 with osc3 := v1.waveformOutput }

/-- The pulse comparator at the end of every output step (rule R156). -/
def Wave.comparePulse (v : Wave) : Wave := { v with pulseOutput := pulseLevel v.acc v.pw }

/-- `WAVE_OUTPUT(i)`: the whole output step of a voice, given its ring source's accumulator (rule R160). -/
def Wave.output (p : Params) (m : ChipModel) (srcAcc : BitVec 24) (v : Wave) : Wave :=
  if v.waveform = 0 then v.float.comparePulse
  else
    let base := waveBase p m (waveSelect v.waveform) (v.index srcAcc)
    (((v.driven base).latchOsc3 m base).outputWriteBack).comparePulse

/-! ## Hard sync and the sync deadline -/

/-- Voice `i` is zeroed this cycle: its source's MSB rose and its sync bit is set, unless the source is itself being synced
(rules R162, R163). -/
def Chip.syncHit (c : Chip) (i : VoiceId) : Bool :=
  (c.voice i.src).wave.msbRising && (c.voice i).wave.sync &&
    !((c.voice i.src).wave.sync && (c.voice i.src.src).wave.msbRising)

/-- `SYNC(C)`: all conditions are read before any zeroing (rule R162). -/
def Chip.syncVoices (c : Chip) : Chip :=
  let zero (i : VoiceId) (v : Voice) : Voice :=
    if c.syncHit i then { v with wave := { v.wave with acc := 0 } } else v
  { c with voice1 := zero .v1 c.voice1, voice2 := zero .v2 c.voice2, voice3 := zero .v3 c.voice3 }

/-- The cycles until voice `i`'s MSB next rises, where `i` is the source of a synced voice and can rise at all (rule R165). -/
def Chip.syncCandidate (c : Chip) (i : VoiceId) : Option Nat :=
  let v := (c.voice i).wave
  if (c.voice i.dest).wave.sync && v.freq != 0 && !v.test then
    some ((0x7FFFFF#24 - v.acc).toNat / v.freq.toNat + 1)
  else none

/-- The least of the candidates, or 0xFFFFFFFF for none (rule R165). -/
def Chip.syncDeadline (c : Chip) : BitVec 32 :=
  let cands := [VoiceId.v1, .v2, .v3].filterMap c.syncCandidate
  BitVec.ofNat 32 (cands.foldl min 0xFFFFFFFF)

end Sys2Proof.Machine
end

