-- ==== Sys2Proof/Machine/ChipCycle.lean ====
section
/-! DEFINITION. One chip: the order of work inside a SID cycle, bus writes and reads, and the chip reset (spec/45_chip_io.md rules
R310-R330; spec/70_reset_and_hazards.md rules R381-R385). -/

namespace Sys2Proof.Machine

/-! ## One SID cycle (rule R311) -/

/-- Step 1: bus-value ageing (rule R323). -/
def Chip.ageBus (c : Chip) : Chip :=
  if c.busTtl = 0 then c
  else if c.busTtl = 1 then { c with busTtl := 0, busValue := 0 }
  else { c with busTtl := c.busTtl - 1 }

/-- Step 2: the three waveform clock steps (rules R147, R148). -/
def Chip.clockWaves (c : Chip) : Chip :=
  ((c.mapWave .v1 Wave.clock).mapWave .v2 Wave.clock).mapWave .v3 Wave.clock

/-- Step 3: the three envelope clock steps (rule R206). -/
def Chip.clockEnvs (c : Chip) : Chip :=
  ((c.mapEnv .v1 Env.clock).mapEnv .v2 Env.clock).mapEnv .v3 Env.clock

/-- `WAVE_OUTPUT(i)` on the chip (rule R160). -/
def Chip.outputWave (p : Params) (i : VoiceId) (c : Chip) : Chip :=
  c.mapWave i (Wave.output p c.model (c.voice i.src).wave.acc)

/-- Step 4, first part: the three output steps (rule R160). -/
def Chip.outputWaves (p : Params) (c : Chip) : Chip :=
  ((c.outputWave p .v1).outputWave p .v2).outputWave p .v3

/-- The output of voice `i` in a cycle, from this cycle's waveform output and envelope counter (rule R280). -/
def Chip.voiceOutput (p : Params) (c : Chip) (i : VoiceId) : Int :=
  voiceOut p c.model (c.voice i).wave.waveformOutput (c.voice i).env.envelopeCounter

/-- Step 4, second part: the voice outputs through the filter and the external filter; the cycle's sample (rules R247, R291). -/
def Chip.outputStage (p : Params) (c : Chip) : Chip × Sample :=
  let f := c.filter.clock p c.model (c.voiceOutput p .v1) (c.voiceOutput p .v2) (c.voiceOutput p .v3) c.extIn
  let x := c.ext.clock p f.2
  ({ c with filter := f.1, ext := x.1 }, x.2)

/-- `CHIP_CYCLE(C)`: the chip after one SID cycle, and the cycle's sample (rule R311). -/
def Chip.cycle (p : Params) (c : Chip) : Chip × Sample :=
  let o := (c.ageBus.clockWaves.clockEnvs.outputWaves p).outputStage p
  let c1 := o.1.syncVoices
  ({ c1 with cycles := c1.cycles + 1 }, o.2)

/-! ## Bus writes (rule R320) -/

/-- The CONTROL offset of a voice: $04, $0B, $12 (rule R21). -/
def controlVoice (off : Offset) : Option VoiceId :=
  if off = 0x04#5 then some .v1 else if off = 0x0B#5 then some .v2 else if off = 0x12#5 then some .v3 else none

/-- The mute gate: a muted voice sees the control byte forced to 0 (rule R321). -/
def Chip.gated (c : Chip) (off : Offset) (d : Byte) : Byte :=
  match controlVoice off with
  | some v => if c.muted v then 0x00#8 else d
  | none => d

/-- A register's own rule: the change it makes of a chip, given the parameters and the byte after the mute gate. -/
abbrev RegisterRule := Params → Byte → Chip → Chip

/-- `W_FREQ_LO(v)` (rule R140). -/
def regFreqLo (v : VoiceId) : RegisterRule := fun _ d c => c.mapWave v (Wave.writeFreqLo d)

/-- `W_FREQ_HI(v)` (rule R141). -/
def regFreqHi (v : VoiceId) : RegisterRule := fun _ d c => c.mapWave v (Wave.writeFreqHi d)

/-- `W_PW_LO(v)` (rule R142). -/
def regPwLo (v : VoiceId) : RegisterRule := fun _ d c => c.mapWave v (Wave.writePwLo d)

/-- `W_PW_HI(v)` (rule R143). -/
def regPwHi (v : VoiceId) : RegisterRule := fun _ d c => c.mapWave v (Wave.writePwHi d)

/-- `W_CONTROL(v)`: the waveform half, then the gate half with the same byte (rules R144, R203). -/
def regControl (v : VoiceId) : RegisterRule := fun p d c =>
  (c.mapWave v (Wave.writeControl (srrCycles p c.model) (floatTtl p c.model) d)).mapEnv v (Env.writeControl d)

/-- `W_AD(v)` (rule R204). -/
def regAd (v : VoiceId) : RegisterRule := fun _ d c => c.mapEnv v (Env.writeAd d)

/-- `W_SR(v)` (rule R205). -/
def regSr (v : VoiceId) : RegisterRule := fun _ d c => c.mapEnv v (Env.writeSr d)

/-- `W_FC_LO` (rule R240). -/
def regFcLo : RegisterRule := fun _ d c => { c with filter := c.filter.writeFcLo d }

/-- `W_FC_HI` (rule R241). -/
def regFcHi : RegisterRule := fun _ d c => { c with filter := c.filter.writeFcHi d }

/-- `W_RES_FILT` (rule R242). -/
def regResFilt : RegisterRule := fun _ d c => { c with filter := c.filter.writeResFilt d }

/-- `W_MODE_VOL` (rule R243). -/
def regModeVol : RegisterRule := fun _ d c => { c with filter := c.filter.writeModeVol d }

/-- `W_NONE`: the common part of the bus write only (rule R330). -/
def regNone : RegisterRule := fun _ _ c => c

/-- `BusWrite(C, off, d)` with the register's own rule `reg`: the bus keeps the byte as written, the register sees the gated byte,
and the sync deadline is recomputed (rules R165, R320). -/
def Chip.busWrite (p : Params) (off : Offset) (reg : RegisterRule) (d : Byte) (c : Chip) : Chip :=
  let c1 := reg p (c.gated off d) { c with busValue := d, busTtl := busTtlOf c.model }
  { c1 with nextVoiceSync := c1.syncDeadline }

/-- The case of rule R320 on the offset. -/
def registerAt (off : Offset) : RegisterRule :=
  match off.toNat with
  | 0x00 => regFreqLo .v1 | 0x01 => regFreqHi .v1 | 0x02 => regPwLo .v1 | 0x03 => regPwHi .v1
  | 0x04 => regControl .v1 | 0x05 => regAd .v1 | 0x06 => regSr .v1
  | 0x07 => regFreqLo .v2 | 0x08 => regFreqHi .v2 | 0x09 => regPwLo .v2 | 0x0A => regPwHi .v2
  | 0x0B => regControl .v2 | 0x0C => regAd .v2 | 0x0D => regSr .v2
  | 0x0E => regFreqLo .v3 | 0x0F => regFreqHi .v3 | 0x10 => regPwLo .v3 | 0x11 => regPwHi .v3
  | 0x12 => regControl .v3 | 0x13 => regAd .v3 | 0x14 => regSr .v3
  | 0x15 => regFcLo | 0x16 => regFcHi | 0x17 => regResFilt | 0x18 => regModeVol
  | _ => regNone

/-! ## Bus reads (rule R324) -/

/-- A read: the chip after it, and the byte it returns. -/
abbrev ReadRule := Chip → Chip × Byte

/-- `R_POTX` (rule R325). -/
def readPotX : ReadRule := fun c => (c, c.potX)

/-- `R_POTY` (rule R326). -/
def readPotY : ReadRule := fun c => (c, c.potY)

/-- `R_OSC3`: the upper 8 bits of voice 3's latch (rule R327). -/
def readOsc3 : ReadRule := fun c => (c, c.voice3.wave.osc3.extractLsb' 4 8)

/-- `R_ENV3`: voice 3's envelope latch (rule R328). -/
def readEnv3 : ReadRule := fun c => (c, c.voice3.env.env3)

/-- `bus_ttl >> 1` on a signed 32-bit number, and the value cleared when that leaves 0 (rule R329). -/
def Chip.halveBus (c : Chip) : Chip :=
  let ttl := c.busTtl.sshiftRight 1
  { c with busTtl := ttl, busValue := if ttl = 0 then 0x00#8 else c.busValue }

/-- `R_BUS`: the value before its own halving (rule R329). -/
def readBus : ReadRule := fun c => (c.halveBus, c.busValue)

/-- The case of rule R324 on the offset. -/
def readAt (off : Offset) : ReadRule :=
  match off.toNat with
  | 0x19 => readPotX
  | 0x1A => readPotY
  | 0x1B => readOsc3
  | 0x1C => readEnv3
  | _ => readBus

/-! ## Chip reset -/

/-- `CHIP_RESET`, waveform part; `acc` is kept (rule R381). -/
def Wave.chipReset (v : Wave) : Wave :=
  { acc := v.acc, freq := 0, pw := 0, waveform := 0, test := false, ring := false, sync := false,
    sr := 0x7FFFFF#24, shiftPipeline := 0, srrCount := 0, msbRising := false, ringMsbMask := 0,
    noNoise := 0xFFF#12, noPulse := 0xFFF#12, noiseOutput := noiseOf 0x7FFFFF#24, pulseOutput := 0xFFF#12,
    waveformOutput := 0, osc3 := 0, triSawPipeline := 0x555#12, floatingTtl := 0 }

/-- `CHIP_RESET`, envelope part; `envelope_counter` and `lfsr` are kept (rule R382). -/
def Env.chipReset (e : Env) : Env :=
  { lfsr := e.lfsr, rate := adsrRate 0, expCounter := 0, expPeriod := .p1, envelopeCounter := e.envelopeCounter,
    state := .release, nextState := .release, gate := false, statePipeline := 0, envelopePipeline := 0,
    exponentialPipeline := 0, attack := 0, decay := 0, release := 0, sustain := 0, counterEnabled := true,
    resetLfsr := true, env3 := 0 }

/-- `CHIP_RESET` of a voice. -/
def Voice.chipReset (v : Voice) : Voice := ⟨v.wave.chipReset, v.env.chipReset⟩

/-- `CHIP_RESET`, filter part, with `INTEG_INIT(model)` (rule R383). -/
def resetFilter (init : Integ) : Filter :=
  { fc := 0, res := 0, filt := 0, mode := 0, vol := 0, vhp := 0, vbp := 0, vlp := 0, istateHp := init, istateBp := init }

/-- `CHIP_RESET` (rules R381-R384); what it keeps is rule R386. -/
def Chip.chipReset (p : Params) (c : Chip) : Chip :=
  let c1 := { c with voice1 := c.voice1.chipReset, voice2 := c.voice2.chipReset, voice3 := c.voice3.chipReset,
                     filter := resetFilter (integInit p c.model), ext := ⟨0, 0⟩, busValue := 0, busTtl := 0 }
  { c1 with nextVoiceSync := c1.syncDeadline }

end Sys2Proof.Machine
end

