-- ==== Sys2Proof/Machine/Ops.lean ====
section
/-! DEFINITION. The named operations over the block: raising a fault, the absorbing fault state, reaching a chip, and the port
transactions and the SID cycle of a chip of the block (spec/60_exceptions.md rules R350, R359, R360; spec/45_chip_io.md rule
R300). -/

namespace Sys2Proof.Machine

/-- Put an output on the block's ports (rule R300). -/
def State.emit (s : State) (o : Output) : State := { s with outputs := o :: s.outputs }

/-- `raise Fault(kind, info)`: set `FAULTED` and change nothing else (rules R350, R360). There is no return from a fault: only
power-on leaves the state (rule R362). -/
def State.raise (s : State) (f : BlockFault) : State := { s with faulted := some f }

/-- An operation of the block: in the fault state it returns `FAULT` and changes nothing (rules R300, R350, R359). -/
def operation (s : State) (run : State → Out) : Out :=
  match s.faulted with
  | some _ => .next (s.emit .faultReturned)
  | none => run s

/-- The chip of an index, where the block has one. -/
def State.chip? (s : State) (c : ChipIndex) : Option Chip := s.chips[c]?

/-- Store chip `c`. -/
def State.setChip (s : State) (c : ChipIndex) (x : Chip) : State := { s with chips := s.chips.set c x }

/-- Set the platform's chip-select (rule R71). -/
def State.select (s : State) (c : ChipIndex) : State := { s with chipSel := c }

/-- One SID cycle of chip `i`, its sample put out (rules R310, R311); nothing where the block has no such chip. -/
def State.clockChip (s : State) (i : ChipIndex) : State :=
  match s.chip? i with
  | some c => (s.setChip i (c.cycle s.params).1).emit (.sample i (c.cycle s.params).2)
  | none => s

/-- `n` SID cycles of chip `i`. -/
def State.clockChipTimes (i : ChipIndex) : Nat → State → State
  | 0, s => s
  | n + 1, s => clockChipTimes i n (s.clockChip i)

/-- Run on the selected chip: a fault where the block has no such chip (rule R358). -/
def onSelected (s : State) (run : Chip → State) : Out :=
  match s.chip? s.chipSel with
  | some c => .next (run c)
  | none => .fault (.noSuchChip s.chipSel)

/-- A bus write to the selected chip with the register's own rule `reg` (rules R300, R320). -/
def portWrite (off : Offset) (reg : RegisterRule) (d : Byte) (s : State) : Out :=
  operation s fun s => onSelected s fun c => s.setChip s.chipSel (c.busWrite s.params off reg d)

/-- A bus read from the selected chip; the byte is put out (rules R300, R324). -/
def portRead (read : ReadRule) (s : State) : Out :=
  operation s fun s => onSelected s fun c => (s.setChip s.chipSel (read c).1).emit (.byte s.chipSel (read c).2)

/-- `CLOCK` of the selected chip (rules R300, R310). -/
def portClock (s : State) : Out :=
  operation s fun s => onSelected s fun _ => s.clockChip s.chipSel

/-- `RESET` of the selected chip (rules R300, R385). -/
def portReset (s : State) : Out :=
  operation s fun s => onSelected s fun c => s.setChip s.chipSel (c.chipReset s.params)

/-- The four cases of the port-word interpreter on the selected chip (rule R300), a write and a read by the offset's rule. -/
def runPort (op : PortOp) (s : State) : Out :=
  match op with
  | .busWrite off d => portWrite off (registerAt off) d s
  | .busRead off => portRead (readAt off) s
  | .clock => portClock s
  | .reset => portReset s

/-- An illegal port word: `IllegalPortWord`, after the check of the fault state (rules R95, R357, R359). -/
def illegalWord (w : PortWord) (s : State) : Out :=
  operation s fun s => .next (s.raise (.illegalPortWord w))

/-- `STEP(C, w)` of rule R300: the port word `w` addressed to chip `c`. -/
def portWord (c : ChipIndex) (w : PortWord) (s : State) : Out :=
  match decodePort w with
  | some op => runPort op (s.select c)
  | none => illegalWord w s

end Sys2Proof.Machine
end

