-- ==== Sys2Proof/Machine/ChipPorts.lean ====
section
/-! DEFINITION. The meanings of the other port transactions, one per row of the opcode table: filter writes, writes that reach no
register, reads, the SID cycle and the chip reset (spec/43_filter.md rules R240-R243; spec/45_chip_io.md rules R310, R325-R330;
spec/70_reset_and_hazards.md rule R385). -/

namespace Sys2Proof.Machine

/-- `W_FC_LO`, offset $15 (rule R240). -/
def execWFcLo (d : Byte) (s : State) : Out := portWrite 0x15#5 regFcLo d s

/-- `W_FC_HI`, offset $16 (rule R241). -/
def execWFcHi (d : Byte) (s : State) : Out := portWrite 0x16#5 regFcHi d s

/-- `W_RES_FILT`, offset $17 (rule R242). -/
def execWResFilt (d : Byte) (s : State) : Out := portWrite 0x17#5 regResFilt d s

/-- `W_MODE_VOL`, offset $18 (rule R243). -/
def execWModeVol (d : Byte) (s : State) : Out := portWrite 0x18#5 regModeVol d s

/-- `W_NONE`, offset $19 (rule R330). -/
def execWNone19 (d : Byte) (s : State) : Out := portWrite 0x19#5 regNone d s

/-- `W_NONE`, offsets $1A-$1B (rule R330). -/
def execWNone1A (o : BitVec 1) (d : Byte) (s : State) : Out := portWrite (0b1101#4 ++ o) regNone d s

/-- `W_NONE`, offsets $1C-$1F (rule R330). -/
def execWNone1C (o : BitVec 2) (d : Byte) (s : State) : Out := portWrite (0b111#3 ++ o) regNone d s

/-- `R_POTX`, offset $19 (rule R325). -/
def execRPotX (s : State) : Out := portRead readPotX s

/-- `R_POTY`, offset $1A (rule R326). -/
def execRPotY (s : State) : Out := portRead readPotY s

/-- `R_OSC3`, offset $1B (rule R327). -/
def execROsc3 (s : State) : Out := portRead readOsc3 s

/-- `R_ENV3`, offset $1C (rule R328). -/
def execREnv3 (s : State) : Out := portRead readEnv3 s

/-- `R_BUS`, offsets $00-$0F (rule R329): every offset reads the one bus value. -/
def execRBus00 (_ : BitVec 4) (s : State) : Out := portRead readBus s

/-- `R_BUS`, offsets $10-$17 (rule R329). -/
def execRBus10 (_ : BitVec 3) (s : State) : Out := portRead readBus s

/-- `R_BUS`, offset $18 (rule R329). -/
def execRBus18 (s : State) : Out := portRead readBus s

/-- `R_BUS`, offset $1D (rule R329). -/
def execRBus1D (s : State) : Out := portRead readBus s

/-- `R_BUS`, offsets $1E-$1F (rule R329). -/
def execRBus1E (_ : BitVec 1) (s : State) : Out := portRead readBus s

/-- `CLK`: one SID cycle of the selected chip (rules R310, R311). -/
def execClk (s : State) : Out := portClock s

/-- `RESET`: the chip reset of the selected chip (rule R385). -/
def execReset (s : State) : Out := portReset s

end Sys2Proof.Machine
end

