-- ==== Sys2Proof/Machine/HostInputs.lean ====
section
/-! DEFINITION. What the host does to the block besides operations: building it (spec/70_reset_and_hazards.md rule R380,
spec/60_exceptions.md rule R356) and driving its inputs (spec/45_chip_io.md rules R321, R325, R326; spec/43_filter.md rule R260;
spec/40_scheduler.md rule R121). -/

namespace Sys2Proof.Machine

/-! ## The checks of a construction (rule R356) -/

/-- Every `x` from 0 to `n - 1` satisfies `f`. -/
def allBelow (n : Nat) (f : Nat → Bool) : Bool := (List.range n).all f

/-- `f` at every integer from `-n` to `n - 1`. -/
def allWithin (n : Nat) (f : Int → Bool) : Bool := allBelow (2 * n) fun x => f ((x : Int) - n)

/-- `f` of both models. -/
def bothModels (f : ChipModel → Bool) : Bool := f .mos6581 && f .mos8580

/-- `WAVE_TABLE`: every entry of a combined selection has its low nibble 0 (rule R153). -/
def waveTableAccepted (p : Params) : Bool :=
  match p.waveTable with
  | .default => true
  | .given k => bothModels fun m => [3#3, 5#3, 6#3, 7#3].all fun sel => allBelow 4096 fun idx =>
      (Config.waveTable k m sel (BitVec.ofNat 12 idx)).extractLsb' 0 4 = 0#4

/-- The envelope DAC of a MOS8580 is strictly increasing (rule R282). That is all the model asks of it: what the rule's "linear" asks of a
given integer table is open (DESIGN CHOICE, log entry 33). -/
def envDacIncreasing (p : Params) : Bool :=
  allBelow 255 fun e => envDac p .mos8580 (BitVec.ofNat 8 e) < envDac p .mos8580 (BitVec.ofNat 8 (e + 1))

/-- The envelope DAC of a MOS6581 is "not monotonic" (rule R282), which the model reads as: it decreases somewhere. It does not ask that
the table also rises (DESIGN CHOICE, log entry 32). -/
def envDacFolds (p : Params) : Bool :=
  !allBelow 255 fun e => envDac p .mos6581 (BitVec.ofNat 8 e) ≤ envDac p .mos6581 (BitVec.ofNat 8 (e + 1))

/-- `ENV_DAC` has the properties of rule R282; the default has them (`Laws/Numerics.lean`). -/
def envDacAccepted (p : Params) : Bool :=
  match p.envDac with
  | .default => true
  | .given _ => envDacIncreasing p && envDacFolds p

/-- The 6581's `|RES_GAIN|` does not increase with `res`, at every 16-bit signed `Vbp` (rule R250). -/
def resGainFalls (p : Params) : Bool :=
  allBelow 15 fun r => allWithin 32768 fun x =>
    (resGain p .mos6581 (BitVec.ofNat 4 (r + 1)) x).natAbs ≤ (resGain p .mos6581 (BitVec.ofNat 4 r) x).natAbs

/-- `g` is `a * 2^((4 - r) / 8)` up to `t`, in eighth powers: `(g - t)^8 * 2^r ≤ a^8 * 2^4 ≤ (g + t)^8 * 2^r`. -/
def meetsEighthLaw (t a r g : Nat) : Bool :=
  decide ((g - t) ^ 8 * 2 ^ r ≤ a ^ 8 * 2 ^ 4) && decide (a ^ 8 * 2 ^ 4 ≤ (g + t) ^ 8 * 2 ^ r)

/-- The 8580's `|RES_GAIN|` is `|x| * 2^((4 - res) / 8)` up to the rounding `t` of its table, at every 16-bit signed `Vbp` (rule
R250). -/
def resGainLaw (p : Params) (t : Nat) : Bool :=
  allBelow 16 fun r => allWithin 32768 fun x => meetsEighthLaw t x.natAbs r (resGain p .mos8580 (BitVec.ofNat 4 r) x).natAbs

/-- `RES_GAIN` meets each model's constraint (rule R250, log entry 17); the 6581's default does (`Laws/Numerics.lean`). -/
def resGainAccepted (p : Params) : Bool :=
  match p.resGain with
  | .default => true
  | .given k => resGainFalls p && resGainLaw p (Config.resGainRounding k)

/-- `SUMMER`: 16-bit signed values over the five tables' entries, built from a decreasing op-amp transfer (rules R251, R254; log
entries 25, 28). -/
def summerAccepted (p : Params) : Bool :=
  match p.summer with
  | .default => true
  | .given k => Config.opAmpDecreasing k && bothModels fun m => allBelow 5 fun n => allWithin (6 * 2 ^ 16) fun x =>
      decide (-32768 ≤ Config.summer k m n x) && decide (Config.summer k m n x ≤ 32767)

/-- `MIXER`: indexes of the gain table over the eight tables' entries, built from a decreasing op-amp transfer (rules R252, R254; log
entries 25, 28). -/
def mixerAccepted (p : Params) : Bool :=
  match p.mixer with
  | .default => true
  | .given k => Config.opAmpDecreasing k && bothModels fun m => allBelow 8 fun n => allWithin (8 * 2 ^ 16) fun x =>
      decide (0 ≤ Config.mixer k m n x) && decide (Config.mixer k m n x ≤ 65535)

/-- `VOL_GAIN`: unsigned 16-bit values in all 16 rows of 65536 entries (rule R253). -/
def volGainAccepted (p : Params) : Bool :=
  match p.volGain with
  | .default => true
  | .given k => bothModels fun m => allBelow 16 fun vol => allBelow 65536 fun x =>
      decide (0 ≤ Config.volGain k m (BitVec.ofNat 4 vol) x) && decide (Config.volGain k m (BitVec.ofNat 4 vol) x ≤ 65535)

/-- `INTEG`: its op-amp reverse table is built from a decreasing transfer (rule R254; log entry 25). -/
def integAccepted (p : Params) : Bool :=
  match p.integ with
  | .default => true
  | .given k => Config.opAmpDecreasing k

/-- The parameter of this name is in its domain (rule R356). -/
def paramAccepted (a : PowerOnArgs) : ParamName → Bool
  | .nChips => decide (1 ≤ a.models.length) && decide (a.models.length ≤ maxChips)
  | .digiBoost => !a.digiBoost
  | .clockHz => a.params.clockHz != 0
  | .srrCycles => a.params.srrCycles6581 != 0 && a.params.srrCycles8580 != 0
  | .floatTtl => a.params.floatTtl6581 != 0 && a.params.floatTtl8580 != 0
  | .waveTable => waveTableAccepted a.params
  | .envDac => envDacAccepted a.params
  | .resGain => resGainAccepted a.params
  | .summer => summerAccepted a.params
  | .mixer => mixerAccepted a.params
  | .volGain => volGainAccepted a.params
  | .integ => integAccepted a.params

/-- The order of the checks, that of rule R356 (log entry 11). -/
def paramOrder : List ParamName :=
  [.nChips, .digiBoost, .clockHz, .srrCycles, .floatTtl, .waveTable] ++ [.envDac, .resGain, .summer, .mixer, .volGain, .integ]

/-- The first parameter that is out of its domain (rules R351, R356, log entry 11). -/
def powerOnRefusal (a : PowerOnArgs) : Option ParamName := paramOrder.find? fun name => !paramAccepted a name

/-- The block that `POWER_ON` builds from accepted arguments (rule R380). The trace still to come, the callbacks of the events'
owners and the outputs so far are outside the block and stay, but for the callbacks that cannot be written in the new block (rule
R358, log entry 12). -/
def State.built (a : PowerOnArgs) (s : State) : State :=
  { params := a.params
    chips := a.models.map fun m => Chip.powerOn m (integInit a.params m)
    time := 0
    queue := []
    nextSeq := 0
    faulted := none
    chipSel := 0
    input := s.input
    callbacks := s.callbacks.filter (callbackWellFormed a.models.length a.params.events)
    outputs := s.outputs }

/-- `POWER_ON(params)`: a refused construction reports `ConfigRefused` and leaves nothing behind (rules R356, R380). -/
def State.powerOn (a : PowerOnArgs) (s : State) : State :=
  match powerOnRefusal a with
  | some name => s.emit (.refused (.configRefused name))
  | none => s.built a

/-! ## Host inputs -/

/-- Drive an input of chip `c`; a chip index the block does not have reaches no chip. -/
def State.drive (c : ChipIndex) (f : Chip → Chip) (s : State) : State :=
  match s.chip? c with
  | some x => s.setChip c (f x)
  | none => s

/-- `mute(chip, voice, on)`: changing MUTE changes no other state by itself (rule R321). -/
def Chip.setMute (v : VoiceId) (on : Bool) (c : Chip) : Chip :=
  match v with
  | .v1 => { c with mute1 := on }
  | .v2 => { c with mute2 := on }
  | .v3 => { c with mute3 := on }

/-- The host drives an input (rule R7). -/
def State.driveInput (inp : HostInput) (s : State) : State :=
  match inp with
  | .potX c x => s.drive c fun chip => { chip with potX := x }
  | .potY c y => s.drive c fun chip => { chip with potY := y }
  | .mute c v on => s.drive c (Chip.setMute (VoiceId.ofIndex v) on)
  | .extIn c x => s.drive c fun chip => { chip with extIn := x }

/-- The owner of `e` supplies its next callback sequence; one that cannot be written in the block is none (rules R121, R358, log
entry 8). -/
def State.supply (e : EventId) (ops : List CallOp) (s : State) : State :=
  if callbackWellFormed s.chips.length s.params.events (e, ops) then { s with callbacks := s.callbacks ++ [(e, ops)] } else s

/-- The effect of a host event. -/
def State.host (ev : HostEvent) (s : State) : State :=
  match ev with
  | .drive inp => s.driveInput inp
  | .supplyCallback e ops => s.supply e ops
  | .powerOn a => s.powerOn a

end Sys2Proof.Machine
end

