-- ==== Sys2Proof/Machine/Scheduler.lean ====
section
/-! DEFINITION. The discrete-event scheduler: its queue, its calls and the running of callbacks (spec/40_scheduler.md rules
R110-R125). Each call here runs in a block that is not faulted; the meanings of the instructions add that check. -/

namespace Sys2Proof.Machine

/-! ## The queue (rules R111, R112) -/

/-- `x` comes before `y` in the order of the queue: by time, then by insertion number (rule R112). -/
def QueueEntry.before (x y : QueueEntry) : Bool :=
  x.time.toNat < y.time.toNat || (x.time == y.time && x.seq.toNat < y.seq.toNat)

/-- Insert an entry at its place in the order. -/
def queueInsert (x : QueueEntry) : List QueueEntry → List QueueEntry
  | [] => [x]
  | y :: ys => if x.before y then x :: y :: ys else y :: queueInsert x ys

/-- `Q \ {(e, _, _)}` (rule R116). -/
def queueRemove (e : EventId) (q : List QueueEntry) : List QueueEntry := q.filter fun x => x.event != e

/-- `(e, _, _) ∈ Q` (rule R113). -/
def pending (e : EventId) (q : List QueueEntry) : Bool := q.any fun x => x.event == e

/-! ## The calls -/

/-- Run an operation on the event `e`: a fault where the block's `EVENTS` does not hold it (rule R358). -/
def onEvent (e : EventId) (run : State → State) (s : State) : Out :=
  if e ∈ s.params.events then .next (run s) else .fault (.noSuchEvent e)

/-- The target time of a SCHEDULE: `2 * (cycle(T) + delay) + ph` (rule R113). -/
def scheduleTime (t : BitVec 64) (delay : Nat) (ph : Phase) : Nat := 2 * (cycleOf t + delay) + phaseBit ph

/-- `SCHEDULE(e, delay, ph)`, its checks in the order of rule R359 (rules R113-R115, R124). -/
def State.schedule (e : EventId) (delay : Nat) (ph : Phase) (s : State) : State :=
  let t := scheduleTime s.time delay ph
  if 2 ^ 64 ≤ t then s.raise (.timeOverflow t)
  else if t < s.time.toNat then s.raise (.scheduleInPast e t)
  else if pending e s.queue then s.raise (.schedulePending e)
  else { s with queue := queueInsert ⟨e, BitVec.ofNat 64 t, s.nextSeq⟩ s.queue, nextSeq := s.nextSeq + 1 }

/-- `CANCEL(e)` (rule R116). -/
def State.cancel (e : EventId) (s : State) : State := { s with queue := queueRemove e s.queue }

/-- `GET_TIME` (rule R120). -/
def State.getTime (s : State) : State := s.emit (.time (cycleOf s.time) (phaseOf s.time))

/-- The SID cycles that have ended by time `T`: `(T + 1) >> 1` (rule R125). -/
def cyclesDue (t : BitVec 64) : Nat := (t.toNat + 1) / 2

/-- `CATCHUP(c)`: clock chip `c` until it has run every cycle that has ended by `T` (rule R125). -/
def State.catchup (c : ChipIndex) (s : State) : Out :=
  match s.chip? c with
  | some x => .next (s.clockChipTimes c (cyclesDue s.time - x.cycles.toNat))
  | none => .fault (.noSuchChip c)

/-- `time_ms()`: elapsed virtual milliseconds (rule R120, decision D47). -/
def State.timeMs (s : State) : Nat := cycleOf s.time * 1000 / s.params.clockHz

/-! ## Callbacks (rule R121) -/

/-- One operation of a callback. -/
def runCallOp (op : CallOp) (s : State) : Out :=
  match op with
  | .port c w => portWord c w s
  | .schedule e delay ph => onEvent e (State.schedule e delay ph) s
  | .cancel e => onEvent e (State.cancel e) s
  | .getTime => .next s.getTime
  | .catchup c => s.catchup c
  | .drive inp => .next (s.driveInput inp)

/-- A callback runs to its end, or to the first operation that raises a fault: the part before keeps its effects (rule R359). -/
def runCallback : List CallOp → State → Out
  | [], s => .next s
  | op :: ops, s =>
    match runCallOp op s with
    | .next s' => match s'.faulted with
      | some _ => .next s'
      | none => runCallback ops s'
    | .fault f => .fault f
    | .refused r => .refused r

/-- The oldest callback sequence supplied for `e`, and the supply without it; the empty sequence where none is supplied (log
entry 8). -/
def takeCallback (e : EventId) : List (EventId × List CallOp) → List CallOp × List (EventId × List CallOp)
  | [] => ([], [])
  | (e', ops) :: rest =>
    if e' = e then (ops, rest) else ((takeCallback e rest).1, (e', ops) :: (takeCallback e rest).2)

/-- Dispatch the entry `x`, the head of a queue whose rest is `rest`: detach it, advance `T` to its time, run its callback (rule
R117). -/
def State.dispatchEntry (x : QueueEntry) (rest : List QueueEntry) (s : State) : Out :=
  let cb := takeCallback x.event s.callbacks
  runCallback cb.1 { s with queue := rest, time := x.time, callbacks := cb.2 }

/-- `DISPATCH`: the event's identity is returned when its callback has ended without a fault, NONE for an empty queue (rule
R117). -/
def State.dispatch (s : State) : Out :=
  match s.queue with
  | [] => .next (s.emit (.dispatched none))
  | x :: rest =>
    match s.dispatchEntry x rest with
    | .next s' => match s'.faulted with
      | some _ => .next s'
      | none => .next (s'.emit (.dispatched (some x.event)))
    | .fault f => .fault f
    | .refused r => .refused r

/-- The most dispatches that can still happen: each takes one entry off the queue, and each callback operation can add one. -/
def State.dispatchBound (s : State) : Nat :=
  s.queue.length + (s.callbacks.map fun cb => cb.2.length).sum

/-- The loop of `RUN_UNTIL`: dispatch every entry due by `target`, then set `T` to it; a fault in a callback ends the loop there
(rules R118, R359). The first argument bounds the dispatches. -/
def runLoop (target : Nat) : Nat → State → Out
  | 0, s => .next { s with time := BitVec.ofNat 64 target }
  | n + 1, s =>
    match s.queue with
    | [] => .next { s with time := BitVec.ofNat 64 target }
    | x :: rest =>
      if target < x.time.toNat then .next { s with time := BitVec.ofNat 64 target }
      else match s.dispatchEntry x rest with
        | .next s' => match s'.faulted with
          | some _ => .next s'
          | none => runLoop target n s'
        | .fault f => .fault f
        | .refused r => .refused r

/-- `RUN_UNTIL(target)` (rules R118, R119, R124). -/
def State.runUntil (target : Nat) (s : State) : Out :=
  if 2 ^ 64 ≤ target then .next (s.raise (.timeOverflow target))
  else if target < s.time.toNat then .next (s.raise (.runUntilPast target))
  else runLoop target s.dispatchBound s

end Sys2Proof.Machine
end

