-- ==== Sys2Proof/Machine/SchedulerCalls.lean ====
section
/-! DEFINITION. The meanings of the scheduler calls, one per row of the opcode table (spec/40_scheduler.md rules R113-R125); each is
an operation of the block, so it returns `FAULT` in the fault state (spec/60_exceptions.md rule R350). -/

namespace Sys2Proof.Machine

/-- `SCHEDULE(e, delay, ph)` (rule R113). -/
def execSchedule (e : EventId) (delay : Nat) (ph : Phase) (s : State) : Out :=
  operation s (onEvent e (State.schedule e delay ph))

/-- `CANCEL(e)` (rule R116). -/
def execCancel (e : EventId) (s : State) : Out := operation s (onEvent e (State.cancel e))

/-- `DISPATCH` (rule R117). -/
def execDispatch (s : State) : Out := operation s State.dispatch

/-- `RUN_UNTIL(target)` (rule R118). -/
def execRunUntil (target : Nat) (s : State) : Out := operation s (State.runUntil target)

/-- `GET_TIME` (rule R120). -/
def execGetTime (s : State) : Out := operation s fun s => .next s.getTime

/-- `CATCHUP(c)` (rule R125). -/
def execCatchup (c : ChipIndex) (s : State) : Out := operation s (State.catchup c)

end Sys2Proof.Machine
end

