-- ==== Sys2Proof/Machine/VoiceWrites.lean ====
section
/-! DEFINITION. The meanings of the bus writes to the voices, one per row of the opcode table (spec/41_waveform.md rules R140-R146;
spec/42_envelope.md rules R203-R205). -/

namespace Sys2Proof.Machine

/-- `W_FREQ_LO` of voice 1, offset $00 (rule R140). -/
def execWFreqLo1 (d : Byte) (s : State) : Out := portWrite 0x00#5 (regFreqLo .v1) d s

/-- `W_FREQ_HI` of voice 1, offset $01 (rule R141). -/
def execWFreqHi1 (d : Byte) (s : State) : Out := portWrite 0x01#5 (regFreqHi .v1) d s

/-- `W_PW_LO` of voice 1, offset $02 (rule R142). -/
def execWPwLo1 (d : Byte) (s : State) : Out := portWrite 0x02#5 (regPwLo .v1) d s

/-- `W_PW_HI` of voice 1, offset $03 (rule R143). -/
def execWPwHi1 (d : Byte) (s : State) : Out := portWrite 0x03#5 (regPwHi .v1) d s

/-- `W_CONTROL` of voice 1, offset $04 (rules R144 and R203). -/
def execWControl1 (d : Byte) (s : State) : Out := portWrite 0x04#5 (regControl .v1) d s

/-- `W_AD` of voice 1, offset $05 (rule R204). -/
def execWAd1 (d : Byte) (s : State) : Out := portWrite 0x05#5 (regAd .v1) d s

/-- `W_SR` of voice 1, offset $06 (rule R205). -/
def execWSr1 (d : Byte) (s : State) : Out := portWrite 0x06#5 (regSr .v1) d s

/-- `W_FREQ_LO` of voice 2, offset $07 (rule R140). -/
def execWFreqLo2 (d : Byte) (s : State) : Out := portWrite 0x07#5 (regFreqLo .v2) d s

/-- `W_FREQ_HI` of voice 2, offset $08 (rule R141). -/
def execWFreqHi2 (d : Byte) (s : State) : Out := portWrite 0x08#5 (regFreqHi .v2) d s

/-- `W_PW_LO` of voice 2, offset $09 (rule R142). -/
def execWPwLo2 (d : Byte) (s : State) : Out := portWrite 0x09#5 (regPwLo .v2) d s

/-- `W_PW_HI` of voice 2, offset $0A (rule R143). -/
def execWPwHi2 (d : Byte) (s : State) : Out := portWrite 0x0A#5 (regPwHi .v2) d s

/-- `W_CONTROL` of voice 2, offset $0B (rules R144 and R203). -/
def execWControl2 (d : Byte) (s : State) : Out := portWrite 0x0B#5 (regControl .v2) d s

/-- `W_AD` of voice 2, offset $0C (rule R204). -/
def execWAd2 (d : Byte) (s : State) : Out := portWrite 0x0C#5 (regAd .v2) d s

/-- `W_SR` of voice 2, offset $0D (rule R205). -/
def execWSr2 (d : Byte) (s : State) : Out := portWrite 0x0D#5 (regSr .v2) d s

/-- `W_FREQ_LO` of voice 3, offset $0E (rule R140). -/
def execWFreqLo3 (d : Byte) (s : State) : Out := portWrite 0x0E#5 (regFreqLo .v3) d s

/-- `W_FREQ_HI` of voice 3, offset $0F (rule R141). -/
def execWFreqHi3 (d : Byte) (s : State) : Out := portWrite 0x0F#5 (regFreqHi .v3) d s

/-- `W_PW_LO` of voice 3, offset $10 (rule R142). -/
def execWPwLo3 (d : Byte) (s : State) : Out := portWrite 0x10#5 (regPwLo .v3) d s

/-- `W_PW_HI` of voice 3, offset $11 (rule R143). -/
def execWPwHi3 (d : Byte) (s : State) : Out := portWrite 0x11#5 (regPwHi .v3) d s

/-- `W_CONTROL` of voice 3, offset $12 (rules R144 and R203). -/
def execWControl3 (d : Byte) (s : State) : Out := portWrite 0x12#5 (regControl .v3) d s

/-- `W_AD` of voice 3, offset $13 (rule R204). -/
def execWAd3 (d : Byte) (s : State) : Out := portWrite 0x13#5 (regAd .v3) d s

/-- `W_SR` of voice 3, offset $14 (rule R205). -/
def execWSr3 (d : Byte) (s : State) : Out := portWrite 0x14#5 (regSr .v3) d s

end Sys2Proof.Machine
end

