-- ==== Sys2Proof/Machine/Dispatch.lean ====
section
/-! DEFINITION. The dispatch: one arm per constructor of `Instr`, each one call of the instruction's meaning. -/

namespace Sys2Proof.Machine

def exec (i : Instr) (s : State) : Host.Outcome State Fault Refusal :=
  match i with
  | .wFreqLo1 d => Sys2Proof.Machine.execWFreqLo1 d s
  | .wFreqHi1 d => Sys2Proof.Machine.execWFreqHi1 d s
  | .wPwLo1 d => Sys2Proof.Machine.execWPwLo1 d s
  | .wPwHi1 d => Sys2Proof.Machine.execWPwHi1 d s
  | .wControl1 d => Sys2Proof.Machine.execWControl1 d s
  | .wAd1 d => Sys2Proof.Machine.execWAd1 d s
  | .wSr1 d => Sys2Proof.Machine.execWSr1 d s
  | .wFreqLo2 d => Sys2Proof.Machine.execWFreqLo2 d s
  | .wFreqHi2 d => Sys2Proof.Machine.execWFreqHi2 d s
  | .wPwLo2 d => Sys2Proof.Machine.execWPwLo2 d s
  | .wPwHi2 d => Sys2Proof.Machine.execWPwHi2 d s
  | .wControl2 d => Sys2Proof.Machine.execWControl2 d s
  | .wAd2 d => Sys2Proof.Machine.execWAd2 d s
  | .wSr2 d => Sys2Proof.Machine.execWSr2 d s
  | .wFreqLo3 d => Sys2Proof.Machine.execWFreqLo3 d s
  | .wFreqHi3 d => Sys2Proof.Machine.execWFreqHi3 d s
  | .wPwLo3 d => Sys2Proof.Machine.execWPwLo3 d s
  | .wPwHi3 d => Sys2Proof.Machine.execWPwHi3 d s
  | .wControl3 d => Sys2Proof.Machine.execWControl3 d s
  | .wAd3 d => Sys2Proof.Machine.execWAd3 d s
  | .wSr3 d => Sys2Proof.Machine.execWSr3 d s
  | .wFcLo d => Sys2Proof.Machine.execWFcLo d s
  | .wFcHi d => Sys2Proof.Machine.execWFcHi d s
  | .wResFilt d => Sys2Proof.Machine.execWResFilt d s
  | .wModeVol d => Sys2Proof.Machine.execWModeVol d s
  | .wNone19 d => Sys2Proof.Machine.execWNone19 d s
  | .wNone1A o d => Sys2Proof.Machine.execWNone1A o d s
  | .wNone1C o d => Sys2Proof.Machine.execWNone1C o d s
  | .rPotX => Sys2Proof.Machine.execRPotX s
  | .rPotY => Sys2Proof.Machine.execRPotY s
  | .rOsc3 => Sys2Proof.Machine.execROsc3 s
  | .rEnv3 => Sys2Proof.Machine.execREnv3 s
  | .rBus00 o => Sys2Proof.Machine.execRBus00 o s
  | .rBus10 o => Sys2Proof.Machine.execRBus10 o s
  | .rBus18 => Sys2Proof.Machine.execRBus18 s
  | .rBus1D => Sys2Proof.Machine.execRBus1D s
  | .rBus1E o => Sys2Proof.Machine.execRBus1E o s
  | .clk => Sys2Proof.Machine.execClk s
  | .reset => Sys2Proof.Machine.execReset s
  | .schedule e delay ph => Sys2Proof.Machine.execSchedule e delay ph s
  | .cancel e => Sys2Proof.Machine.execCancel e s
  | .dispatch => Sys2Proof.Machine.execDispatch s
  | .runUntil target => Sys2Proof.Machine.execRunUntil target s
  | .getTime => Sys2Proof.Machine.execGetTime s
  | .catchup c => Sys2Proof.Machine.execCatchup c s

end Sys2Proof.Machine
end

