-- ==== Sys2Proof/Machine/Step.lean ====
section
/-! DEFINITION. One step of the block: the next input of its trace (spec/45_chip_io.md rule R300; spec/20_memory.md rule R79). The
block fetches nothing (rule R22), so the trace stands where another machine has its program (log entry 1). -/

namespace Sys2Proof.Machine

/-- The next input has its effect: a port word runs on the chip it is addressed to, a scheduler call runs, a host event happens.
With no input left the block stands still (rule R369, log entry 1). -/
def step (s : State) : Host.Outcome State Fault Refusal :=
  match s.input with
  | [] => .next s
  | .host ev :: rest => .next ({ s with input := rest }.host ev)
  | .call a :: rest => exec a.instr { s with input := rest }
  | .port c w :: rest =>
    match decode w with
    | some i => exec i ({ s with input := rest }.select c)
    | none => illegalWord w { s with input := rest }

/-- Place a port word as the next input, addressed to the chip the platform has selected, so that the very next step runs it. -/
def State.withFetchWord (s : State) (_nbits w : Nat) : State :=
  { s with input := .port s.chipSel (BitVec.ofNat 16 w) :: s.input }

end Sys2Proof.Machine
end

