-- ==== Sys2Proof/Safety.lean ====
section
/-! DEFINITION. The terms claims are stated in: the invariant of the block (spec/10_state.md rules R24, R26; spec/43_filter.md rule
R259; spec/45_chip_io.md rule R323; spec/40_scheduler.md rules R110-R112), the form of "the operation runs on the selected chip",
what an operation leaves alone, and the instructions of one register over the voices. -/

namespace Sys2Proof.Machine

/-! ## The invariant -/

/-- A waveform generator as rule R24 has it, its derived masks and its noise output in step with what they derive from (rules R144,
R150, R164), and its accumulator held at 0 by the test bit (rule R145). -/
structure Wave.Inv (v : Wave) : Prop where
  sr_23_bits : v.sr.getLsbD 23 = false
  noise_of_sr : v.noiseOutput = noiseOf v.sr
  shift_pipeline : v.shiftPipeline ≠ 3
  pulse_level : v.pulseOutput = 0x000#12 ∨ v.pulseOutput = 0xFFF#12
  no_noise : v.noNoise = noNoiseMask v.waveform
  no_pulse : v.noPulse = noPulseMask v.waveform
  ring_mask : v.ringMsbMask = ringMask v.ring v.waveform
  test_holds : v.test = true → v.acc = 0

/-- An envelope generator as rule R26 has it, its sustain level in extended form (rule R202), its pipelines in their ranges (rules
R203, R206), and frozen only at 0 (rule R210). -/
structure Env.Inv (e : Env) : Prop where
  lfsr_nonzero : e.lfsr ≠ 0
  rate_in_table : e.rate ∈ adsrTable
  sustain_extended : hiNibble e.sustain = loNibble e.sustain
  frozen_at_zero : e.counterEnabled = false → e.envelopeCounter = 0
  state_pipeline : e.statePipeline ≤ 3
  envelope_pipeline : e.envelopePipeline ≤ 4
  exponential_pipeline : e.exponentialPipeline ≤ 2

/-- A 16-bit signed value (rule R259). -/
def Signed16 (x : Int) : Prop := -32768 ≤ x ∧ x ≤ 32767

/-- A filter's node voltages are 16-bit signed (rule R259). -/
structure Filter.Inv (f : Filter) : Prop where
  vhp : Signed16 f.vhp
  vbp : Signed16 f.vbp
  vlp : Signed16 f.vlp

/-- A voice's generators meet their invariants. -/
structure Voice.Inv (v : Voice) : Prop where
  wave : v.wave.Inv
  env : v.env.Inv

/-- A chip meets its parts' invariants; the bus value lives at most `BUS_TTL` cycles, and is 0 when its life is over (rules R322,
R323, R329). -/
structure Chip.Inv (c : Chip) : Prop where
  voice : ∀ v, (c.voice v).Inv
  filter : c.filter.Inv
  bus_ttl : c.busTtl ≤ busTtlOf c.model
  bus_decayed : c.busTtl = 0 → c.busValue = 0

/-- The queue is listed in its order, holds at most one entry per event, and holds nothing before the current time (rules R111,
R112, R114). -/
structure QueueInv (now : BitVec 64) (q : List QueueEntry) : Prop where
  ordered : q.Pairwise fun x y => y.before x = false
  one_per_event : (q.map fun x => x.event).Nodup
  not_past : ∀ x ∈ q, now ≤ x.time

/-- Every supplied callback sequence can be written in the block: its event and the chips and events of its operations are the block's
(rule R358). -/
def callbacksWellFormed (s : State) : Prop := ∀ cb ∈ s.callbacks, callbackWellFormed s.chips.length s.params.events cb = true

/-- The operations of the supplied callback sequences reach only chips and events of the block, whatever event a sequence is for. -/
def callbacksReach (s : State) : Prop :=
  ∀ cb ∈ s.callbacks, ∀ op ∈ cb.2, op.wellFormed s.chips.length s.params.events = true

/-- The invariant of the block: 1 to 3 chips (rule R335), each meeting its own, the queue's, and every pending event and every supplied
callback sequence of the block's own types (rules R111, R358). -/
structure State.Inv (s : State) : Prop where
  some_chip : 1 ≤ s.chips.length
  at_most_three : s.chips.length ≤ maxChips
  chip : ∀ c ∈ s.chips, c.Inv
  queue : QueueInv s.time s.queue
  events : ∀ x ∈ s.queue, x.event ∈ s.params.events
  callbacks : callbacksWellFormed s

/-! ## Running on the selected chip -/

/-- The block is not faulted and `c` is the chip the platform has selected: the condition under which a port transaction executes
(rules R300, R358). -/
structure Ready (s : State) (c : Chip) : Prop where
  no_fault : s.faulted = none
  selected : s.chips[s.chipSel]? = some c

/-- The block with the selected chip replaced by `c`, and nothing else changed. -/
def withSelected (s : State) (c : Chip) : State := { s with chips := s.chips.set s.chipSel c }

/-- The same chip but for its voices, filter and bus: what no bus write changes (rules R320, R386). -/
structure ChipFrame (c c' : Chip) : Prop where
  model : c'.model = c.model
  ext : c'.ext = c.ext
  cycles : c'.cycles = c.cycles
  pot_x : c'.potX = c.potX
  pot_y : c'.potY = c.potY
  mute : ∀ v, c'.muted v = c.muted v
  ext_in : c'.extIn = c.extIn

/-- The common part of a bus write of `d`: the bus value, its life, and the recomputed sync deadline (rules R165, R320, R322). -/
structure BusLoaded (d : Byte) (c c' : Chip) : Prop where
  frame : ChipFrame c c'
  value : c'.busValue = d
  ttl : c'.busTtl = if c.model = .mos6581 then 0x01D00#32 else 0xA2000#32
  deadline : c'.nextVoiceSync = c'.syncDeadline

/-- A bus write of `d` that reaches voice `v` alone and leaves the voice as `new`. -/
structure VoiceWritten (d : Byte) (v : VoiceId) (new : Voice) (c c' : Chip) : Prop where
  bus : BusLoaded d c c'
  voice : c'.voice v = new
  others : ∀ u, u ≠ v → c'.voice u = c.voice u
  filter : c'.filter = c.filter

/-- The byte a CONTROL write delivers to voice `v`: 0 to a muted voice (rule R321). -/
def delivered (c : Chip) (v : VoiceId) (d : Byte) : Byte := if c.muted v then 0x00#8 else d

/-- The waveform generator after the selection part of a CONTROL write of the byte `b` (rule R144): the control fields, the ring mask,
and for a changed waveform its masks and, where it is 0, the floating TTL; every other field as it was. -/
def controlSelected (p : Params) (m : ChipModel) (b : Byte) (old : Wave) : Wave :=
  let w := b.extractLsb' 4 4
  { old with
    waveform := w
    test := b.getLsbD 3
    ring := b.getLsbD 2
    sync := b.getLsbD 1
    ringMsbMask := if b.getLsbD 2 = true ∧ w.getLsbD 1 = false then 0x800000#24 else 0#24
    noNoise := if w = old.waveform then old.noNoise else if w.getLsbD 3 = true then 0x000#12 else 0xFFF#12
    noPulse := if w = old.waveform then old.noPulse else if w.getLsbD 2 = true then 0x000#12 else 0xFFF#12
    floatingTtl :=
      if w ≠ old.waveform ∧ w = 0 then (if m = .mos6581 then p.floatTtl6581 else p.floatTtl8580) else old.floatingTtl }

/-- Everything a chip holds is the same but for its bus value and the bus value's life (rules R324, R329). -/
structure SameButBus (c c' : Chip) : Prop where
  frame : ChipFrame c c'
  voices : ∀ v, c'.voice v = c.voice v
  filter : c'.filter = c.filter
  deadline : c'.nextVoiceSync = c.nextVoiceSync

/-! ## The domains of the parameters -/

/-- The parameter of this name is in its domain (rule R356). -/
def ParamInDomain (a : PowerOnArgs) : ParamName → Prop
  | .nChips => 1 ≤ a.models.length ∧ a.models.length ≤ 3
  | .digiBoost => a.digiBoost = false
  | .clockHz => a.params.clockHz ≠ 0
  | .srrCycles => a.params.srrCycles6581 ≠ 0 ∧ a.params.srrCycles8580 ≠ 0
  | .floatTtl => a.params.floatTtl6581 ≠ 0 ∧ a.params.floatTtl8580 ≠ 0
  | .waveTable => ∀ k, a.params.waveTable = .given k → ∀ (m : ChipModel) (idx : BitVec 12), ∀ sel ∈ [3#3, 5#3, 6#3, 7#3],
      (Config.waveTable k m sel idx).extractLsb' 0 4 = 0#4
  | .envDac => ∀ k, a.params.envDac = .given k →
      (∀ e : BitVec 8, e ≠ 0xFF#8 → Config.envDac k .mos8580 e < Config.envDac k .mos8580 (e + 1)) ∧
      (∃ e : BitVec 8, e ≠ 0xFF#8 ∧ Config.envDac k .mos6581 (e + 1) < Config.envDac k .mos6581 e)
  | .resGain => ∀ k, a.params.resGain = .given k → ∀ x, Signed16 x →
      (∀ r : BitVec 4, r ≠ 15#4 → (Config.resGain k .mos6581 (r + 1) x).natAbs ≤ (Config.resGain k .mos6581 r x).natAbs) ∧
      (∀ r : BitVec 4,
        let g := (Config.resGain k .mos8580 r x).natAbs
        let t := Config.resGainRounding k
        (g - t) ^ 8 * 2 ^ r.toNat ≤ x.natAbs ^ 8 * 2 ^ 4 ∧ x.natAbs ^ 8 * 2 ^ 4 ≤ (g + t) ^ 8 * 2 ^ r.toNat)
  | .summer => ∀ k, a.params.summer = .given k → Config.opAmpDecreasing k = true ∧
      ∀ (m : ChipModel) (n : Nat) (x : Int), n < 5 → -(6 * 2 ^ 16) ≤ x → x < 6 * 2 ^ 16 → Signed16 (Config.summer k m n x)
  | .mixer => ∀ k, a.params.mixer = .given k → Config.opAmpDecreasing k = true ∧
      ∀ (m : ChipModel) (n : Nat) (x : Int), n < 8 → -(8 * 2 ^ 16) ≤ x → x < 8 * 2 ^ 16 →
        0 ≤ Config.mixer k m n x ∧ Config.mixer k m n x ≤ 65535
  | .volGain => ∀ k, a.params.volGain = .given k → ∀ (m : ChipModel) (vol : BitVec 4) (x : Int), 0 ≤ x → x ≤ 65535 →
      0 ≤ Config.volGain k m vol x ∧ Config.volGain k m vol x ≤ 65535
  | .integ => ∀ k, a.params.integ = .given k → Config.opAmpDecreasing k = true

/-! ## The instructions of one register over the three voices -/

/-- `W_FREQ_LO(v)`. -/
def freqLoOf : VoiceId → Byte → Instr
  | .v1 => .wFreqLo1
  | .v2 => .wFreqLo2
  | .v3 => .wFreqLo3

/-- `W_FREQ_HI(v)`. -/
def freqHiOf : VoiceId → Byte → Instr
  | .v1 => .wFreqHi1
  | .v2 => .wFreqHi2
  | .v3 => .wFreqHi3

/-- `W_PW_LO(v)`. -/
def pwLoOf : VoiceId → Byte → Instr
  | .v1 => .wPwLo1
  | .v2 => .wPwLo2
  | .v3 => .wPwLo3

/-- `W_PW_HI(v)`. -/
def pwHiOf : VoiceId → Byte → Instr
  | .v1 => .wPwHi1
  | .v2 => .wPwHi2
  | .v3 => .wPwHi3

/-- `W_CONTROL(v)`. -/
def controlOf : VoiceId → Byte → Instr
  | .v1 => .wControl1
  | .v2 => .wControl2
  | .v3 => .wControl3

/-- `W_AD(v)`. -/
def adOf : VoiceId → Byte → Instr
  | .v1 => .wAd1
  | .v2 => .wAd2
  | .v3 => .wAd3

/-- `W_SR(v)`. -/
def srOf : VoiceId → Byte → Instr
  | .v1 => .wSr1
  | .v2 => .wSr2
  | .v3 => .wSr3

/-- The register `off mod 7` of voice `off / 7` (rule R94). -/
def voiceRegister (v : VoiceId) (r : Fin 7) (d : Byte) : Instr :=
  match r with
  | 0 => freqLoOf v d
  | 1 => freqHiOf v d
  | 2 => pwLoOf v d
  | 3 => pwHiOf v d
  | 4 => controlOf v d
  | 5 => adOf v d
  | 6 => srOf v d

/-- The `R_BUS` instruction of an offset that is not $19 .. $1C (rule R329). -/
def IsBusRead : Instr → Prop
  | .rBus00 _ | .rBus10 _ | .rBus18 | .rBus1D | .rBus1E _ => True
  | _ => False

/-- The `W_NONE` instructions with the byte they write (rule R330). -/
def IsNoneWrite (d : Byte) : Instr → Prop
  | .wNone19 d' | .wNone1A _ d' | .wNone1C _ d' => d' = d
  | _ => False

end Sys2Proof.Machine
end

