-- ==== Sys2Proof/Certificates/Slice0/Obligations.lean ====
section
/-! DEFINITION. The statements for the provers. Each says what a rule of the spec says an instruction or the block does; a
statement's docstring names the rules. -/

open Sys2Proof Sys2Proof.Machine

/-! ## Encoding -/

/-- Rules R90, R98: decoding the encoding of an instruction gives the instruction back, and exactly the instructions with a row of
bits in the opcode table have an encoding. The spec's own choices: D1, D34. -/
def Obligations.DecodeOfEncode : Prop :=
  (∀ (i : Instr) (w : PortWord), encode i = some w → decode w = some i) ∧ (∀ i : Instr, (encode i).isSome = i.row.isSome)

/-- Rules R90, R97: a legal word is the encoding of the instruction it decodes to, so that no bit of it is dropped. The spec's own
choices: D1, D34. -/
def Obligations.EncodeOfDecode : Prop :=
  ∀ (w : PortWord) (i : Instr), decode w = some i → encode i = some w

/-- The opcode table: a word decodes to an instruction of a row exactly when it matches the row's mask and pattern. The spec's own
choices: D1, D2. -/
def Obligations.DecodeMatchesTableRow : Prop :=
  (∀ (w : PortWord) (i : Instr), decode w = some i → ∃ r, i.row = some r ∧ w &&& r.mask = r.pattern) ∧
  (∀ (i : Instr) (r : TableRow) (w : PortWord), i.row = some r → w &&& r.mask = r.pattern → ∃ j, decode w = some j ∧ j.row = some r)

/-- Rule R95: the illegal words, and the fault an illegal word raises: nothing but `FAULTED` changes. The spec's own choices: D1,
D30. -/
def Obligations.IllegalWordsRaiseFault : Prop :=
  (∀ w : PortWord, decode w = none ↔
    (w.getLsbD 15 = false ∧ w.getLsbD 13 = true) ∨
    (w.extractLsb' 14 2 = 0b01#2 ∧ w.extractLsb' 0 8 ≠ 0#8) ∨
    (w.extractLsb' 14 2 = 0b10#2 ∧ w.extractLsb' 0 14 ≠ 0#14) ∨
    (w.extractLsb' 14 2 = 0b11#2 ∧ (w.extractLsb' 0 12 ≠ 0#12 ∨ w.extractLsb' 12 2 ≠ 0b00#2))) ∧
  (∀ (s : State) (c : ChipIndex) (w : PortWord) (rest : List Input), s.faulted = none → s.input = .port c w :: rest → decode w = none →
    step s = .next { s with input := rest, faulted := some (.illegalPortWord w) })

/-- Rule R99: the worked encoding examples. The spec's own choices: D1, D34. -/
def Obligations.WorkedWordsDecode : Prop :=
  decode 0x0441#16 = some (.wControl1 0x41#8) ∧ decode 0x180F#16 = some (.wModeVol 0x0F#8) ∧
  decode 0x5B00#16 = some .rOsc3 ∧ decode 0x5C00#16 = some .rEnv3 ∧
  decode 0x8000#16 = some .clk ∧ decode 0xC000#16 = some .reset ∧
  decode 0x1DFF#16 = some (.wNone1C 0b01#2 0xFF#8) ∧
  decode 0x2000#16 = none ∧ decode 0x5B01#16 = none ∧ decode 0xD000#16 = none

/-- Rule R94: the opcode map of bus writes and bus reads by offset. The spec's own choices: D2. -/
def Obligations.OpcodeMapByOffset : Prop :=
  (∀ (v r : Nat) (hv : v < 3) (hr : r < 7) (d : Byte),
    decode ((0b000#3 ++ BitVec.ofNat 5 (7 * v + r)) ++ d)
      = some (voiceRegister (VoiceId.ofIndex ⟨v, hv⟩) ⟨r, hr⟩ d)) ∧
  (∀ d : Byte, decode ((0b000#3 ++ 0x15#5) ++ d) = some (.wFcLo d) ∧ decode ((0b000#3 ++ 0x16#5) ++ d) = some (.wFcHi d) ∧
    decode ((0b000#3 ++ 0x17#5) ++ d) = some (.wResFilt d) ∧ decode ((0b000#3 ++ 0x18#5) ++ d) = some (.wModeVol d)) ∧
  (∀ (off : Offset) (d : Byte), 0x19#5 ≤ off → ∃ i, decode ((0b000#3 ++ off) ++ d) = some i ∧ IsNoneWrite d i) ∧
  (decode 0x5900#16 = some .rPotX ∧ decode 0x5A00#16 = some .rPotY ∧ decode 0x5B00#16 = some .rOsc3 ∧
    decode 0x5C00#16 = some .rEnv3) ∧
  (∀ off : Offset, off ≤ 0x18#5 ∨ 0x1D#5 ≤ off → ∃ i, decode ((0b010#3 ++ off) ++ 0x00#8) = some i ∧ IsBusRead i)

/-! ## Steps and faults -/

/-- Rules R79, R121, R300: the next input of the trace has its effect: a port word runs its instruction on the chip it is addressed
to, a scheduler call runs, a host input is driven into its chip and changes nothing else (rules R260, R321, R325, R326), the owner of
an event supplies a callback sequence, and power-on builds anew (rules R356, R380). A port word issued by a callback does as one of
the trace, or raises the illegal-word fault. The trace as a list of inputs of the state, and the block standing still when it is empty, are
the model's choice (log entry 1), and so are the chip-select held in the state (log entry 18), the supply of callback sequences (log
entry 8), a sequence that cannot be written in the block supplying nothing (log entry 8) and a host input of an absent chip reaching no
chip (log entry 5). The spec's own choices: D1, D29. -/
def Obligations.StepRunsNextInput : Prop :=
  (∀ (s : State) (c : ChipIndex) (w : PortWord) (rest : List Input) (i : Instr), s.input = .port c w :: rest → decode w = some i →
    step s = exec i { s with input := rest, chipSel := c }) ∧
  (∀ (s : State) (call : SchedCall) (rest : List Input), s.input = .call call :: rest → step s = exec call.instr { s with input := rest }) ∧
  (∀ (c : ChipIndex) (w : PortWord) (i : Instr) (s : State), decode w = some i →
    portWord c w s = exec i { s with chipSel := c }) ∧
  (∀ (c : ChipIndex) (w : PortWord) (s : State), decode w = none → s.faulted = none →
    portWord c w s = .next { s with faulted := some (.illegalPortWord w) }) ∧
  (∀ (s : State) (inp : HostInput) (rest : List Input) (c : Chip), s.input = .host (.drive inp) :: rest → s.chips[inp.chip]? = some c →
    step s = .next { s with
      input := rest
      chips := s.chips.set inp.chip (match inp with
        | .potX _ x => { c with potX := x }
        | .potY _ y => { c with potY := y }
        | .mute _ v on => { c with mute1 := if v = 0 then on else c.mute1, mute2 := if v = 1 then on else c.mute2,
                                   mute3 := if v = 2 then on else c.mute3 }
        | .extIn _ x => { c with extIn := x }) }) ∧
  (∀ (s : State) (inp : HostInput) (rest : List Input), s.input = .host (.drive inp) :: rest → s.chips.length ≤ inp.chip →
    step s = .next { s with input := rest }) ∧
  (∀ (s : State) (e : EventId) (ops : List CallOp) (rest : List Input), s.input = .host (.supplyCallback e ops) :: rest →
    step s = .next { s with
      input := rest
      callbacks :=
        if e ∈ s.params.events ∧ ∀ op ∈ ops, op.wellFormed s.chips.length s.params.events = true then s.callbacks ++ [(e, ops)]
        else s.callbacks }) ∧
  (∀ (s : State) (a : PowerOnArgs) (rest : List Input), s.input = .host (.powerOn a) :: rest →
    step s = .next ({ s with input := rest }.powerOn a)) ∧
  (∀ s : State, s.input = [] → step s = .next s)

/-- Rules R350, R362: in the fault state every port word and every scheduler call returns `FAULT` and changes nothing, and of the
host's events only an accepted power-on leaves the state. The spec's own choices: D30. -/
def Obligations.FaultStateAbsorbs : Prop :=
  (∀ (i : Instr) (s : State) (f : BlockFault), s.faulted = some f → exec i s = .next { s with outputs := .faultReturned :: s.outputs }) ∧
  (∀ (s : State) (f : BlockFault) (c : ChipIndex) (w : PortWord) (rest : List Input), s.faulted = some f → s.input = .port c w :: rest → decode w = none →
    step s = .next { s with input := rest, outputs := .faultReturned :: s.outputs }) ∧
  (∀ (s : State) (f : BlockFault) (ev : HostEvent) (rest : List Input), s.faulted = some f → s.input = .host ev :: rest →
    ∃ t, step s = .next t ∧ (t.faulted = some f ∨ ∃ a, ev = .powerOn a ∧ powerOnRefusal a = none ∧ t.faulted = none))

/-- Rule R86: a port transaction changes no chip but the one it is addressed to. It raises no fault (rule R351) and changes nothing of
the scheduler (rule R365). That the chip-select, the trace and the callbacks are held in the state, and so unchanged, is the model's choice
(log entries 18, 1 and 8), as is the stop where the block has no such chip (log entry 5). -/
def Obligations.PortTransactionIsolatesChips : Prop :=
  (∀ (i : Instr) (s t : State), i.row.isSome = true → exec i s = .next t →
    (∀ k, k ≠ s.chipSel → t.chips[k]? = s.chips[k]?) ∧ t.time = s.time ∧ t.queue = s.queue ∧ t.nextSeq = s.nextSeq ∧
    t.params = s.params ∧ t.faulted = s.faulted ∧ t.chipSel = s.chipSel ∧ t.input = s.input ∧ t.callbacks = s.callbacks) ∧
  (∀ (i : Instr) (s : State), i.row.isSome = true → s.faulted = none → s.chips.length ≤ s.chipSel →
    exec i s = .fault (.noSuchChip s.chipSel))

/-! ## The invariant -/

/-- Rules R24, R26, R111, R112, R259, R323, R358: the invariant of the block is kept by every step that answers a next state; that every
pending event and the operands of every supplied callback sequence are of the block's own types is part of it. And a step on an input
whose operands are of their types does answer a next state, whatever was built or supplied before, and the supplied callbacks stay of
their types. The trace, and callbacks as supplied sequences, are the model's choice (log entries 1 and 8). The spec's own choices: D7,
D9, D15, D19, D28, D30, D32. -/
def Obligations.StepKeepsInvariant : Prop :=
  (∀ s t : State, s.Inv → step s = .next t → t.Inv) ∧
  (∀ (s : State) (i : Input) (rest : List Input), s.input = i :: rest → callbacksWellFormed s →
    i.wellFormed s.chips.length s.params.events = true → ∃ t, step s = .next t ∧ callbacksWellFormed t)

/-- The invariant holds right after power-on. The spec's own choices: D32. -/
def Obligations.ResetMeetsInvariant : Prop := State.reset.Inv

/-- Rule R380: power-on with accepted arguments: 1 to 3 chips of the models given, the quoted values in every voice, the scheduler
empty at time 0 and no fault. The host inputs at their defaults, and the trace, the outputs and those supplied callbacks that can be
written in the new block kept, are the model's choice (log entry 12). The spec's own choices: D31, D32, D36. -/
def Obligations.PowerOnBuildsBlock : Prop :=
  ∀ (a : PowerOnArgs) (s : State), powerOnRefusal a = none →
    (s.powerOn a).params = a.params ∧ (s.powerOn a).time = 0 ∧ (s.powerOn a).queue = [] ∧ (s.powerOn a).nextSeq = 0 ∧
    (s.powerOn a).faulted = none ∧ (s.powerOn a).chips.map (fun c => c.model) = a.models ∧
    1 ≤ a.models.length ∧ a.models.length ≤ 3 ∧ a.digiBoost = false ∧
    (s.powerOn a).chipSel = 0 ∧ (s.powerOn a).input = s.input ∧ (s.powerOn a).outputs = s.outputs ∧
    (s.powerOn a).callbacks = s.callbacks.filter (callbackWellFormed a.models.length a.params.events) ∧
    ∀ c ∈ (s.powerOn a).chips, c.cycles = 0 ∧ c = c.chipReset a.params ∧ c.potX = 0 ∧ c.potY = 0 ∧ c.extIn = 0 ∧
      ∀ v, (c.voice v).wave.acc = 0x555555#24 ∧ (c.voice v).wave.sr = 0x7FFFFF#24 ∧
        (c.voice v).env.envelopeCounter = 0xAA#8 ∧ (c.voice v).env.lfsr = 0x7FFF#15 ∧ c.muted v = false

/-- Rules R7, R153, R250-R254, R282, R284, R351, R356: the constructions that are accepted: those whose every parameter is in its domain:
1 to 3 chips, no digi boost, a positive clock rate and positive cycle counts, and every given table within its stated constraint. Any
other is refused with the name of a parameter out of its domain and leaves nothing behind but its report. The model's choices: the
report on the output list (log entry 9), the name where several parameters are bad (log entry 11), the 6581's constraint and the 8580's
law on a given `RES_GAIN` asked at the 16-bit signed inputs and up to the rounding of the set (log entry 17), the decreasing transfer as an
uninterpreted truth of the set (log entry 25), the inputs at which a given `SUMMER` and `MIXER` are checked (log entry 28), and "not
monotonic" as decreasing somewhere (log entry 32), and strict increase as all that "linear" asks (log entry 33). The spec's own choices: D22, D23, D30, D31, D36. -/
def Obligations.BadConstructionRefused : Prop :=
  (∀ a : PowerOnArgs, powerOnRefusal a = none ↔ ∀ name, ParamInDomain a name) ∧
  (∀ a : PowerOnArgs, powerOnRefusal a ≠ none →
    ∃ name, powerOnRefusal a = some name ∧ ¬ParamInDomain a name ∧
      ∀ s : State, s.powerOn a = { s with outputs := .refused (.configRefused name) :: s.outputs }) ∧
  (∀ a : PowerOnArgs, 1 ≤ a.models.length → a.models.length ≤ 3 → a.digiBoost = true → powerOnRefusal a = some .digiBoost)

/-! ## Writes to the waveform generator -/

/-- Rules R92, R140-R143: a frequency or pulse-width write sets its part of `freq` or `pw` and nothing else of the voice, the
other voices or the filter; the high four data bits of PW_HI are discarded. The register layout is the spec's own choice
(decision D2). The spec's own choices: D2. -/
def Obligations.FrequencyAndPulseWidthWrites : Prop :=
  ∀ (v : VoiceId) (d : Byte) (s : State) (c : Chip), Ready s c →
    (∃ c', exec (freqLoOf v d) s = .next (withSelected s c') ∧
      VoiceWritten d v { (c.voice v) with wave := { (c.voice v).wave with
        freq := (c.voice v).wave.freq.extractLsb' 8 8 ++ d } } c c') ∧
    (∃ c', exec (freqHiOf v d) s = .next (withSelected s c') ∧
      VoiceWritten d v { (c.voice v) with wave := { (c.voice v).wave with
        freq := d ++ (c.voice v).wave.freq.extractLsb' 0 8 } } c c') ∧
    (∃ c', exec (pwLoOf v d) s = .next (withSelected s c') ∧
      VoiceWritten d v { (c.voice v) with wave := { (c.voice v).wave with
        pw := (c.voice v).wave.pw.extractLsb' 8 4 ++ d } } c c') ∧
    (∃ c', exec (pwHiOf v d) s = .next (withSelected s c') ∧
      VoiceWritten d v { (c.voice v) with wave := { (c.voice v).wave with
        pw := d.extractLsb' 0 4 ++ (c.voice v).wave.pw.extractLsb' 0 8 } } c c')

/-- Rule R144, for a CONTROL write that leaves the test bit as it was: the control fields, the ring mask, and the masks and the
floating TTL of a changed waveform; every other field of the generator keeps its value. The byte is the one the mute gate
delivers (rule R321). The spec's own choices: D2, D10, D11, D18. -/
def Obligations.ControlWriteSelectsWaveform : Prop :=
  ∀ (v : VoiceId) (d : Byte) (s : State) (c : Chip), Ready s c → (delivered c v d).getLsbD 3 = (c.voice v).wave.test →
    ∃ c', exec (controlOf v d) s = .next (withSelected s c') ∧ BusLoaded d c c' ∧ c'.filter = c.filter ∧
      (∀ u, u ≠ v → c'.voice u = c.voice u) ∧
      (c'.voice v).wave = controlSelected s.params c.model (delivered c v d) (c.voice v).wave

/-- Rules R145, R158: a CONTROL write that raises the test bit selects as rule R144 says, zeroes the accumulator, clears the noise
pipeline, starts the reset countdown and forces the pulse high; it writes back into the LFSR only where the waveform selected
before combined noise with another (that condition is the spec's own choice, decision D9). The spec's own choices: D2, D9,
D18. -/
def Obligations.TestRiseHoldsAccumulator : Prop :=
  ∀ (v : VoiceId) (d : Byte) (s : State) (c : Chip), Ready s c → (c.voice v).wave.test = false →
    (delivered c v d).getLsbD 3 = true →
    ∃ c', exec (controlOf v d) s = .next (withSelected s c') ∧ BusLoaded d c c' ∧ c'.filter = c.filter ∧
      (∀ u, u ≠ v → c'.voice u = c.voice u) ∧
      (let old := (c.voice v).wave
       let combined := old.waveform.getLsbD 3 = true ∧ old.waveform.extractLsb' 0 3 ≠ 0
       (c'.voice v).wave =
        { controlSelected s.params c.model (delivered c v d) old with
          acc := 0
          shiftPipeline := 0
          srrCount := if c.model = .mos6581 then s.params.srrCycles6581 else s.params.srrCycles8580
          pulseOutput := 0xFFF#12
          sr := if combined then old.sr &&& wbMask old.waveformOutput else old.sr
          noiseOutput := if combined then old.noiseOutput &&& old.waveformOutput else old.noiseOutput })

/-- Rule R146: a CONTROL write that clears the test bit selects as rule R144 says and shifts the LFSR once with the complement of
bit 17 entering; the accumulator and every other field keep their values. The entering bit is the spec's own choice (decision
D8). The spec's own choices: D2, D8, D18. -/
def Obligations.TestFallShiftsNoise : Prop :=
  ∀ (v : VoiceId) (d : Byte) (s : State) (c : Chip), Ready s c → (c.voice v).wave.test = true →
    (delivered c v d).getLsbD 3 = false →
    ∃ c', exec (controlOf v d) s = .next (withSelected s c') ∧ BusLoaded d c c' ∧ c'.filter = c.filter ∧
      (∀ u, u ≠ v → c'.voice u = c.voice u) ∧
      (let old := (c.voice v).wave
       let sr := (c'.voice v).wave.sr
       (c'.voice v).wave =
        { controlSelected s.params c.model (delivered c v d) old with sr := sr, noiseOutput := noiseOf sr } ∧
       sr.getLsbD 0 = !old.sr.getLsbD 17 ∧ sr.getLsbD 23 = false ∧
       (∀ k, 1 ≤ k → k ≤ 22 → sr.getLsbD k = old.sr.getLsbD (k - 1)))

/-- Rule R321: a CONTROL write to a muted voice delivers 0, which clears its waveform, test, ring, sync and gate bits, while the
bus value keeps the byte as written; a step on the host event that drives MUTE changes that one input of the chip and nothing else of
the block. The spec's own choices: D18. -/
def Obligations.MutedControlDeliversZero : Prop :=
  (∀ (v : VoiceId) (d : Byte) (s : State) (c : Chip), Ready s c → c.muted v = true →
    ∃ c', exec (controlOf v d) s = .next (withSelected s c') ∧ c'.busValue = d ∧
      (c'.voice v).wave.waveform = 0 ∧ (c'.voice v).wave.test = false ∧ (c'.voice v).wave.ring = false ∧
      (c'.voice v).wave.sync = false ∧ (c'.voice v).env.gate = false) ∧
  (∀ (s : State) (i : ChipIndex) (c : Chip) (k : Fin 3) (on : Bool) (rest : List Input),
    s.input = .host (.drive (.mute i k on)) :: rest → s.chips[i]? = some c →
    ∃ c', step s = .next { s with input := rest, chips := s.chips.set i c' } ∧
      c' = { c with mute1 := c'.mute1, mute2 := c'.mute2, mute3 := c'.mute3 } ∧
      c'.muted (VoiceId.ofIndex k) = on ∧ ∀ v, v ≠ VoiceId.ofIndex k → c'.muted v = c.muted v)

/-! ## Writes to the envelope generator -/

/-- Rules R202, R204, R205: ATTACK_DECAY latches both rates and takes the rate of the current state at once; SUSTAIN_RELEASE sets
the extended sustain level and the release rate, which applies at once in Release. Neither changes anything else of the voices
or the filter. The spec's own choices: D2. -/
def Obligations.EnvelopeRegisterWrites : Prop :=
  ∀ (v : VoiceId) (d : Byte) (s : State) (c : Chip), Ready s c →
    (∃ c', exec (adOf v d) s = .next (withSelected s c') ∧
      VoiceWritten d v { (c.voice v) with env := { (c.voice v).env with
        attack := d.extractLsb' 4 4
        decay := d.extractLsb' 0 4
        rate := if (c.voice v).env.state = .attack then adsrRate (d.extractLsb' 4 4)
          else if (c.voice v).env.state = .decaySustain then adsrRate (d.extractLsb' 0 4)
          else (c.voice v).env.rate } } c c') ∧
    (∃ c', exec (srOf v d) s = .next (withSelected s c') ∧
      VoiceWritten d v { (c.voice v) with env := { (c.voice v).env with
        sustain := d.extractLsb' 4 4 ++ d.extractLsb' 4 4
        release := d.extractLsb' 0 4
        rate := if (c.voice v).env.state = .release then adsrRate (d.extractLsb' 0 4) else (c.voice v).env.rate } } c c')

/-- Rule R203: the gate half of the CONTROL write. The spec's own choices: D2, D18, D19. -/
def Obligations.GateWriteStartsPhase : Prop :=
  ∀ (v : VoiceId) (d : Byte) (s : State) (c : Chip), Ready s c →
    ∃ c', exec (controlOf v d) s = .next (withSelected s c') ∧ BusLoaded d c c' ∧ c'.filter = c.filter ∧
      (∀ u, u ≠ v → c'.voice u = c.voice u) ∧
      (let g := (delivered c v d).getLsbD 0
       let old := (c.voice v).env
       (g = old.gate → (c'.voice v).env = old) ∧
       (g ≠ old.gate → g = true → (c'.voice v).env =
        { old with
          gate := true
          nextState := .attack
          statePipeline := if old.resetLfsr = false ∧ old.exponentialPipeline = 1 then 3 else 2
          envelopePipeline :=
            if old.resetLfsr = true ∨ old.exponentialPipeline = 2 then
              (if old.expPeriod = .p1 ∨ old.exponentialPipeline = 2 then 2 else 4)
            else old.envelopePipeline }) ∧
       (g ≠ old.gate → g = false → (c'.voice v).env =
        { old with gate := false, nextState := .release, statePipeline := if old.envelopePipeline = 0 then 2 else 3 }))

/-! ## Writes to the filter, and writes that reach no register -/

/-- Rules R240-R243: the four filter writes set their fields and nothing else of the filter or the voices. The spec's own choices:
D2. -/
def Obligations.FilterWriteSetsFields : Prop :=
  ∀ (d : Byte) (s : State) (c : Chip), Ready s c →
    (∃ c', exec (.wFcLo d) s = .next (withSelected s c') ∧ BusLoaded d c c' ∧ (∀ v, c'.voice v = c.voice v) ∧
      c'.filter = { c.filter with fc := c.filter.fc.extractLsb' 3 8 ++ d.extractLsb' 0 3 }) ∧
    (∃ c', exec (.wFcHi d) s = .next (withSelected s c') ∧ BusLoaded d c c' ∧ (∀ v, c'.voice v = c.voice v) ∧
      c'.filter = { c.filter with fc := d ++ c.filter.fc.extractLsb' 0 3 }) ∧
    (∃ c', exec (.wResFilt d) s = .next (withSelected s c') ∧ BusLoaded d c c' ∧ (∀ v, c'.voice v = c.voice v) ∧
      c'.filter = { c.filter with res := d.extractLsb' 4 4, filt := d.extractLsb' 0 4 }) ∧
    (∃ c', exec (.wModeVol d) s = .next (withSelected s c') ∧ BusLoaded d c c' ∧ (∀ v, c'.voice v = c.voice v) ∧
      c'.filter = { c.filter with mode := d.extractLsb' 4 4, vol := d.extractLsb' 0 4 })

/-- Rule R330: a write to an offset that holds no write register changes only the bus value and its life, and the sync deadline
that every write recomputes. The spec's own choices: D2, D17. -/
def Obligations.NoneWriteLoadsBusOnly : Prop :=
  ∀ (i : Instr) (d : Byte) (s : State) (c : Chip), IsNoneWrite d i → Ready s c →
    ∃ c', exec i s = .next (withSelected s c') ∧ BusLoaded d c c' ∧ (∀ v, c'.voice v = c.voice v) ∧ c'.filter = c.filter

/-! ## Reads -/

/-- Rules R324-R328: the four read registers return the potentiometer inputs and voice 3's latches, and change nothing of the
chip. The spec's own choices: D16, D20, D33. -/
def Obligations.RegisterReadsReturnLatches : Prop :=
  ∀ (s : State) (c : Chip), Ready s c →
    exec .rPotX s = .next { s with outputs := .byte s.chipSel c.potX :: s.outputs } ∧
    exec .rPotY s = .next { s with outputs := .byte s.chipSel c.potY :: s.outputs } ∧
    exec .rOsc3 s = .next { s with outputs := .byte s.chipSel (c.voice3.wave.osc3.extractLsb' 4 8) :: s.outputs } ∧
    exec .rEnv3 s = .next { s with outputs := .byte s.chipSel c.voice3.env.env3 :: s.outputs }

/-- Rule R329: any other read returns the bus value, halves its life and clears it when the life is over, and changes nothing
else. The spec's own choices: D16, D17, D40. -/
def Obligations.BusReadHalvesLife : Prop :=
  ∀ (i : Instr) (s : State) (c : Chip), IsBusRead i → Ready s c →
    ∃ c', exec i s = .next { withSelected s c' with outputs := .byte s.chipSel c.busValue :: s.outputs } ∧
      SameButBus c c' ∧ c'.busTtl.toInt = c.busTtl.toInt / 2 ∧
      c'.busValue = if c'.busTtl = 0 then 0x00#8 else c.busValue

/-! ## The SID cycle -/

/-- Rules R310, R311, R398: CLK runs one cycle of the selected chip and puts out its sample; the count of cycles goes up by one, the
bus value ages, each envelope makes one clock step with its read-back latch one cycle late, and no register field that a write sets
is changed. The filter steps on the voice outputs of this cycle's waveform outputs and envelope counters and on EXT_IN, the external
filter on the filter's output, and the sample is the external filter's (rules R247, R280, R291, R293); the default voice output is the
product of rule R283. That a voice output is formed from the raw waveform output and counter, also where it is given, is the model's choice
(log entry 31). The spec's own choices: D4, D15, D20, D21, D43. -/
def Obligations.ClkRunsOneCycle : Prop :=
  ∀ (s : State) (c : Chip), Ready s c →
    let p := s.params
    let c' := (c.cycle p).1
    let waveform := fun v => (c'.voice v).wave.waveformOutput
    let counter := fun v => (c'.voice v).env.envelopeCounter
    let o := fun v => voiceOut p c.model (waveform v) (counter v)
    let filtered := c.filter.clock p c.model (o .v1) (o .v2) (o .v3) c.extIn
    let sampled := c.ext.clock p filtered.2
    exec .clk s = .next { withSelected s c' with outputs := .sample s.chipSel sampled.2 :: s.outputs } ∧
    c'.filter = filtered.1 ∧ c'.ext = sampled.1 ∧
    (p.voiceOut = .default → ∀ v, o v = (waveDac p c.model (waveform v) - 2048) * envDac p c.model (counter v)) ∧
    c'.cycles = c.cycles + 1 ∧ c'.model = c.model ∧ c'.nextVoiceSync = c.nextVoiceSync ∧ c'.potX = c.potX ∧
    c'.potY = c.potY ∧ c'.extIn = c.extIn ∧
    c'.busTtl = (if c.busTtl = 0 then 0 else c.busTtl - 1) ∧
    c'.busValue = (if c.busTtl = 1 then 0x00#8 else c.busValue) ∧
    c'.filter.fc = c.filter.fc ∧ c'.filter.res = c.filter.res ∧
    c'.filter.filt = c.filter.filt ∧ c'.filter.mode = c.filter.mode ∧ c'.filter.vol = c.filter.vol ∧
    ∀ v, (c'.voice v).env = (c.voice v).env.clock ∧ (c'.voice v).env.env3 = (c.voice v).env.envelopeCounter ∧
      c'.muted v = c.muted v ∧ (c'.voice v).wave.freq = (c.voice v).wave.freq ∧
      (c'.voice v).wave.pw = (c.voice v).wave.pw ∧ (c'.voice v).wave.waveform = (c.voice v).wave.waveform ∧
      (c'.voice v).wave.test = (c.voice v).wave.test ∧ (c'.voice v).wave.ring = (c.voice v).wave.ring ∧
      (c'.voice v).wave.sync = (c.voice v).wave.sync ∧ (c'.voice v).env.gate = (c.voice v).env.gate ∧
      (c'.voice v).env.attack = (c.voice v).env.attack ∧ (c'.voice v).env.decay = (c.voice v).env.decay ∧
      (c'.voice v).env.sustain = (c.voice v).env.sustain ∧ (c'.voice v).env.release = (c.voice v).env.release

/-- Rules R323, R332: with no access in between, the byte last written is on the bus for `BUS_TTL - 1` cycles and 0 from the
`BUS_TTL`-th. The spec's own choices: D4, D15. -/
def Obligations.BusValueLife : Prop :=
  ∀ (p : Params) (c : Chip) (n : Nat), c.busTtl = busTtlOf c.model →
    ((fun x => (Chip.cycle p x).1)^[n] c).busValue = if n < (busTtlOf c.model).toNat then c.busValue else 0x00#8

/-- Rules R147, R148, R162, R163: the accumulators after a cycle. A voice with the test bit stands still, any other steps by its
frequency, and hard sync zeroes a voice whose source's MSB rose, unless the source is itself being synced. The spec's own
choices: D4, D6, D7. -/
def Obligations.CycleStepsAndSyncsAccumulators : Prop :=
  ∀ (p : Params) (c : Chip) (v : VoiceId),
    let wave := fun u => (c.voice u).wave
    let stepped := fun u => if (wave u).test then (wave u).acc else (wave u).acc + (wave u).freq.setWidth 24
    let rose := fun u => (wave u).test = false ∧ (wave u).acc.getLsbD 23 = false ∧ (stepped u).getLsbD 23 = true
    let synced := rose v.src ∧ (wave v).sync = true ∧ ¬((wave v.src).sync = true ∧ rose v.src.src)
    (synced → ((c.cycle p).1.voice v).wave.acc = 0) ∧
    (¬synced → ((c.cycle p).1.voice v).wave.acc = stepped v)

/-- Rules R151, R160, R311, R312, R402: a voice's waveform generator after a cycle is the clock step followed by the output step, the
latter reading the voice's and the ring source's stepped accumulators before hard sync zeroes anything; hard sync touches the
accumulator alone. The spec's own choices: D4. -/
def Obligations.CycleOutputPrecedesSync : Prop :=
  ∀ (p : Params) (c : Chip) (v : VoiceId),
    ((c.cycle p).1.voice v).wave =
      { (c.voice v).wave.clock.output p c.model (c.voice v.src).wave.clock.acc with acc := ((c.cycle p).1.voice v).wave.acc }

/-! ## The waveform generator -/

/-- Rule R147: the clock step of a voice with the test bit set: the accumulator stands still, and the noise LFSR is reset when its
countdown reaches 0. Clearing `msb_rising` is the spec's own choice (decision D7). The spec's own choices: D7. -/
def Obligations.TestBitClockStep : Prop :=
  ∀ v : Wave, v.test = true →
    v.clock = { v with
      pulseOutput := 0xFFF#12, msbRising := false, srrCount := v.clock.srrCount, sr := v.clock.sr
      noiseOutput := v.clock.noiseOutput } ∧
    (v.srrCount = 0 → v.clock.srrCount = 0 ∧ v.clock.sr = v.sr ∧ v.clock.noiseOutput = v.noiseOutput) ∧
    (v.srrCount = 1 → v.clock.srrCount = 0 ∧ v.clock.sr = 0x7FFFFF#24 ∧ v.clock.noiseOutput = 0xFF0#12) ∧
    (v.srrCount ≠ 0 → v.srrCount ≠ 1 →
      v.clock.srrCount = v.srrCount - 1 ∧ v.clock.sr = v.sr ∧ v.clock.noiseOutput = v.noiseOutput)

/-- Rule R148: the clock step of a voice with the test bit clear. -/
def Obligations.WaveClockStep : Prop :=
  ∀ v : Wave, v.test = false →
    v.clock.acc.toNat = (v.acc.toNat + v.freq.toNat) % 2 ^ 24 ∧
    v.clock = { v with
      acc := v.clock.acc, msbRising := v.clock.msbRising, shiftPipeline := v.clock.shiftPipeline, sr := v.clock.sr
      noiseOutput := v.clock.noiseOutput } ∧
    (v.clock.msbRising = true ↔ v.acc.getLsbD 23 = false ∧ v.clock.acc.getLsbD 23 = true) ∧
    (v.acc.getLsbD 19 = false ∧ v.clock.acc.getLsbD 19 = true →
      v.clock.shiftPipeline = 2 ∧ v.clock.sr = v.sr ∧ v.clock.noiseOutput = v.noiseOutput) ∧
    (¬(v.acc.getLsbD 19 = false ∧ v.clock.acc.getLsbD 19 = true) →
      (v.shiftPipeline = 0 → v.clock.shiftPipeline = 0 ∧ v.clock.sr = v.sr ∧ v.clock.noiseOutput = v.noiseOutput) ∧
      (v.shiftPipeline ≠ 0 → v.clock.shiftPipeline = v.shiftPipeline - 1) ∧
      (v.shiftPipeline = 1 → v.clock.sr = noiseShift v.sr ∧ v.clock.noiseOutput = noiseOf (noiseShift v.sr)) ∧
      (v.shiftPipeline ≠ 1 → v.clock.sr = v.sr ∧ v.clock.noiseOutput = v.noiseOutput))

/-- Rule R150: the eight taps of the noise output, its low four bits grounded. -/
def Obligations.NoiseOutputTaps : Prop :=
  ∀ sr : BitVec 24, (noiseOf sr).getLsbD 11 = sr.getLsbD 22 ∧ (noiseOf sr).getLsbD 10 = sr.getLsbD 20 ∧
    (noiseOf sr).getLsbD 9 = sr.getLsbD 16 ∧ (noiseOf sr).getLsbD 8 = sr.getLsbD 13 ∧
    (noiseOf sr).getLsbD 7 = sr.getLsbD 11 ∧ (noiseOf sr).getLsbD 6 = sr.getLsbD 7 ∧
    (noiseOf sr).getLsbD 5 = sr.getLsbD 4 ∧ (noiseOf sr).getLsbD 4 = sr.getLsbD 2 ∧
    (noiseOf sr).extractLsb' 0 4 = 0

/-- Rules R149, R158: the shift of the noise LFSR bit by bit (left-shifting by conflict C1), and write-back, which clears exactly
the tap bits whose output bit is 0, so the noise output of the result is the old one masked with the output (decision D9). The
spec's own choices: D9. -/
def Obligations.NoiseShiftAndWriteBack : Prop :=
  (∀ sr : BitVec 24, (noiseShift sr).getLsbD 0 = (sr.getLsbD 22 ^^ sr.getLsbD 17) ∧ (noiseShift sr).getLsbD 23 = false ∧
    ∀ k, 1 ≤ k → k ≤ 22 → (noiseShift sr).getLsbD k = sr.getLsbD (k - 1)) ∧
  (∀ (sr : BitVec 24) (w : BitVec 12), sr.getLsbD 23 = false →
    noiseOf (sr &&& wbMask w) = noiseOf sr &&& w ∧
    (∀ k, k ∉ [22, 20, 16, 13, 11, 7, 4, 2] → (sr &&& wbMask w).getLsbD k = sr.getLsbD k))

/-- Rules R154, R156: the DAC input of a selected waveform, its index the accumulator's high part with the ring modulation of rule
R151; and the pulse comparator at the end of every output step. -/
def Obligations.SelectedWaveformOutput : Prop :=
  (∀ (p : Params) (m : ChipModel) (a : BitVec 24) (v : Wave), v.waveform ≠ 0 →
    (v.output p m a).waveformOutput =
      waveBase p m (v.waveform.extractLsb' 0 3) ((v.acc ^^^ (~~~a &&& v.ringMsbMask)).extractLsb' 12 12)
        &&& (v.noPulse ||| v.pulseOutput) &&& (v.noNoise ||| v.noiseOutput)) ∧
  (∀ (p : Params) (m : ChipModel) (a : BitVec 24) (v : Wave),
    (v.output p m a).pulseOutput = if v.pw.toNat ≤ v.acc.toNat / 2 ^ 12 then 0xFFF#12 else 0x000#12)

/-- Rules R152, R153, R155: the bases of noise or pulse alone, triangle and sawtooth (the triangle's lowest bit by conflict C8), the
default table of the combined selections, and the read-back latch, which follows the DAC input, one output step late on a MOS8580 with
triangle or sawtooth selected (decisions D12, D20). The spec's own choices: D12, D13, D20. -/
def Obligations.WaveformBasesAndReadBack : Prop :=
  (∀ (p : Params) (m : ChipModel) (idx : BitVec 12),
    waveBase p m 0 idx = 0xFFF#12 ∧ waveBase p m 4 idx = 0xFFF#12 ∧ waveBase p m 2 idx = idx ∧
    (waveBase p m 1 idx).toNat = if idx.toNat < 0x800 then 2 * idx.toNat else 2 * (0xFFF - idx.toNat)) ∧
  (∀ (p : Params) (m : ChipModel) (sel : BitVec 3) (idx : BitVec 12), p.waveTable = .default → sel ∈ [3#3, 5#3, 6#3, 7#3] →
    ((waveBase p m sel idx).extractLsb' 0 4 = 0#4 ∧
      ∀ k, 4 ≤ k → k < 12 → (waveBase p m sel idx).getLsbD k =
        ((!sel.getLsbD 0 || (waveBase p m 1 idx).getLsbD k) && (!sel.getLsbD 1 || idx.getLsbD k)))) ∧
  (∀ (p : Params) (m : ChipModel) (a : BitVec 24) (v : Wave), v.waveform ≠ 0 →
    let idx := (v.acc ^^^ (~~~a &&& v.ringMsbMask)).extractLsb' 12 12
    let gates := (v.noPulse ||| v.pulseOutput) &&& (v.noNoise ||| v.noiseOutput)
    (m = .mos8580 ∧ v.waveform.extractLsb' 0 2 ≠ 0 →
      (v.output p m a).osc3 = v.triSawPipeline &&& gates ∧
      (v.output p m a).triSawPipeline = waveBase p m (v.waveform.extractLsb' 0 3) idx) ∧
    (¬(m = .mos8580 ∧ v.waveform.extractLsb' 0 2 ≠ 0) →
      (v.output p m a).osc3 = (v.output p m a).waveformOutput ∧ (v.output p m a).triSawPipeline = v.triSawPipeline))

/-- Rules R155-R157, R159, R160: write-back on the output step, and what the output step leaves as the clock step left it: everything but
the output, the read-back latch and its pipeline, the noise, the pulse level and, with waveform 0 alone, the floating TTL. The spec's own
choices: D9, D11, D12. -/
def Obligations.OutputStepWriteBack : Prop :=
  ∀ (p : Params) (m : ChipModel) (a : BitVec 24) (v : Wave),
    let combined := v.waveform.getLsbD 3 = true ∧ v.waveform.extractLsb' 0 3 ≠ 0 ∧ v.test = false ∧ v.shiftPipeline ≠ 1
    (combined → (v.output p m a).sr = v.sr &&& wbMask (v.output p m a).waveformOutput ∧
      (v.output p m a).noiseOutput = v.noiseOutput &&& (v.output p m a).waveformOutput) ∧
    (¬combined → (v.output p m a).sr = v.sr ∧ (v.output p m a).noiseOutput = v.noiseOutput) ∧
    v.output p m a = { v with
      waveformOutput := (v.output p m a).waveformOutput
      osc3 := (v.output p m a).osc3
      pulseOutput := (v.output p m a).pulseOutput
      sr := (v.output p m a).sr
      noiseOutput := (v.output p m a).noiseOutput
      triSawPipeline := if v.waveform = 0 then v.triSawPipeline else (v.output p m a).triSawPipeline
      floatingTtl := if v.waveform = 0 then (v.output p m a).floatingTtl else v.floatingTtl }

/-- Rules R24, R153, R166: after a cycle with a combined waveform selected (two or more of the four), the low four bits of the
voice's output are 0, whatever the combined-waveform tables are. The spec's own choices: D4, D13. -/
def Obligations.CombinedOutputLowNibbleZero : Prop :=
  ∀ (p : Params) (c : Chip) (v : VoiceId), c.Inv → (c.voice v).wave.waveform ∉ [0#4, 1#4, 2#4, 4#4, 8#4] →
    ((c.cycle p).1.voice v).wave.waveformOutput.extractLsb' 0 4 = 0#4

/-- Rules R157, R400: with waveform 0 the DAC input holds its value until the floating TTL runs out, and is 0 from then on; OSC3
follows it. One output step counts a TTL above 0 down and zeroes the DAC input where it reaches 0; a TTL of 0 stays and the DAC input
holds; but for these, OSC3 and the pulse level nothing changes. The spec's own choices: D11. -/
def Obligations.FloatingOutputHoldsThenFalls : Prop :=
  ∀ (p : Params) (m : ChipModel) (a : BitVec 24) (v : Wave), v.waveform = 0 →
    (let held := if v.floatingTtl = 1 then 0#12 else v.waveformOutput
     v.output p m a = { v with
      floatingTtl := if v.floatingTtl = 0 then 0 else v.floatingTtl - 1
      waveformOutput := held
      osc3 := held
      pulseOutput := if v.pw.toNat ≤ v.acc.toNat / 2 ^ 12 then 0xFFF#12 else 0x000#12 }) ∧
    (v.floatingTtl ≠ 0 → ∀ n : Nat,
      ((Wave.output p m a)^[n] v).waveformOutput = (if n < v.floatingTtl.toNat then v.waveformOutput else 0#12) ∧
      (0 < n → ((Wave.output p m a)^[n] v).osc3 = ((Wave.output p m a)^[n] v).waveformOutput))

/-- Rule R167: a noise LFSR with every bit 0 stays so through any number of cycles while the test bit is clear. The spec's own
choices: D4, D9. -/
def Obligations.NoiseLockUp : Prop :=
  ∀ (p : Params) (c : Chip) (v : VoiceId) (n : Nat), c.Inv → (c.voice v).wave.test = false → (c.voice v).wave.sr = 0 →
    (((fun x => (Chip.cycle p x).1)^[n] c).voice v).wave.sr = 0 ∧
    (((fun x => (Chip.cycle p x).1)^[n] c).voice v).wave.noiseOutput = 0

/-- Rule R168: the accumulator after `n` clock steps, and its period `2^24 / gcd(freq, 2^24)`: it returns then, and never
before. -/
def Obligations.AccumulatorPeriod : Prop :=
  ∀ v : Wave, v.test = false →
    (∀ n, (Wave.clock^[n] v).acc.toNat = (v.acc.toNat + n * v.freq.toNat) % 2 ^ 24) ∧
    (v.freq ≠ 0 → (Wave.clock^[2 ^ 24 / Nat.gcd v.freq.toNat (2 ^ 24)] v).acc = v.acc ∧
      ∀ n, 0 < n → n < 2 ^ 24 / Nat.gcd v.freq.toNat (2 ^ 24) → (Wave.clock^[n] v).acc ≠ v.acc)

/-- Rule R165: the sync deadline is the least of the candidates, and 0xFFFFFFFF where there is none. The spec's own choices: D35. -/
def Obligations.SyncDeadlineIsLeast : Prop :=
  ∀ c : Chip,
    let counts := fun i => (c.voice i.dest).wave.sync = true ∧ (c.voice i).wave.freq ≠ 0 ∧ (c.voice i).wave.test = false
    let cand := fun i => ((0x7FFFFF#24 - (c.voice i).wave.acc).toNat / (c.voice i).wave.freq.toNat + 1)
    (∀ i : VoiceId, counts i → c.syncDeadline.toNat ≤ cand i) ∧
    ((∃ i : VoiceId, counts i) → ∃ i : VoiceId, counts i ∧ c.syncDeadline.toNat = cand i) ∧
    ((¬∃ i : VoiceId, counts i) → c.syncDeadline = 0xFFFFFFFF#32)

/-! ## The envelope generator -/

/-- Rules R206, R207: the clock step of the envelope generator: the read-back latch, then a pending state change, then the first due of
the envelope pipeline, the exponential pipeline and the rate-counter reset, each with what it sets, then the step of the rate LFSR; and a
pending state change advances by one cycle, changing nothing else of the generator. That a release from DecaySustain takes effect one
cycle before one from Attack is rule R207's; rule R396's count is read as the one from Attack (log entry 27). The spec's own choices: D19. -/
def Obligations.StateChangeAdvances : Prop :=
  (∀ e : Env,
    let latched := { e with env3 := e.envelopeCounter }
    let a := if e.statePipeline = 0 then latched else latched.stateChange
    let b :=
      if a.envelopePipeline ≠ 0 then
        let x := { a with envelopePipeline := a.envelopePipeline - 1 }
        if a.envelopePipeline = 1 ∧ a.counterEnabled = true then x.step else x
      else if a.exponentialPipeline = 1 then
        { a with
          exponentialPipeline := 0
          expCounter := 0
          envelopePipeline := if a.state = .release ∨ (a.state = .decaySustain ∧ a.envelopeCounter ≠ a.sustain) then 1 else 0 }
      else if a.exponentialPipeline ≠ 0 then { a with exponentialPipeline := a.exponentialPipeline - 1 }
      else if a.resetLfsr = true then
        let x := { a with lfsr := 0x7FFF#15, resetLfsr := false }
        if a.state = .attack then { x with expCounter := 0, envelopePipeline := 2 }
        else if a.counterEnabled = true then
          { x with
            expCounter := a.expCounter + 1
            exponentialPipeline := if a.expCounter + 1 ≠ a.expPeriod.value then 0 else if a.expPeriod = .p1 then 1 else 2 }
        else x
      else a
    e.clock = b.lfsrStep) ∧
  (∀ e : Env, e.statePipeline ≠ 0 →
    let p := e.statePipeline - 1
    let released := e.nextState = .release ∧ ((e.state = .attack ∧ p = 0) ∨ (e.state = .decaySustain ∧ p = 1))
    e.stateChange = { e with
      statePipeline := p
      state :=
        if e.nextState = .attack ∧ p = 0 then .attack
        else if e.nextState = .decaySustain ∧ p = 0 then .decaySustain
        else if released then .release
        else e.state
      rate :=
        if e.nextState = .attack ∧ p = 1 then adsrRate e.decay
        else if e.nextState = .attack ∧ p = 0 then adsrRate e.attack
        else if e.nextState = .decaySustain ∧ p = 0 then adsrRate e.decay
        else if released then adsrRate e.release
        else e.rate
      counterEnabled := if e.nextState = .attack ∧ p = 0 then true else e.counterEnabled })

/-- Rules R209, R210: one step of the envelope counter, the switch to DecaySustain at 0xFF, and the exponential period and the
freeze looked up at the new level; nothing else of the generator changes. -/
def Obligations.EnvelopeStep : Prop :=
  ∀ e : Env,
    let n :=
      if e.state = .attack then e.envelopeCounter + 1
      else if e.state = .decaySustain ∧ e.envelopeCounter = e.sustain then e.envelopeCounter
      else e.envelopeCounter - 1
    let top := e.state = .attack ∧ n = 0xFF#8
    e.step = { e with
      envelopeCounter := n
      state := if top then .decaySustain else e.state
      nextState := if top then .decaySustain else e.nextState
      rate := if top then adsrRate e.decay else e.rate
      expPeriod :=
        if n ∈ [0xFF#8, 0x00#8] then .p1 else if n = 0x5D#8 then .p2 else if n = 0x36#8 then .p4 else if n = 0x1A#8 then .p8
        else if n = 0x0E#8 then .p16 else if n = 0x06#8 then .p30 else e.expPeriod
      counterEnabled := e.counterEnabled && n != 0x00#8 }

/-- Rule R208: on a match the rate LFSR holds and its reset is armed; otherwise it shifts right with `lfsr[0] ^ lfsr[1]` entering
at bit 14. -/
def Obligations.RateLfsrStep : Prop :=
  ∀ e : Env,
    (e.lfsr = e.rate → e.lfsrStep = { e with resetLfsr := true }) ∧
    (e.lfsr ≠ e.rate → e.lfsrStep = { e with lfsr := e.lfsrStep.lfsr } ∧
      e.lfsrStep.lfsr.getLsbD 14 = (e.lfsr.getLsbD 0 ^^ e.lfsr.getLsbD 1) ∧
      ∀ k, k < 14 → e.lfsrStep.lfsr.getLsbD k = e.lfsr.getLsbD (k + 1))

/-- Rules R200, R201: the number of LFSR steps from 0x7FFF to each entry of the rate table, plus one, is the rule's period. -/
def Obligations.RatePeriods : Prop :=
  ∀ r : Fin 16,
    let period := [9, 32, 63, 95, 149, 220, 267, 313, 392, 977, 1954, 3126, 3907, 11720, 19532, 31251].getD r.val 0
    lfsrNext^[period - 1] 0x7FFF#15 = adsrRate (BitVec.ofNat 4 r.val) ∧
    ∀ k, k < period - 1 → lfsrNext^[k] 0x7FFF#15 ≠ adsrRate (BitVec.ofNat 4 r.val)

/-- Rule R395: after a chip reset with the counter at 0 and the gate turned on, the state is Attack from the second clock step,
and the counter reaches 1, 2, 3 and 4 at the clock steps 2, 5, 14 and 23. The spec's own choices: D19, D32. -/
def Obligations.AttackLatency : Prop :=
  ∀ e : Env, e.envelopeCounter = 0 →
    let start := e.chipReset.writeControl 0x01#8
    (Env.clock^[1] start).state = .release ∧ (Env.clock^[1] start).rate = adsrRate 0 ∧
    (Env.clock^[2] start).state = .attack ∧
    (Env.clock^[1] start).envelopeCounter = 0 ∧ (Env.clock^[2] start).envelopeCounter = 1 ∧
    (Env.clock^[4] start).envelopeCounter = 1 ∧ (Env.clock^[5] start).envelopeCounter = 2 ∧
    (Env.clock^[13] start).envelopeCounter = 2 ∧ (Env.clock^[14] start).envelopeCounter = 3 ∧
    (Env.clock^[22] start).envelopeCounter = 3 ∧ (Env.clock^[23] start).envelopeCounter = 4

/-- Rules R210, R214(b): a frozen counter stays frozen at its value through any number of clock steps in which no attack is
pending. The spec's own choices: D19. -/
def Obligations.FrozenCounterStays : Prop :=
  ∀ (e : Env) (n : Nat), e.counterEnabled = false → (e.nextState ≠ .attack ∨ e.statePipeline = 0) →
    (Env.clock^[n] e).counterEnabled = false ∧ (Env.clock^[n] e).envelopeCounter = e.envelopeCounter

/-! ## The filter and the output stage -/

/-- Rules R245, R246: the routing sums and counts; 3OFF removes voice 3 from the direct path only. The spec's own choices: D24. -/
def Obligations.RoutingSums : Prop :=
  ∀ (f : Filter) (x1 x2 x3 xe : Int),
    let pick := fun (b : Bool) (x : Int) => if b = true then x else 0
    let one := fun (b : Bool) => if b = true then 1 else 0
    let direct3 := !f.filt.getLsbD 2 && !f.mode.getLsbD 3
    f.route x1 x2 x3 xe =
      { vi := pick (f.filt.getLsbD 0) x1 + pick (f.filt.getLsbD 1) x2 + pick (f.filt.getLsbD 2) x3 + pick (f.filt.getLsbD 3) xe
        nsum := one (f.filt.getLsbD 0) + one (f.filt.getLsbD 1) + one (f.filt.getLsbD 2) + one (f.filt.getLsbD 3)
        vo := pick (!f.filt.getLsbD 0) x1 + pick (!f.filt.getLsbD 1) x2 + pick direct3 x3 + pick (!f.filt.getLsbD 3) xe
        nmix := one (!f.filt.getLsbD 0) + one (!f.filt.getLsbD 1) + one direct3 + one (!f.filt.getLsbD 3) }

/-- Rules R251-R255, R259: whatever the filter's tables and its state, a filter step leaves 16-bit signed node voltages and an
unsigned 16-bit output, from at most 4 routed inputs and 7 mixed ones. The spec's own choices: D23. -/
def Obligations.FilterStaysInRange : Prop :=
  ∀ (p : Params) (m : ChipModel) (f : Filter) (o1 o2 o3 xe : Int),
    (f.clock p m o1 o2 o3 xe).1.Inv ∧
    0 ≤ (f.clock p m o1 o2 o3 xe).2 ∧ (f.clock p m o1 o2 o3 xe).2 ≤ 65535 ∧
    (f.route o1 o2 o3 xe).nsum ≤ 4 ∧ ((f.clock p m o1 o2 o3 xe).1.mix (f.route o1 o2 o3 xe)).nmix ≤ 7

/-- Rules R247, R250-R255: the filter step with the default numerics: the node voltages, and the value it returns, the selected low-,
band- and high-pass outputs beside the direct path through the mixer and the volume gain; and the values of the default tables, the
resonance's sixteen entries of each model and the cutoff's worked examples. That the default integrator of a MOS6581 does not clamp where
`VC_CLAMP_6581` is true is the model's choice (log entry 30). The spec's own choices: D21, D23, D25. -/
def Obligations.DefaultFilterStep : Prop :=
  (∀ (p : Params) (m : ChipModel) (f : Filter) (o1 o2 o3 xe : Int),
    p.voiceScale = .default → p.resGain = .default → p.summer = .default → p.integ = .default →
    let sat := fun x : Int => if x < -32768 then -32768 else if 32767 < x then 32767 else x
    let r := f.route (o1 / 128) (o2 / 128) (o3 / 128) xe
    let f' := (f.clock p m o1 o2 o3 xe).1
    f'.vhp = sat (-(-(f.vbp * q1024 m f.res / 1024) + f.vlp + r.vi)) ∧
    f'.vbp = sat (f.istateHp.vc - cutoffW0 p f.fc * f'.vhp / 2 ^ 20) ∧
    f'.vlp = sat (f.istateBp.vc - cutoffW0 p f.fc * f'.vbp / 2 ^ 20) ∧
    f'.istateHp = { f.istateHp with vc := f'.vbp } ∧ f'.istateBp = { f.istateBp with vc := f'.vlp } ∧
    (p.mixer = .default → p.volGain = .default →
      let pick := fun (b : Bool) (x : Int) => if b = true then x else 0
      let vo := r.vo + pick (f.mode.getLsbD 0) f'.vlp + pick (f.mode.getLsbD 1) f'.vbp + pick (f.mode.getLsbD 2) f'.vhp
      let mixed := if vo < -0x8000 then 0 else if 0x7FFF < vo then 65535 else vo + 0x8000
      (f.clock p m o1 o2 o3 xe).2 = 0x8000 + (mixed - 0x8000) * f.vol.toNat / 16)) ∧
  (List.range 16).map (fun r => q1024 .mos6581 (BitVec.ofNat 4 r))
    = [1448, 1324, 1219, 1129, 1052, 984, 925, 872, 826, 783, 745, 711, 679, 651, 624, 600] ∧
  (List.range 16).map (fun r => q1024 .mos8580 (BitVec.ofNat 4 r))
    = [1448, 1328, 1218, 1117, 1024, 939, 861, 790, 724, 664, 609, 558, 512, 470, 431, 395] ∧
  (∀ p : Params, p.clockHz = 985248 → cutoffW0 p 0 = 201 ∧ cutoffW0 p 1024 = 40342 ∧ cutoffW0 p 2047 = 80445)

/-- Rules R290, R291: the external filter's step, the high-pass reading the low-pass value just updated, and the saturated sample; and
its two coefficients at the clock rates the rule works out. The spec's own choices: D26, D44. -/
def Obligations.ExternalFilterStep : Prop :=
  (∀ (p : Params) (x : ExtFilter) (f : Int),
    let x' := (x.clock p f).1
    x'.elp = x.elp + extWLp p * ((f - 0x8000) * 2048 - x.elp) / 128 ∧
    x'.ehp = x.ehp + extWHp p * (x'.elp - x.ehp) / 131072 ∧
    (let y := (x'.elp - x'.ehp) / 2048
     (x.clock p f).2.toInt = if y < -32768 then -32768 else if 32767 < y then 32767 else y)) ∧
  (∀ p : Params, p.clockHz = 985248 ∨ p.clockHz = 1022727 → extWLp p = 13 ∧ extWHp p = 13)

/-- Rules R281, R282: the default DACs are the rounded ladder of rule R282; the 8580's envelope DAC is strictly increasing, and
the 6581's exact ladder decreases at 31 places, the first after 7. The spec's own choices: D22. -/
def Obligations.DefaultDacsAreLadders : Prop :=
  (∀ (p : Params) (m : ChipModel) (e : BitVec 8), p.envDac = .default → envDac p m e = (ladder m 8 e.toNat + 1 / 2).floor) ∧
  (∀ (p : Params) (m : ChipModel) (w : BitVec 12), p.waveDac = .default →
    waveDac p m w = (ladder m 12 w.toNat + 1 / 2).floor) ∧
  (∀ (p : Params) (e : BitVec 8), p.envDac = .default → e ≠ 0xFF#8 → envDac p .mos8580 e < envDac p .mos8580 (e + 1)) ∧
  ((List.range 255).filter fun x => decide (ladder .mos6581 8 (x + 1) < ladder .mos6581 8 x)).length = 31 ∧
  ladder .mos6581 8 8 < ladder .mos6581 8 7

/-! ## Chip reset -/

/-- Rules R381-R386: what RESET leaves in a chip, and what it keeps. The spec's own choices: D32, D35. -/
def Obligations.ResetLeavesChip : Prop :=
  ∀ (s : State) (c : Chip), Ready s c →
    ∃ c', exec .reset s = .next (withSelected s c') ∧ c'.model = c.model ∧ c'.cycles = c.cycles ∧ c'.potX = c.potX ∧
      c'.potY = c.potY ∧ (∀ v, c'.muted v = c.muted v) ∧ c'.extIn = c.extIn ∧ c'.ext = { elp := 0, ehp := 0 } ∧
      c'.busValue = 0 ∧ c'.busTtl = 0 ∧
      c'.nextVoiceSync = 0xFFFFFFFF#32 ∧
      c'.filter = { fc := 0, res := 0, filt := 0, mode := 0, vol := 0, vhp := 0, vbp := 0, vlp := 0,
                    istateHp := integInit s.params c.model, istateBp := integInit s.params c.model } ∧
      ∀ v,
        (c'.voice v).wave =
          { acc := (c.voice v).wave.acc, freq := 0, pw := 0, waveform := 0, test := false, ring := false, sync := false,
            sr := 0x7FFFFF#24, shiftPipeline := 0, srrCount := 0, msbRising := false, ringMsbMask := 0,
            noNoise := 0xFFF#12, noPulse := 0xFFF#12, noiseOutput := 0xFF0#12, pulseOutput := 0xFFF#12,
            waveformOutput := 0, osc3 := 0, triSawPipeline := 0x555#12, floatingTtl := 0 } ∧
        (c'.voice v).env =
          { lfsr := (c.voice v).env.lfsr, rate := 0x007F#15, expCounter := 0, expPeriod := .p1,
            envelopeCounter := (c.voice v).env.envelopeCounter, state := .release, nextState := .release, gate := false,
            statePipeline := 0, envelopePipeline := 0, exponentialPipeline := 0, attack := 0, decay := 0, release := 0,
            sustain := 0, counterEnabled := true, resetLfsr := true, env3 := 0 }

/-! ## The scheduler -/

/-- Rules R113-R115, R352, R359: SCHEDULE, its three faults in their order, the one case of an insertion in the past (delay 0 and
Phi1 while the time is in Phi2), and the entry it inserts at its place in the queue. The stop on an event that is not one of `EVENTS`,
which rule R358 says cannot be written, is the model's choice (log entry 5). The spec's own choices: D27, D28, D41, D42. -/
def Obligations.ScheduleInsertsOrFaults : Prop :=
  (∀ (e : EventId) (delay : Nat) (ph : Phase) (s : State), s.faulted = none → e ∈ s.params.events →
    let t := 2 * (s.time.toNat / 2 + delay) + (if ph = .phi1 then 0 else 1)
    (t < s.time.toNat ↔ delay = 0 ∧ ph = .phi1 ∧ s.time.toNat % 2 = 1) ∧
    (2 ^ 64 ≤ t → exec (.schedule e delay ph) s = .next { s with faulted := some (.timeOverflow t) }) ∧
    (t < 2 ^ 64 → t < s.time.toNat →
      exec (.schedule e delay ph) s = .next { s with faulted := some (.scheduleInPast e t) }) ∧
    (t < 2 ^ 64 → s.time.toNat ≤ t → (∃ x ∈ s.queue, x.event = e) →
      exec (.schedule e delay ph) s = .next { s with faulted := some (.schedulePending e) }) ∧
    (t < 2 ^ 64 → s.time.toNat ≤ t → (∀ x ∈ s.queue, x.event ≠ e) →
      ∃ q, exec (.schedule e delay ph) s = .next { s with queue := q, nextSeq := s.nextSeq + 1 } ∧
        q.Perm (⟨e, BitVec.ofNat 64 t, s.nextSeq⟩ :: s.queue) ∧
        ((s.queue.Pairwise fun x y => y.before x = false) → q.Pairwise fun x y => y.before x = false))) ∧
  (∀ (e : EventId) (delay : Nat) (ph : Phase) (s : State), s.faulted = none → e ∉ s.params.events →
    exec (.schedule e delay ph) s = .fault (.noSuchEvent e) ∧ exec (.cancel e) s = .fault (.noSuchEvent e))

/-- Rule R112: a newly scheduled event stands behind every pending entry at its time or before it, and ahead of every later one:
Phi1 before Phi2 within a cycle, and first in, first out at one time. -/
def Obligations.SameTimeIsFirstInFirstOut : Prop :=
  ∀ (e : EventId) (delay : Nat) (ph : Phase) (s t : State), s.faulted = none → QueueInv s.time s.queue → (∀ x ∈ s.queue, x.seq.toNat < s.nextSeq.toNat) →
    exec (.schedule e delay ph) s = .next t → t.faulted = none →
    t.queue = (s.queue.filter fun x => decide (x.time.toNat ≤ scheduleTime s.time delay ph)) ++
      ⟨e, BitVec.ofNat 64 (scheduleTime s.time delay ph), s.nextSeq⟩ ::
      (s.queue.filter fun x => decide (scheduleTime s.time delay ph < x.time.toNat))

/-- Rule R116: CANCEL of an event of `EVENTS` removes the event's entry if present and changes nothing else; cancelling again changes
nothing. -/
def Obligations.CancelRemovesEntry : Prop :=
  ∀ (e : EventId) (s : State), s.faulted = none → e ∈ s.params.events →
    ∃ q, exec (.cancel e) s = .next { s with queue := q } ∧ (∀ x, x ∈ q ↔ x ∈ s.queue ∧ x.event ≠ e) ∧
      q.Sublist s.queue ∧ ((∀ x ∈ s.queue, x.event ≠ e) → q = s.queue) ∧
      exec (.cancel e) { s with queue := q } = .next { s with queue := q }

/-- Rules R117, R121, R359: DISPATCH on an empty queue returns NONE and changes nothing; otherwise it detaches the head entry, advances
the time to it and runs the callback sequence its owner supplied: its operations in their order, each as the same operation of the
trace, up to its end or to the first that raises a fault, the part before keeping its effects. With callback sequences that reach
only chips and events of the block it always answers a next state. The supply of callback sequences is the model's choice (log entry 8), and
so is that the event is put out when its callback has ended without a fault, and nothing otherwise (log entry 23). The spec's own
choices: D29, D42. -/
def Obligations.DispatchRunsHead : Prop :=
  (∀ s : State, s.faulted = none → s.queue = [] →
    exec .dispatch s = .next { s with outputs := .dispatched none :: s.outputs }) ∧
  (∀ (s : State) (x : QueueEntry) (rest : List QueueEntry), s.faulted = none → s.queue = x :: rest → (∀ cb ∈ s.callbacks, cb.1 ≠ x.event) →
    exec .dispatch s = .next { s with queue := rest, time := x.time, outputs := .dispatched (some x.event) :: s.outputs }) ∧
  (∀ (s : State) (x : QueueEntry) (rest : List QueueEntry) (before : List (EventId × List CallOp)) (ops : List CallOp)
      (after : List (EventId × List CallOp)), s.faulted = none → s.queue = x :: rest →
    s.callbacks = before ++ (x.event, ops) :: after → (∀ cb ∈ before, cb.1 ≠ x.event) →
    ∀ t, runCallback ops { s with queue := rest, time := x.time, callbacks := before ++ after } = .next t →
      exec .dispatch s = .next (if t.faulted = none then { t with outputs := .dispatched (some x.event) :: t.outputs } else t)) ∧
  (∀ (s : State) (x : QueueEntry) (rest : List QueueEntry), s.faulted = none → s.queue = x :: rest → callbacksReach s →
    ∃ t, exec .dispatch s = .next t ∧ t.time = x.time ∧ t.chips.length = s.chips.length ∧
      (t.faulted = none → t.outputs.head? = some (.dispatched (some x.event)))) ∧
  (∀ s : State, runCallback [] s = .next s) ∧
  (∀ (op : CallOp) (ops : List CallOp) (s t : State), runCallOp op s = .next t →
    runCallback (op :: ops) s = if t.faulted = none then runCallback ops t else .next t) ∧
  (∀ (op : CallOp) (s : State), s.faulted = none →
    runCallOp op s = match op with
      | .port c w => portWord c w s
      | .schedule e delay ph => exec (.schedule e delay ph) s
      | .cancel e => exec (.cancel e) s
      | .getTime => exec .getTime s
      | .catchup c => exec (.catchup c) s
      | .drive inp => step { s with input := .host (.drive inp) :: s.input })

/-- Rules R118, R119, R359: RUN_UNTIL faults on a time that does not fit, then on a time before the current one; otherwise it
answers a next state, and unless a callback raised a fault the time is then the target and nothing is pending at or before it. A head
due by the target is dispatched as DISPATCH does it, callback and all, and RUN_UNTIL goes on from there, or ends there on a fault; with
nothing due it sets the time; with no callback sequence supplied it takes exactly the entries due by the target off the queue. That it
always ends rests on callbacks being supplied as finitely many sequences, where rule R118 lets a callback that reschedules itself keep
it from ending: the model's choice (log entry 8). That it puts nothing out, the dispatches inside it neither, is the model's choice too
(log entry 23). The spec's own choices: D29, D41, D42. -/
def Obligations.RunUntilReachesTarget : Prop :=
  ∀ (target : Nat) (s : State), s.faulted = none →
    (2 ^ 64 ≤ target → exec (.runUntil target) s = .next { s with faulted := some (.timeOverflow target) }) ∧
    (target < 2 ^ 64 → target < s.time.toNat →
      exec (.runUntil target) s = .next { s with faulted := some (.runUntilPast target) }) ∧
    (target < 2 ^ 64 → s.time.toNat ≤ target → QueueInv s.time s.queue → callbacksReach s →
      ∃ t, exec (.runUntil target) s = .next t ∧ s.time ≤ t.time ∧ t.time.toNat ≤ target ∧
        (t.faulted = none → t.time.toNat = target ∧ ∀ x ∈ t.queue, target < x.time.toNat)) ∧
    (∀ (x : QueueEntry) (rest : List QueueEntry) (t : State), target < 2 ^ 64 → s.time.toNat ≤ target → s.queue = x :: rest →
      x.time.toNat ≤ target → exec .dispatch s = .next t →
      exec (.runUntil target) s =
        if t.faulted = none then exec (.runUntil target) { t with outputs := t.outputs.tail } else .next t) ∧
    (target < 2 ^ 64 → s.time.toNat ≤ target → (∀ x, s.queue.head? = some x → target < x.time.toNat) →
      exec (.runUntil target) s = .next { s with time := BitVec.ofNat 64 target }) ∧
    (target < 2 ^ 64 → s.time.toNat ≤ target → QueueInv s.time s.queue → s.callbacks = [] →
      exec (.runUntil target) s = .next { s with
        time := BitVec.ofNat 64 target
        queue := s.queue.filter fun x => decide (target < x.time.toNat) })

/-- Rule R120: GET_TIME returns the cycle and the phase and changes nothing; `time_ms()` is the elapsed virtual milliseconds. The
spec's own choices: D47. -/
def Obligations.GetTimeReturnsCycleAndPhase : Prop :=
  ∀ s : State, s.faulted = none →
    exec .getTime s = .next { s with
      outputs := .time (s.time.toNat / 2) (if s.time.toNat % 2 = 0 then .phi1 else .phi2) :: s.outputs } ∧
    s.timeMs = s.time.toNat / 2 * 1000 / s.params.clockHz

/-- Rules R125, R126: CATCHUP clocks its chip until it has run the cycles that have ended by the current time, puts out each
cycle's sample, and changes nothing else; a chip that has run them is not clocked. The stop on a chip the block does not have, which
rule R358 says cannot be written, is the model's choice (log entry 5). The spec's own choices: D5, D43. -/
def Obligations.CatchupRunsDueCycles : Prop :=
  (∀ (c : ChipIndex) (x : Chip) (s : State), s.faulted = none → s.chips[c]? = some x →
    let due := (s.time.toNat + 1) / 2
    let n := due - x.cycles.toNat
    let after := fun k => (fun y => (Chip.cycle s.params y).1)^[k] x
    exec (.catchup c) s = .next { s with
      chips := s.chips.set c (after n)
      outputs := ((List.range n).reverse.map fun k => Output.sample c (Chip.cycle s.params (after k)).2) ++ s.outputs } ∧
    (after n).cycles.toNat = max due x.cycles.toNat) ∧
  (∀ (c : ChipIndex) (s : State), s.faulted = none → s.chips.length ≤ c → exec (.catchup c) s = .fault (.noSuchChip c))

/-- Rule R127: CATCHUP of one chip never clocks another, and the chips come out the same in whatever order they are caught up. The
spec's own choices: D5, D43. -/
def Obligations.CatchupOrderIrrelevant : Prop :=
  (∀ (c : ChipIndex) (s t : State) (k : Nat), exec (.catchup c) s = .next t → k ≠ c → t.chips[k]? = s.chips[k]?) ∧
  (∀ (a b : ChipIndex) (s ta tab tb tba : State), exec (.catchup a) s = .next ta → exec (.catchup b) ta = .next tab →
    exec (.catchup b) s = .next tb → exec (.catchup a) tb = .next tba → tab.chips = tba.chips)
end

