-- ==== Sys2Proof/Laws/State.lean ====
section
/-! SUPPORT. What each update of the state leaves alone, field by field, and what the accessors of a chip's voices read after an
update. -/

namespace Sys2Proof.Machine

/-! ### `State.emit` -/

@[simp] theorem State.emit_params (s : State) (o : Output) : (s.emit o).params = s.params := rfl
@[simp] theorem State.emit_chips (s : State) (o : Output) : (s.emit o).chips = s.chips := rfl
@[simp] theorem State.emit_time (s : State) (o : Output) : (s.emit o).time = s.time := rfl
@[simp] theorem State.emit_queue (s : State) (o : Output) : (s.emit o).queue = s.queue := rfl
@[simp] theorem State.emit_nextSeq (s : State) (o : Output) : (s.emit o).nextSeq = s.nextSeq := rfl
@[simp] theorem State.emit_faulted (s : State) (o : Output) : (s.emit o).faulted = s.faulted := rfl
@[simp] theorem State.emit_chipSel (s : State) (o : Output) : (s.emit o).chipSel = s.chipSel := rfl
@[simp] theorem State.emit_input (s : State) (o : Output) : (s.emit o).input = s.input := rfl
@[simp] theorem State.emit_callbacks (s : State) (o : Output) : (s.emit o).callbacks = s.callbacks := rfl
@[simp] theorem State.emit_outputs (s : State) (o : Output) : (s.emit o).outputs = o :: s.outputs := rfl

/-! ### `State.raise` -/

@[simp] theorem State.raise_params (s : State) (f : BlockFault) : (s.raise f).params = s.params := rfl
@[simp] theorem State.raise_chips (s : State) (f : BlockFault) : (s.raise f).chips = s.chips := rfl
@[simp] theorem State.raise_time (s : State) (f : BlockFault) : (s.raise f).time = s.time := rfl
@[simp] theorem State.raise_queue (s : State) (f : BlockFault) : (s.raise f).queue = s.queue := rfl
@[simp] theorem State.raise_nextSeq (s : State) (f : BlockFault) : (s.raise f).nextSeq = s.nextSeq := rfl
@[simp] theorem State.raise_faulted (s : State) (f : BlockFault) : (s.raise f).faulted = some f := rfl
@[simp] theorem State.raise_chipSel (s : State) (f : BlockFault) : (s.raise f).chipSel = s.chipSel := rfl
@[simp] theorem State.raise_input (s : State) (f : BlockFault) : (s.raise f).input = s.input := rfl
@[simp] theorem State.raise_callbacks (s : State) (f : BlockFault) : (s.raise f).callbacks = s.callbacks := rfl
@[simp] theorem State.raise_outputs (s : State) (f : BlockFault) : (s.raise f).outputs = s.outputs := rfl

/-! ### `State.select` -/

@[simp] theorem State.select_params (s : State) (c : ChipIndex) : (s.select c).params = s.params := rfl
@[simp] theorem State.select_chips (s : State) (c : ChipIndex) : (s.select c).chips = s.chips := rfl
@[simp] theorem State.select_time (s : State) (c : ChipIndex) : (s.select c).time = s.time := rfl
@[simp] theorem State.select_queue (s : State) (c : ChipIndex) : (s.select c).queue = s.queue := rfl
@[simp] theorem State.select_nextSeq (s : State) (c : ChipIndex) : (s.select c).nextSeq = s.nextSeq := rfl
@[simp] theorem State.select_faulted (s : State) (c : ChipIndex) : (s.select c).faulted = s.faulted := rfl
@[simp] theorem State.select_chipSel (s : State) (c : ChipIndex) : (s.select c).chipSel = c := rfl
@[simp] theorem State.select_input (s : State) (c : ChipIndex) : (s.select c).input = s.input := rfl
@[simp] theorem State.select_callbacks (s : State) (c : ChipIndex) : (s.select c).callbacks = s.callbacks := rfl
@[simp] theorem State.select_outputs (s : State) (c : ChipIndex) : (s.select c).outputs = s.outputs := rfl

/-! ### `State.setChip` -/

@[simp] theorem State.setChip_params (s : State) (c : ChipIndex) (x : Chip) : (s.setChip c x).params = s.params := rfl
@[simp] theorem State.setChip_chips (s : State) (c : ChipIndex) (x : Chip) : (s.setChip c x).chips = s.chips.set c x := rfl
@[simp] theorem State.setChip_time (s : State) (c : ChipIndex) (x : Chip) : (s.setChip c x).time = s.time := rfl
@[simp] theorem State.setChip_queue (s : State) (c : ChipIndex) (x : Chip) : (s.setChip c x).queue = s.queue := rfl
@[simp] theorem State.setChip_nextSeq (s : State) (c : ChipIndex) (x : Chip) : (s.setChip c x).nextSeq = s.nextSeq := rfl
@[simp] theorem State.setChip_faulted (s : State) (c : ChipIndex) (x : Chip) : (s.setChip c x).faulted = s.faulted := rfl
@[simp] theorem State.setChip_chipSel (s : State) (c : ChipIndex) (x : Chip) : (s.setChip c x).chipSel = s.chipSel := rfl
@[simp] theorem State.setChip_input (s : State) (c : ChipIndex) (x : Chip) : (s.setChip c x).input = s.input := rfl
@[simp] theorem State.setChip_callbacks (s : State) (c : ChipIndex) (x : Chip) : (s.setChip c x).callbacks = s.callbacks := rfl
@[simp] theorem State.setChip_outputs (s : State) (c : ChipIndex) (x : Chip) : (s.setChip c x).outputs = s.outputs := rfl

/-! ### `State.cancel` and `State.getTime` -/

@[simp] theorem State.cancel_params (s : State) (e : EventId) : (s.cancel e).params = s.params := rfl
@[simp] theorem State.cancel_chips (s : State) (e : EventId) : (s.cancel e).chips = s.chips := rfl
@[simp] theorem State.cancel_time (s : State) (e : EventId) : (s.cancel e).time = s.time := rfl
@[simp] theorem State.cancel_queue (s : State) (e : EventId) : (s.cancel e).queue = queueRemove e s.queue := rfl
@[simp] theorem State.cancel_nextSeq (s : State) (e : EventId) : (s.cancel e).nextSeq = s.nextSeq := rfl
@[simp] theorem State.cancel_faulted (s : State) (e : EventId) : (s.cancel e).faulted = s.faulted := rfl
@[simp] theorem State.cancel_chipSel (s : State) (e : EventId) : (s.cancel e).chipSel = s.chipSel := rfl
@[simp] theorem State.cancel_input (s : State) (e : EventId) : (s.cancel e).input = s.input := rfl
@[simp] theorem State.cancel_callbacks (s : State) (e : EventId) : (s.cancel e).callbacks = s.callbacks := rfl
@[simp] theorem State.cancel_outputs (s : State) (e : EventId) : (s.cancel e).outputs = s.outputs := rfl

/-! ### `State.drive`, `State.driveInput` and `State.supply` -/

/-- Driving an input of a chip the block has stores that chip. -/
theorem State.drive_of_present {s : State} {i : ChipIndex} {c : Chip} (h : s.chips[i]? = some c) (f : Chip → Chip) :
    s.drive i f = s.setChip i (f c) := by
  simp [State.drive, State.chip?, h]

theorem State.drive_of_absent {s : State} {i : ChipIndex} (h : s.chips.length ≤ i) (f : Chip → Chip) : s.drive i f = s := by
  simp [State.drive, State.chip?, List.getElem?_eq_none h]

/-- Driving an input changes only the chips. -/
theorem State.drive_changes (s : State) (i : ChipIndex) (f : Chip → Chip) :
    ∃ cs, s.drive i f = { s with chips := cs } ∧ cs.length = s.chips.length := by
  unfold State.drive
  split
  · exact ⟨_, rfl, by simp⟩
  · exact ⟨s.chips, rfl, rfl⟩

theorem State.driveInput_changes (s : State) (inp : HostInput) :
    ∃ cs, s.driveInput inp = { s with chips := cs } ∧ cs.length = s.chips.length := by
  cases inp <;> exact State.drive_changes _ _ _

@[simp] theorem State.driveInput_params (s : State) (inp : HostInput) : (s.driveInput inp).params = s.params := by
  obtain ⟨cs, h, _⟩ := s.driveInput_changes inp; rw [h]
@[simp] theorem State.driveInput_time (s : State) (inp : HostInput) : (s.driveInput inp).time = s.time := by
  obtain ⟨cs, h, _⟩ := s.driveInput_changes inp; rw [h]
@[simp] theorem State.driveInput_queue (s : State) (inp : HostInput) : (s.driveInput inp).queue = s.queue := by
  obtain ⟨cs, h, _⟩ := s.driveInput_changes inp; rw [h]
@[simp] theorem State.driveInput_nextSeq (s : State) (inp : HostInput) : (s.driveInput inp).nextSeq = s.nextSeq := by
  obtain ⟨cs, h, _⟩ := s.driveInput_changes inp; rw [h]
@[simp] theorem State.driveInput_faulted (s : State) (inp : HostInput) : (s.driveInput inp).faulted = s.faulted := by
  obtain ⟨cs, h, _⟩ := s.driveInput_changes inp; rw [h]
@[simp] theorem State.driveInput_chipSel (s : State) (inp : HostInput) : (s.driveInput inp).chipSel = s.chipSel := by
  obtain ⟨cs, h, _⟩ := s.driveInput_changes inp; rw [h]
@[simp] theorem State.driveInput_input (s : State) (inp : HostInput) : (s.driveInput inp).input = s.input := by
  obtain ⟨cs, h, _⟩ := s.driveInput_changes inp; rw [h]
@[simp] theorem State.driveInput_callbacks (s : State) (inp : HostInput) : (s.driveInput inp).callbacks = s.callbacks := by
  obtain ⟨cs, h, _⟩ := s.driveInput_changes inp; rw [h]
@[simp] theorem State.driveInput_outputs (s : State) (inp : HostInput) : (s.driveInput inp).outputs = s.outputs := by
  obtain ⟨cs, h, _⟩ := s.driveInput_changes inp; rw [h]

/-- Supplying a callback sequence changes only the supply. -/
theorem State.supply_eq (s : State) (e : EventId) (ops : List CallOp) :
    s.supply e ops = { s with
      callbacks := if callbackWellFormed s.chips.length s.params.events (e, ops) then s.callbacks ++ [(e, ops)] else s.callbacks } := by
  unfold State.supply
  split <;> rfl

@[simp] theorem State.supply_params (s : State) (e : EventId) (ops : List CallOp) : (s.supply e ops).params = s.params := by
  rw [State.supply_eq]
@[simp] theorem State.supply_chips (s : State) (e : EventId) (ops : List CallOp) : (s.supply e ops).chips = s.chips := by
  rw [State.supply_eq]
@[simp] theorem State.supply_time (s : State) (e : EventId) (ops : List CallOp) : (s.supply e ops).time = s.time := by
  rw [State.supply_eq]
@[simp] theorem State.supply_queue (s : State) (e : EventId) (ops : List CallOp) : (s.supply e ops).queue = s.queue := by
  rw [State.supply_eq]
@[simp] theorem State.supply_nextSeq (s : State) (e : EventId) (ops : List CallOp) : (s.supply e ops).nextSeq = s.nextSeq := by
  rw [State.supply_eq]
@[simp] theorem State.supply_faulted (s : State) (e : EventId) (ops : List CallOp) : (s.supply e ops).faulted = s.faulted := by
  rw [State.supply_eq]
@[simp] theorem State.supply_chipSel (s : State) (e : EventId) (ops : List CallOp) : (s.supply e ops).chipSel = s.chipSel := by
  rw [State.supply_eq]
@[simp] theorem State.supply_input (s : State) (e : EventId) (ops : List CallOp) : (s.supply e ops).input = s.input := by
  rw [State.supply_eq]
@[simp] theorem State.supply_outputs (s : State) (e : EventId) (ops : List CallOp) : (s.supply e ops).outputs = s.outputs := by
  rw [State.supply_eq]

/-! ### `withSelected` -/

@[simp] theorem withSelected_params (s : State) (c : Chip) : (withSelected s c).params = s.params := rfl
@[simp] theorem withSelected_chips (s : State) (c : Chip) : (withSelected s c).chips = s.chips.set s.chipSel c := rfl
@[simp] theorem withSelected_time (s : State) (c : Chip) : (withSelected s c).time = s.time := rfl
@[simp] theorem withSelected_queue (s : State) (c : Chip) : (withSelected s c).queue = s.queue := rfl
@[simp] theorem withSelected_nextSeq (s : State) (c : Chip) : (withSelected s c).nextSeq = s.nextSeq := rfl
@[simp] theorem withSelected_faulted (s : State) (c : Chip) : (withSelected s c).faulted = s.faulted := rfl
@[simp] theorem withSelected_chipSel (s : State) (c : Chip) : (withSelected s c).chipSel = s.chipSel := rfl
@[simp] theorem withSelected_input (s : State) (c : Chip) : (withSelected s c).input = s.input := rfl
@[simp] theorem withSelected_callbacks (s : State) (c : Chip) : (withSelected s c).callbacks = s.callbacks := rfl
@[simp] theorem withSelected_outputs (s : State) (c : Chip) : (withSelected s c).outputs = s.outputs := rfl

theorem State.setChip_chipSel_eq (s : State) (c : Chip) : s.setChip s.chipSel c = withSelected s c := rfl

/-! ### The voices of a chip -/

@[simp] theorem Chip.voice_setVoice_self (c : Chip) (i : VoiceId) (v : Voice) : (c.setVoice i v).voice i = v := by
  cases i <;> rfl

theorem Chip.voice_setVoice_of_ne (c : Chip) (v : Voice) {i j : VoiceId} (h : j ≠ i) :
    (c.setVoice i v).voice j = c.voice j := by
  cases i <;> cases j <;> first | rfl | exact absurd rfl h

@[simp] theorem Chip.voice_mapWave_self (c : Chip) (i : VoiceId) (f : Wave → Wave) :
    (c.mapWave i f).voice i = { c.voice i with wave := f (c.voice i).wave } := by
  simp [Chip.mapWave]

@[simp] theorem Chip.voice_mapEnv_self (c : Chip) (i : VoiceId) (f : Env → Env) :
    (c.mapEnv i f).voice i = { c.voice i with env := f (c.voice i).env } := by
  simp [Chip.mapEnv]

theorem Chip.voice_mapWave_of_ne (c : Chip) (f : Wave → Wave) {i j : VoiceId} (h : j ≠ i) :
    (c.mapWave i f).voice j = c.voice j := Chip.voice_setVoice_of_ne c _ h

theorem Chip.voice_mapEnv_of_ne (c : Chip) (f : Env → Env) {i j : VoiceId} (h : j ≠ i) :
    (c.mapEnv i f).voice j = c.voice j := Chip.voice_setVoice_of_ne c _ h

/-! ### `Chip.setVoice` -/

@[simp] theorem Chip.setVoice_model (c : Chip) (i : VoiceId) (v : Voice) : (c.setVoice i v).model = c.model := by cases i <;> rfl
@[simp] theorem Chip.setVoice_filter (c : Chip) (i : VoiceId) (v : Voice) : (c.setVoice i v).filter = c.filter := by cases i <;> rfl
@[simp] theorem Chip.setVoice_ext (c : Chip) (i : VoiceId) (v : Voice) : (c.setVoice i v).ext = c.ext := by cases i <;> rfl
@[simp] theorem Chip.setVoice_busValue (c : Chip) (i : VoiceId) (v : Voice) : (c.setVoice i v).busValue = c.busValue := by cases i <;> rfl
@[simp] theorem Chip.setVoice_busTtl (c : Chip) (i : VoiceId) (v : Voice) : (c.setVoice i v).busTtl = c.busTtl := by cases i <;> rfl
@[simp] theorem Chip.setVoice_cycles (c : Chip) (i : VoiceId) (v : Voice) : (c.setVoice i v).cycles = c.cycles := by cases i <;> rfl
@[simp] theorem Chip.setVoice_nextVoiceSync (c : Chip) (i : VoiceId) (v : Voice) : (c.setVoice i v).nextVoiceSync = c.nextVoiceSync := by cases i <;> rfl
@[simp] theorem Chip.setVoice_potX (c : Chip) (i : VoiceId) (v : Voice) : (c.setVoice i v).potX = c.potX := by cases i <;> rfl
@[simp] theorem Chip.setVoice_potY (c : Chip) (i : VoiceId) (v : Voice) : (c.setVoice i v).potY = c.potY := by cases i <;> rfl
@[simp] theorem Chip.setVoice_mute1 (c : Chip) (i : VoiceId) (v : Voice) : (c.setVoice i v).mute1 = c.mute1 := by cases i <;> rfl
@[simp] theorem Chip.setVoice_mute2 (c : Chip) (i : VoiceId) (v : Voice) : (c.setVoice i v).mute2 = c.mute2 := by cases i <;> rfl
@[simp] theorem Chip.setVoice_mute3 (c : Chip) (i : VoiceId) (v : Voice) : (c.setVoice i v).mute3 = c.mute3 := by cases i <;> rfl
@[simp] theorem Chip.setVoice_extIn (c : Chip) (i : VoiceId) (v : Voice) : (c.setVoice i v).extIn = c.extIn := by cases i <;> rfl

/-! ### `Chip.mapWave` -/

@[simp] theorem Chip.mapWave_model (c : Chip) (i : VoiceId) (f : Wave → Wave) : (c.mapWave i f).model = c.model := by cases i <;> rfl
@[simp] theorem Chip.mapWave_filter (c : Chip) (i : VoiceId) (f : Wave → Wave) : (c.mapWave i f).filter = c.filter := by cases i <;> rfl
@[simp] theorem Chip.mapWave_ext (c : Chip) (i : VoiceId) (f : Wave → Wave) : (c.mapWave i f).ext = c.ext := by cases i <;> rfl
@[simp] theorem Chip.mapWave_busValue (c : Chip) (i : VoiceId) (f : Wave → Wave) : (c.mapWave i f).busValue = c.busValue := by cases i <;> rfl
@[simp] theorem Chip.mapWave_busTtl (c : Chip) (i : VoiceId) (f : Wave → Wave) : (c.mapWave i f).busTtl = c.busTtl := by cases i <;> rfl
@[simp] theorem Chip.mapWave_cycles (c : Chip) (i : VoiceId) (f : Wave → Wave) : (c.mapWave i f).cycles = c.cycles := by cases i <;> rfl
@[simp] theorem Chip.mapWave_nextVoiceSync (c : Chip) (i : VoiceId) (f : Wave → Wave) : (c.mapWave i f).nextVoiceSync = c.nextVoiceSync := by cases i <;> rfl
@[simp] theorem Chip.mapWave_potX (c : Chip) (i : VoiceId) (f : Wave → Wave) : (c.mapWave i f).potX = c.potX := by cases i <;> rfl
@[simp] theorem Chip.mapWave_potY (c : Chip) (i : VoiceId) (f : Wave → Wave) : (c.mapWave i f).potY = c.potY := by cases i <;> rfl
@[simp] theorem Chip.mapWave_mute1 (c : Chip) (i : VoiceId) (f : Wave → Wave) : (c.mapWave i f).mute1 = c.mute1 := by cases i <;> rfl
@[simp] theorem Chip.mapWave_mute2 (c : Chip) (i : VoiceId) (f : Wave → Wave) : (c.mapWave i f).mute2 = c.mute2 := by cases i <;> rfl
@[simp] theorem Chip.mapWave_mute3 (c : Chip) (i : VoiceId) (f : Wave → Wave) : (c.mapWave i f).mute3 = c.mute3 := by cases i <;> rfl
@[simp] theorem Chip.mapWave_extIn (c : Chip) (i : VoiceId) (f : Wave → Wave) : (c.mapWave i f).extIn = c.extIn := by cases i <;> rfl

/-! ### `Chip.mapEnv` -/

@[simp] theorem Chip.mapEnv_model (c : Chip) (i : VoiceId) (f : Env → Env) : (c.mapEnv i f).model = c.model := by cases i <;> rfl
@[simp] theorem Chip.mapEnv_filter (c : Chip) (i : VoiceId) (f : Env → Env) : (c.mapEnv i f).filter = c.filter := by cases i <;> rfl
@[simp] theorem Chip.mapEnv_ext (c : Chip) (i : VoiceId) (f : Env → Env) : (c.mapEnv i f).ext = c.ext := by cases i <;> rfl
@[simp] theorem Chip.mapEnv_busValue (c : Chip) (i : VoiceId) (f : Env → Env) : (c.mapEnv i f).busValue = c.busValue := by cases i <;> rfl
@[simp] theorem Chip.mapEnv_busTtl (c : Chip) (i : VoiceId) (f : Env → Env) : (c.mapEnv i f).busTtl = c.busTtl := by cases i <;> rfl
@[simp] theorem Chip.mapEnv_cycles (c : Chip) (i : VoiceId) (f : Env → Env) : (c.mapEnv i f).cycles = c.cycles := by cases i <;> rfl
@[simp] theorem Chip.mapEnv_nextVoiceSync (c : Chip) (i : VoiceId) (f : Env → Env) : (c.mapEnv i f).nextVoiceSync = c.nextVoiceSync := by cases i <;> rfl
@[simp] theorem Chip.mapEnv_potX (c : Chip) (i : VoiceId) (f : Env → Env) : (c.mapEnv i f).potX = c.potX := by cases i <;> rfl
@[simp] theorem Chip.mapEnv_potY (c : Chip) (i : VoiceId) (f : Env → Env) : (c.mapEnv i f).potY = c.potY := by cases i <;> rfl
@[simp] theorem Chip.mapEnv_mute1 (c : Chip) (i : VoiceId) (f : Env → Env) : (c.mapEnv i f).mute1 = c.mute1 := by cases i <;> rfl
@[simp] theorem Chip.mapEnv_mute2 (c : Chip) (i : VoiceId) (f : Env → Env) : (c.mapEnv i f).mute2 = c.mute2 := by cases i <;> rfl
@[simp] theorem Chip.mapEnv_mute3 (c : Chip) (i : VoiceId) (f : Env → Env) : (c.mapEnv i f).mute3 = c.mute3 := by cases i <;> rfl
@[simp] theorem Chip.mapEnv_extIn (c : Chip) (i : VoiceId) (f : Env → Env) : (c.mapEnv i f).extIn = c.extIn := by cases i <;> rfl

theorem Chip.muted_of_mutes {c c' : Chip} (h1 : c'.mute1 = c.mute1) (h2 : c'.mute2 = c.mute2) (h3 : c'.mute3 = c.mute3)
    (v : VoiceId) : c'.muted v = c.muted v := by
  cases v <;> assumption

/-- A chip is its fields: two chips with the same voices and the same other fields are equal. -/
theorem Chip.voices_eq {c c' : Chip} (h : ∀ v, c'.voice v = c.voice v) :
    c'.voice1 = c.voice1 ∧ c'.voice2 = c.voice2 ∧ c'.voice3 = c.voice3 := ⟨h .v1, h .v2, h .v3⟩

end Sys2Proof.Machine
end

