-- ==== Sys2Proof/Laws/Envelope.lean ====
section
/-! SUPPORT. What the steps of an envelope generator can do: one lemma per step names the only fields it can change; and the rate
table and the rate LFSR. -/

namespace Sys2Proof.Machine

theorem adsrRate_mem (r : BitVec 4) : adsrRate r ∈ adsrTable := by
  revert r; decide

theorem hiNibble_sustainLevel (s : BitVec 4) : hiNibble (sustainLevel s) = loNibble (sustainLevel s) := by
  revert s; decide

theorem lfsrNext_ne_zero {l : BitVec 15} (h : l ≠ 0) : lfsrNext l ≠ 0 := by
  intro h0
  apply h
  have hb : ∀ k, (lfsrNext l).getLsbD k = false := by simp [h0]
  apply BitVec.eq_of_getLsbD_eq
  have hup : ∀ k, 1 ≤ k → k < 15 → l.getLsbD k = false := by
    intro k hk1 hk2
    have := hb (k - 1)
    have e : 1 + (k - 1) = k := by omega
    rw [lfsrNext, BitVec.getLsbD_or, BitVec.getLsbD_ushiftRight, e] at this
    cases hl : l.getLsbD k
    · rfl
    · rw [hl] at this; simp at this
  have h14 := hb 14
  have h1 := hup 1 (by omega) (by omega)
  intro k hk
  by_cases hk0 : k = 0
  · subst hk0
    have h01 : l.getLsbD 0 = l.getLsbD 1 := by simpa [lfsrNext] using h14
    rw [h01, h1]
    rfl
  · simpa using hup k (by omega) hk

/-! ### The parts of the clock step -/

theorem Env.stateChange_changes (e : Env) :
    ∃ st r ce, e.stateChange =
      { e with statePipeline := e.statePipeline - 1, state := st, rate := r, counterEnabled := ce } := by
  unfold Env.stateChange
  dsimp only
  split
  · split
    · exact ⟨_, _, _, rfl⟩
    · split <;> exact ⟨_, _, _, rfl⟩
  · split <;> exact ⟨_, _, _, rfl⟩
  · split <;> exact ⟨_, _, _, rfl⟩

/-- A gate-off in Attack enters Release at the second pending state change, or the third if an envelope step is pending, and not before
(rules R203, R207, R396). -/
theorem Env.release_latency_attack (e : Env) (h : e.state = .attack) :
    let c := Env.stateChange
    (c e.gateOff).state = .attack ∧
    (e.envelopePipeline = 0 → (c (c e.gateOff)).state = .release) ∧
    (e.envelopePipeline ≠ 0 → (c (c e.gateOff)).state = .attack ∧ (c (c (c e.gateOff))).state = .release) := by
  by_cases hp : e.envelopePipeline = 0#3 <;> simp [Env.gateOff, Env.stateChange, h, hp]

/-- A gate-off in DecaySustain enters Release one state change earlier (rules R203, R207; log entry 27). -/
theorem Env.release_latency_decaySustain (e : Env) (h : e.state = .decaySustain) :
    let c := Env.stateChange
    (e.envelopePipeline = 0 → (c e.gateOff).state = .release) ∧
    (e.envelopePipeline ≠ 0 → (c e.gateOff).state = .decaySustain ∧ (c (c e.gateOff)).state = .release) := by
  by_cases hp : e.envelopePipeline = 0#3 <;> simp [Env.gateOff, Env.stateChange, h, hp]

theorem Env.lookup_changes (e : Env) :
    ∃ p ce, e.lookup = { e with expPeriod := p, counterEnabled := ce } := by
  unfold Env.lookup
  split <;> exact ⟨_, _, rfl⟩

theorem Env.step_changes (e : Env) :
    ∃ n st nx r p ce, e.step =
      { e with envelopeCounter := n, state := st, nextState := nx, rate := r, expPeriod := p, counterEnabled := ce } := by
  unfold Env.step
  dsimp only
  split
  · split
    · obtain ⟨_, _, h⟩ := Env.lookup_changes _; rw [h]; exact ⟨_, _, _, _, _, _, rfl⟩
    · obtain ⟨_, _, h⟩ := Env.lookup_changes _; rw [h]; exact ⟨_, _, _, _, _, _, rfl⟩
  · split
    · obtain ⟨_, _, h⟩ := e.lookup_changes; rw [h]; exact ⟨_, _, _, _, _, _, rfl⟩
    · obtain ⟨_, _, h⟩ := Env.lookup_changes _; rw [h]; exact ⟨_, _, _, _, _, _, rfl⟩
  · obtain ⟨_, _, h⟩ := Env.lookup_changes _; rw [h]; exact ⟨_, _, _, _, _, _, rfl⟩

theorem Env.clockLatch_changes (e : Env) :
    ∃ sp st r ce, e.clockLatch =
      { e with env3 := e.envelopeCounter, statePipeline := sp, state := st, rate := r, counterEnabled := ce } := by
  unfold Env.clockLatch
  dsimp only
  split
  · exact ⟨_, _, _, _, rfl⟩
  · obtain ⟨_, _, _, h⟩ := Env.stateChange_changes _; rw [h]; exact ⟨_, _, _, _, rfl⟩

theorem Env.clockCounter_changes (e : Env) :
    ∃ ep xp n st nx r p ce xc l rl, e.clockCounter =
      { e with envelopePipeline := ep, exponentialPipeline := xp, envelopeCounter := n, state := st, nextState := nx,
               rate := r, expPeriod := p, counterEnabled := ce, expCounter := xc, lfsr := l, resetLfsr := rl } := by
  unfold Env.clockCounter
  split
  · unfold Env.clockEnvelope
    dsimp only
    split
    · obtain ⟨_, _, _, _, _, _, h⟩ := Env.step_changes _; rw [h]; exact ⟨_, _, _, _, _, _, _, _, _, _, _, rfl⟩
    · exact ⟨_, _, _, _, _, _, _, _, _, _, _, rfl⟩
  · split
    · unfold Env.clockExponential
      dsimp only
      split <;> exact ⟨_, _, _, _, _, _, _, _, _, _, _, rfl⟩
    · split
      · unfold Env.clockReset
        dsimp only
        split
        · exact ⟨_, _, _, _, _, _, _, _, _, _, _, rfl⟩
        · split <;> exact ⟨_, _, _, _, _, _, _, _, _, _, _, rfl⟩
        · split <;> exact ⟨_, _, _, _, _, _, _, _, _, _, _, rfl⟩
      · exact ⟨_, _, _, _, _, _, _, _, _, _, _, rfl⟩

theorem Env.lfsrStep_changes (e : Env) : ∃ l rl, e.lfsrStep = { e with lfsr := l, resetLfsr := rl } := by
  unfold Env.lfsrStep
  split <;> exact ⟨_, _, rfl⟩

/-- The fields that a clock step can change; the read-back latch takes the counter as it was (rule R206). -/
theorem Env.clock_changes (e : Env) :
    ∃ sp ep xp n st nx r p ce xc l rl, e.clock =
      { e with env3 := e.envelopeCounter, statePipeline := sp, envelopePipeline := ep, exponentialPipeline := xp,
               envelopeCounter := n, state := st, nextState := nx, rate := r, expPeriod := p, counterEnabled := ce,
               expCounter := xc, lfsr := l, resetLfsr := rl } := by
  unfold Env.clock
  obtain ⟨_, _, _, _, h1⟩ := e.clockLatch_changes
  rw [h1]
  obtain ⟨_, _, _, _, _, _, _, _, _, _, _, h2⟩ := Env.clockCounter_changes _
  rw [h2]
  obtain ⟨_, _, h3⟩ := Env.lfsrStep_changes _
  rw [h3]
  exact ⟨_, _, _, _, _, _, _, _, _, _, _, _, rfl⟩

@[simp] theorem Env.clock_env3 (e : Env) : e.clock.env3 = e.envelopeCounter := by
  obtain ⟨_, _, _, _, _, _, _, _, _, _, _, _, h⟩ := e.clock_changes; rw [h]

@[simp] theorem Env.clock_attack (e : Env) : e.clock.attack = e.attack := by
  obtain ⟨_, _, _, _, _, _, _, _, _, _, _, _, h⟩ := e.clock_changes; rw [h]

@[simp] theorem Env.clock_decay (e : Env) : e.clock.decay = e.decay := by
  obtain ⟨_, _, _, _, _, _, _, _, _, _, _, _, h⟩ := e.clock_changes; rw [h]

@[simp] theorem Env.clock_release (e : Env) : e.clock.release = e.release := by
  obtain ⟨_, _, _, _, _, _, _, _, _, _, _, _, h⟩ := e.clock_changes; rw [h]

@[simp] theorem Env.clock_sustain (e : Env) : e.clock.sustain = e.sustain := by
  obtain ⟨_, _, _, _, _, _, _, _, _, _, _, _, h⟩ := e.clock_changes; rw [h]

@[simp] theorem Env.clock_gate (e : Env) : e.clock.gate = e.gate := by
  obtain ⟨_, _, _, _, _, _, _, _, _, _, _, _, h⟩ := e.clock_changes; rw [h]

end Sys2Proof.Machine
end

