-- ==== Sys2Proof/Laws/Ops.lean ====
section
/-! SUPPORT. What each shared operation of the block can do: an operation in the fault state, a port transaction on a chip the block
has, and the effect of a bus write and a bus read on a chip. -/

namespace Sys2Proof.Machine

/-! ### Operations and the fault state -/

theorem operation_of_faulted {s : State} {f : BlockFault} (h : s.faulted = some f) (run : State → Out) :
    operation s run = .next (s.emit .faultReturned) := by
  simp [operation, h]

theorem operation_of_running {s : State} (h : s.faulted = none) (run : State → Out) : operation s run = run s := by
  simp [operation, h]

/-- An operation that answers a next state either returned `FAULT` or ran. -/
theorem operation_next_cases {s t : State} {run : State → Out} (h : operation s run = .next t) :
    (∃ f, s.faulted = some f ∧ t = s.emit .faultReturned) ∨ (s.faulted = none ∧ run s = .next t) := by
  unfold operation at h
  split at h
  · next f hf => injection h with h; exact .inl ⟨f, hf, h.symm⟩
  · next hf => exact .inr ⟨hf, h⟩

theorem onSelected_of_selected {s : State} {c : Chip} (h : s.chips[s.chipSel]? = some c) (run : Chip → State) :
    onSelected s run = .next (run c) := by
  simp [onSelected, State.chip?, h]

theorem onSelected_next_cases {s t : State} {run : Chip → State} (h : onSelected s run = .next t) :
    ∃ c, s.chips[s.chipSel]? = some c ∧ t = run c := by
  unfold onSelected State.chip? at h
  split at h
  · next c hc => injection h with h; exact ⟨c, hc, h.symm⟩
  · cases h

/-! ### Port transactions on a ready block -/

theorem portWrite_of_ready {s : State} {c : Chip} (h : Ready s c) (off : Offset) (reg : RegisterRule) (d : Byte) :
    portWrite off reg d s = .next (withSelected s (c.busWrite s.params off reg d)) := by
  rw [portWrite, operation_of_running h.no_fault, onSelected_of_selected h.selected]; rfl

theorem portRead_of_ready {s : State} {c : Chip} (h : Ready s c) (read : ReadRule) :
    portRead read s = .next ((withSelected s (read c).1).emit (.byte s.chipSel (read c).2)) := by
  rw [portRead, operation_of_running h.no_fault, onSelected_of_selected h.selected]; rfl

theorem clockChip_of_present {s : State} {i : ChipIndex} {c : Chip} (h : s.chips[i]? = some c) :
    s.clockChip i = (s.setChip i (c.cycle s.params).1).emit (.sample i (c.cycle s.params).2) := by
  simp [State.clockChip, State.chip?, h]

theorem portClock_of_ready {s : State} {c : Chip} (h : Ready s c) :
    portClock s = .next ((withSelected s (c.cycle s.params).1).emit (.sample s.chipSel (c.cycle s.params).2)) := by
  rw [portClock, operation_of_running h.no_fault, onSelected_of_selected h.selected, clockChip_of_present h.selected]; rfl

theorem portReset_of_ready {s : State} {c : Chip} (h : Ready s c) :
    portReset s = .next (withSelected s (c.chipReset s.params)) := by
  rw [portReset, operation_of_running h.no_fault, onSelected_of_selected h.selected]; rfl

/-- Storing the selected chip as it is changes nothing. -/
theorem withSelected_self {s : State} {c : Chip} (h : s.chips[s.chipSel]? = some c) : withSelected s c = s := by
  unfold withSelected
  have hs : s.chips.set s.chipSel c = s.chips := by
    apply List.ext_getElem?
    intro k
    rw [List.getElem?_set]
    split
    · next hk => subst hk; split
                 · exact h.symm
                 · next hlt => rw [List.getElem?_eq_none (Nat.le_of_not_lt hlt)] at h; cases h
    · rfl
  rw [hs]

/-! ### Bus writes and reads -/

theorem controlVoice_of (v : VoiceId) :
    controlVoice (match v with | .v1 => 0x04#5 | .v2 => 0x0B#5 | .v3 => 0x12#5) = some v := by
  cases v <;> rfl

/-- A register rule changes nothing of a chip but its voices and its filter. -/
structure RegisterOnly (reg : RegisterRule) : Prop where
  frame : ∀ p d c, ChipFrame c (reg p d c)
  bus_value : ∀ p d c, (reg p d c).busValue = c.busValue
  bus_ttl : ∀ p d c, (reg p d c).busTtl = c.busTtl

theorem registerOnly_mapWave (v : VoiceId) (f : Params → Byte → Chip → Wave → Wave) :
    RegisterOnly fun p d c => c.mapWave v (f p d c) :=
  ⟨fun p d c => ⟨by simp, by simp, by simp, by simp, by simp, Chip.muted_of_mutes (by simp) (by simp) (by simp), by simp⟩,
    by simp, by simp⟩

theorem registerOnly_mapEnv (v : VoiceId) (f : Params → Byte → Chip → Env → Env) :
    RegisterOnly fun p d c => c.mapEnv v (f p d c) :=
  ⟨fun p d c => ⟨by simp, by simp, by simp, by simp, by simp, Chip.muted_of_mutes (by simp) (by simp) (by simp), by simp⟩,
    by simp, by simp⟩

theorem registerOnly_control (v : VoiceId) : RegisterOnly (regControl v) :=
  ⟨fun p d c => ⟨by simp [regControl], by simp [regControl], by simp [regControl], by simp [regControl], by simp [regControl],
      Chip.muted_of_mutes (by simp [regControl]) (by simp [regControl]) (by simp [regControl]), by simp [regControl]⟩,
    by simp [regControl], by simp [regControl]⟩

theorem registerOnly_filter (f : Byte → Filter → Filter) :
    RegisterOnly fun _ d c => { c with filter := f d c.filter } :=
  ⟨fun _ _ _ => ⟨rfl, rfl, rfl, rfl, rfl, fun v => by cases v <;> rfl, rfl⟩, fun _ _ _ => rfl, fun _ _ _ => rfl⟩

theorem registerOnly_none : RegisterOnly regNone :=
  ⟨fun _ _ _ => ⟨rfl, rfl, rfl, rfl, rfl, fun v => by cases v <;> rfl, rfl⟩, fun _ _ _ => rfl, fun _ _ _ => rfl⟩

/-- The common part of a bus write (rule R320). -/
theorem busLoaded_busWrite {reg : RegisterRule} (h : RegisterOnly reg) (p : Params) (off : Offset) (d : Byte) (c : Chip) :
    BusLoaded d c (c.busWrite p off reg d) where
  frame := by
    have hf := h.frame p (c.gated off d) { c with busValue := d, busTtl := busTtlOf c.model }
    exact ⟨hf.model, hf.ext, hf.cycles, hf.pot_x, hf.pot_y,
      fun v => by have := hf.mute v; cases v <;> exact this, hf.ext_in⟩
  value := h.bus_value p (c.gated off d) { c with busValue := d, busTtl := busTtlOf c.model }
  ttl := by
    have := h.bus_ttl p (c.gated off d) { c with busValue := d, busTtl := busTtlOf c.model }
    cases hm : c.model <;> simp_all [Chip.busWrite, busTtlOf]
  deadline := rfl

theorem busWrite_voice (p : Params) (off : Offset) (reg : RegisterRule) (d : Byte) (c : Chip) (v : VoiceId) :
    (c.busWrite p off reg d).voice v =
      (reg p (c.gated off d) { c with busValue := d, busTtl := busTtlOf c.model }).voice v := by
  cases v <;> rfl

theorem busWrite_filter (p : Params) (off : Offset) (reg : RegisterRule) (d : Byte) (c : Chip) :
    (c.busWrite p off reg d).filter =
      (reg p (c.gated off d) { c with busValue := d, busTtl := busTtlOf c.model }).filter := rfl

theorem gated_of_not_control {off : Offset} (h : controlVoice off = none) (c : Chip) (d : Byte) : c.gated off d = d := by
  simp [Chip.gated, h]

theorem gated_of_control {off : Offset} {v : VoiceId} (h : controlVoice off = some v) (c : Chip) (d : Byte) :
    c.gated off d = delivered c v d := by
  simp [Chip.gated, h, delivered]

@[simp] theorem voice_loaded (c : Chip) (d : Byte) (ttl : BitVec 32) (v : VoiceId) :
    Chip.voice { c with busValue := d, busTtl := ttl } v = c.voice v := by
  cases v <;> rfl

theorem sameButBus_halveBus (c : Chip) : SameButBus c c.halveBus :=
  ⟨⟨rfl, rfl, rfl, rfl, rfl, fun v => by cases v <;> rfl, rfl⟩, fun v => by cases v <;> rfl, rfl, rfl⟩

end Sys2Proof.Machine
end

