-- ==== Sys2Proof/Laws/Waveform.lean ====
section
/-! SUPPORT. What the steps of a waveform generator can do: one lemma per step names the only fields it can change, and the frame
lemmas follow from it; and the bits of the LFSR masks. -/

namespace Sys2Proof.Machine

/-! ### The CONTROL write -/

/-- The fields that the selection part of a CONTROL write can change (rule R144). -/
theorem Wave.select_changes (ttl : BitVec 32) (d : Byte) (v : Wave) :
    ∃ nn np t, v.select ttl d =
      { v with waveform := hiNibble d, test := d.getLsbD 3, ring := d.getLsbD 2, sync := d.getLsbD 1,
               ringMsbMask := ringMask (d.getLsbD 2) (hiNibble d), noNoise := nn, noPulse := np, floatingTtl := t } := by
  unfold Wave.select
  dsimp only
  split
  · exact ⟨_, _, _, rfl⟩
  · exact ⟨_, _, _, rfl⟩

theorem Wave.writeControl_of_same_test {v : Wave} {d : Byte} (h : d.getLsbD 3 = v.test) (srr ttl : BitVec 32) :
    v.writeControl srr ttl d = v.select ttl d := by
  unfold Wave.writeControl
  rw [h]
  cases v.test <;> rfl

theorem Wave.writeControl_of_rise {v : Wave} {d : Byte} (ht : v.test = false) (h : d.getLsbD 3 = true)
    (srr ttl : BitVec 32) : v.writeControl srr ttl d = (v.select ttl d).testRise srr v.waveform := by
  unfold Wave.writeControl
  rw [h, ht]
  rfl

theorem Wave.writeControl_of_fall {v : Wave} {d : Byte} (ht : v.test = true) (h : d.getLsbD 3 = false)
    (srr ttl : BitVec 32) : v.writeControl srr ttl d = (v.select ttl d).testFall := by
  unfold Wave.writeControl
  rw [h, ht]
  rfl

/-! ### The clock step -/

theorem Wave.clockNoise_changes (b : Bool) (v : Wave) :
    ∃ sp sr no, v.clockNoise b = { v with shiftPipeline := sp, sr := sr, noiseOutput := no } := by
  unfold Wave.clockNoise
  split
  · exact ⟨_, _, _, rfl⟩
  · split
    · exact ⟨_, _, _, rfl⟩
    · split <;> exact ⟨_, _, _, rfl⟩

theorem Wave.clockTest_changes (v : Wave) :
    ∃ srr sr no, v.clockTest =
      { v with srrCount := srr, sr := sr, noiseOutput := no, pulseOutput := 0xFFF#12, msbRising := false } := by
  unfold Wave.clockTest
  dsimp only
  split
  · exact ⟨_, _, _, rfl⟩
  · split <;> exact ⟨_, _, _, rfl⟩

theorem Wave.clockRun_changes (v : Wave) :
    ∃ sp sr no, v.clockRun =
      { v with acc := v.acc + v.freq.setWidth 24, msbRising := msbRose v.acc (v.acc + v.freq.setWidth 24),
               shiftPipeline := sp, sr := sr, noiseOutput := no } := by
  obtain ⟨sp, sr, no, h⟩ := Wave.clockNoise_changes (bitRose 19 v.acc (v.acc + v.freq.setWidth 24))
    { v with acc := v.acc + v.freq.setWidth 24, msbRising := msbRose v.acc (v.acc + v.freq.setWidth 24) }
  exact ⟨sp, sr, no, h⟩

/-- The fields that a clock step can change. -/
theorem Wave.clock_changes (v : Wave) :
    ∃ acc mr sp srr sr no po, v.clock =
      { v with acc := acc, msbRising := mr, shiftPipeline := sp, srrCount := srr, sr := sr, noiseOutput := no,
               pulseOutput := po } := by
  unfold Wave.clock
  split
  · obtain ⟨_, _, _, h⟩ := v.clockTest_changes; rw [h]; exact ⟨_, _, _, _, _, _, _, rfl⟩
  · obtain ⟨_, _, _, h⟩ := v.clockRun_changes; rw [h]; exact ⟨_, _, _, _, _, _, _, rfl⟩

@[simp] theorem Wave.clock_freq (v : Wave) : v.clock.freq = v.freq := by
  obtain ⟨_, _, _, _, _, _, _, h⟩ := v.clock_changes; rw [h]

@[simp] theorem Wave.clock_pw (v : Wave) : v.clock.pw = v.pw := by
  obtain ⟨_, _, _, _, _, _, _, h⟩ := v.clock_changes; rw [h]

@[simp] theorem Wave.clock_waveform (v : Wave) : v.clock.waveform = v.waveform := by
  obtain ⟨_, _, _, _, _, _, _, h⟩ := v.clock_changes; rw [h]

@[simp] theorem Wave.clock_test (v : Wave) : v.clock.test = v.test := by
  obtain ⟨_, _, _, _, _, _, _, h⟩ := v.clock_changes; rw [h]

@[simp] theorem Wave.clock_ring (v : Wave) : v.clock.ring = v.ring := by
  obtain ⟨_, _, _, _, _, _, _, h⟩ := v.clock_changes; rw [h]

@[simp] theorem Wave.clock_sync (v : Wave) : v.clock.sync = v.sync := by
  obtain ⟨_, _, _, _, _, _, _, h⟩ := v.clock_changes; rw [h]

@[simp] theorem Wave.clock_ringMsbMask (v : Wave) : v.clock.ringMsbMask = v.ringMsbMask := by
  obtain ⟨_, _, _, _, _, _, _, h⟩ := v.clock_changes; rw [h]

@[simp] theorem Wave.clock_noNoise (v : Wave) : v.clock.noNoise = v.noNoise := by
  obtain ⟨_, _, _, _, _, _, _, h⟩ := v.clock_changes; rw [h]

@[simp] theorem Wave.clock_noPulse (v : Wave) : v.clock.noPulse = v.noPulse := by
  obtain ⟨_, _, _, _, _, _, _, h⟩ := v.clock_changes; rw [h]

@[simp] theorem Wave.clock_waveformOutput (v : Wave) : v.clock.waveformOutput = v.waveformOutput := by
  obtain ⟨_, _, _, _, _, _, _, h⟩ := v.clock_changes; rw [h]

@[simp] theorem Wave.clock_osc3 (v : Wave) : v.clock.osc3 = v.osc3 := by
  obtain ⟨_, _, _, _, _, _, _, h⟩ := v.clock_changes; rw [h]

@[simp] theorem Wave.clock_triSawPipeline (v : Wave) : v.clock.triSawPipeline = v.triSawPipeline := by
  obtain ⟨_, _, _, _, _, _, _, h⟩ := v.clock_changes; rw [h]

@[simp] theorem Wave.clock_floatingTtl (v : Wave) : v.clock.floatingTtl = v.floatingTtl := by
  obtain ⟨_, _, _, _, _, _, _, h⟩ := v.clock_changes; rw [h]

theorem Wave.clock_of_test {v : Wave} (h : v.test = true) : v.clock = v.clockTest := by simp [Wave.clock, h]

theorem Wave.clock_of_running {v : Wave} (h : v.test = false) : v.clock = v.clockRun := by simp [Wave.clock, h]

theorem Wave.clock_acc (v : Wave) : v.clock.acc = if v.test then v.acc else v.acc + v.freq.setWidth 24 := by
  unfold Wave.clock
  split
  · obtain ⟨_, _, _, h⟩ := v.clockTest_changes; rw [h]
  · obtain ⟨_, _, _, h⟩ := v.clockRun_changes; rw [h]

theorem Wave.clock_msbRising (v : Wave) :
    v.clock.msbRising = (!v.test && msbRose v.acc (v.acc + v.freq.setWidth 24)) := by
  unfold Wave.clock
  split
  · next ht => obtain ⟨_, _, _, h⟩ := v.clockTest_changes; rw [h, ht]; rfl
  · next ht => obtain ⟨_, _, _, h⟩ := v.clockRun_changes; rw [h]; simp [ht]

/-! ### The output step -/

theorem Wave.float_changes (v : Wave) :
    ∃ ttl w, v.float = { v with floatingTtl := ttl, waveformOutput := w, osc3 := w } := by
  unfold Wave.float
  dsimp only
  split
  · exact ⟨_, _, rfl⟩
  · split <;> exact ⟨_, _, rfl⟩

theorem Wave.latchOsc3_changes (m : ChipModel) (base : BitVec 12) (v : Wave) :
    ∃ o t, v.latchOsc3 m base = { v with osc3 := o, triSawPipeline := t } := by
  unfold Wave.latchOsc3
  split <;> exact ⟨_, _, rfl⟩

theorem Wave.outputWriteBack_changes (v : Wave) :
    ∃ sr no, v.outputWriteBack = { v with sr := sr, noiseOutput := no } := by
  unfold Wave.outputWriteBack
  split <;> exact ⟨_, _, rfl⟩

/-- The fields that an output step can change. -/
theorem Wave.output_changes (p : Params) (m : ChipModel) (a : BitVec 24) (v : Wave) :
    ∃ ttl w o t sr no, v.output p m a =
      { v with floatingTtl := ttl, waveformOutput := w, osc3 := o, triSawPipeline := t, sr := sr, noiseOutput := no,
               pulseOutput := pulseLevel v.acc v.pw } := by
  unfold Wave.output Wave.comparePulse
  dsimp only
  split
  · obtain ⟨_, _, h⟩ := v.float_changes; rw [h]; exact ⟨_, _, _, _, _, _, rfl⟩
  · obtain ⟨_, _, h1⟩ := Wave.latchOsc3_changes m (waveBase p m (waveSelect v.waveform) (v.index a))
      (v.driven (waveBase p m (waveSelect v.waveform) (v.index a)))
    rw [h1]
    obtain ⟨_, _, h2⟩ := Wave.outputWriteBack_changes _
    rw [h2]
    exact ⟨_, _, _, _, _, _, rfl⟩

@[simp] theorem Wave.output_acc (p : Params) (m : ChipModel) (a : BitVec 24) (v : Wave) :
    (v.output p m a).acc = v.acc := by
  obtain ⟨_, _, _, _, _, _, h⟩ := v.output_changes p m a; rw [h]

@[simp] theorem Wave.output_freq (p : Params) (m : ChipModel) (a : BitVec 24) (v : Wave) :
    (v.output p m a).freq = v.freq := by
  obtain ⟨_, _, _, _, _, _, h⟩ := v.output_changes p m a; rw [h]

@[simp] theorem Wave.output_pw (p : Params) (m : ChipModel) (a : BitVec 24) (v : Wave) :
    (v.output p m a).pw = v.pw := by
  obtain ⟨_, _, _, _, _, _, h⟩ := v.output_changes p m a; rw [h]

@[simp] theorem Wave.output_waveform (p : Params) (m : ChipModel) (a : BitVec 24) (v : Wave) :
    (v.output p m a).waveform = v.waveform := by
  obtain ⟨_, _, _, _, _, _, h⟩ := v.output_changes p m a; rw [h]

@[simp] theorem Wave.output_test (p : Params) (m : ChipModel) (a : BitVec 24) (v : Wave) :
    (v.output p m a).test = v.test := by
  obtain ⟨_, _, _, _, _, _, h⟩ := v.output_changes p m a; rw [h]

@[simp] theorem Wave.output_ring (p : Params) (m : ChipModel) (a : BitVec 24) (v : Wave) :
    (v.output p m a).ring = v.ring := by
  obtain ⟨_, _, _, _, _, _, h⟩ := v.output_changes p m a; rw [h]

@[simp] theorem Wave.output_sync (p : Params) (m : ChipModel) (a : BitVec 24) (v : Wave) :
    (v.output p m a).sync = v.sync := by
  obtain ⟨_, _, _, _, _, _, h⟩ := v.output_changes p m a; rw [h]

@[simp] theorem Wave.output_shiftPipeline (p : Params) (m : ChipModel) (a : BitVec 24) (v : Wave) :
    (v.output p m a).shiftPipeline = v.shiftPipeline := by
  obtain ⟨_, _, _, _, _, _, h⟩ := v.output_changes p m a; rw [h]

@[simp] theorem Wave.output_srrCount (p : Params) (m : ChipModel) (a : BitVec 24) (v : Wave) :
    (v.output p m a).srrCount = v.srrCount := by
  obtain ⟨_, _, _, _, _, _, h⟩ := v.output_changes p m a; rw [h]

@[simp] theorem Wave.output_msbRising (p : Params) (m : ChipModel) (a : BitVec 24) (v : Wave) :
    (v.output p m a).msbRising = v.msbRising := by
  obtain ⟨_, _, _, _, _, _, h⟩ := v.output_changes p m a; rw [h]

@[simp] theorem Wave.output_ringMsbMask (p : Params) (m : ChipModel) (a : BitVec 24) (v : Wave) :
    (v.output p m a).ringMsbMask = v.ringMsbMask := by
  obtain ⟨_, _, _, _, _, _, h⟩ := v.output_changes p m a; rw [h]

@[simp] theorem Wave.output_noNoise (p : Params) (m : ChipModel) (a : BitVec 24) (v : Wave) :
    (v.output p m a).noNoise = v.noNoise := by
  obtain ⟨_, _, _, _, _, _, h⟩ := v.output_changes p m a; rw [h]

@[simp] theorem Wave.output_noPulse (p : Params) (m : ChipModel) (a : BitVec 24) (v : Wave) :
    (v.output p m a).noPulse = v.noPulse := by
  obtain ⟨_, _, _, _, _, _, h⟩ := v.output_changes p m a; rw [h]

@[simp] theorem Wave.output_pulseOutput (p : Params) (m : ChipModel) (a : BitVec 24) (v : Wave) :
    (v.output p m a).pulseOutput = pulseLevel v.acc v.pw := by
  obtain ⟨_, _, _, _, _, _, h⟩ := v.output_changes p m a; rw [h]

/-- The output step of waveform 0 is the floating step. -/
theorem Wave.output_of_zero {v : Wave} (h : v.waveform = 0) (p : Params) (m : ChipModel) (a : BitVec 24) :
    v.output p m a = v.float.comparePulse := by
  unfold Wave.output; rw [if_pos h]

/-- The output step of a selected waveform drives the DAC input with the gated base. -/
theorem Wave.output_waveformOutput {v : Wave} (h : v.waveform ≠ 0) (p : Params) (m : ChipModel) (a : BitVec 24) :
    (v.output p m a).waveformOutput = waveBase p m (waveSelect v.waveform) (v.index a) &&& v.gates := by
  unfold Wave.output Wave.comparePulse
  dsimp only
  rw [if_neg h]
  obtain ⟨_, _, h1⟩ := Wave.latchOsc3_changes m (waveBase p m (waveSelect v.waveform) (v.index a))
    (v.driven (waveBase p m (waveSelect v.waveform) (v.index a)))
  rw [h1]
  obtain ⟨_, _, h2⟩ := Wave.outputWriteBack_changes _
  rw [h2]
  rfl

/-- Only a selection that combines noise with another waveform is written back (rule R159). -/
theorem Wave.outputWriteBack_of_not_combined {v : Wave} (h : noiseCombined v.waveform = false) : v.outputWriteBack = v := by
  simp [Wave.outputWriteBack, h]

/-! ### The bits of the LFSR masks -/

theorem getLsbD_routeBit {n m : Nat} (x : BitVec n) (src dst k : Nat) :
    (routeBit x src dst : BitVec m).getLsbD k = (decide (k = dst ∧ k < m) && x.getLsbD src) := by
  unfold routeBit
  rw [BitVec.getLsbD_shiftLeft, BitVec.getLsbD_setWidth, BitVec.getLsbD_ofBool]
  by_cases hk : k < m <;> by_cases hd : k = dst
  · subst hd; simp [hk]; omega
  · by_cases hlt : k < dst
    · simp [hlt, hd]
    · have : k - dst ≠ 0 := by omega
      simp [hlt, hd, this]
  · simp [hk]
  · simp [hk]

theorem getElem_routeBit {n m : Nat} (x : BitVec n) (src dst k : Nat) (h : k < m) :
    (routeBit x src dst : BitVec m)[k] = (decide (k = dst) && x.getLsbD src) := by
  rw [← BitVec.getLsbD_eq_getElem, getLsbD_routeBit]
  simp [h]

end Sys2Proof.Machine
end

