-- ==== Sys2Proof/Laws/Chip.lean ====
section
/-! SUPPORT. What one SID cycle does to a chip, part by part (rule R311). -/

namespace Sys2Proof.Machine

theorem Chip.ageBus_changes (c : Chip) : ∃ t b, c.ageBus = { c with busTtl := t, busValue := b } := by
  unfold Chip.ageBus
  split
  · exact ⟨_, _, rfl⟩
  · split <;> exact ⟨_, _, rfl⟩

theorem Chip.clockWaves_voice (c : Chip) (v : VoiceId) :
    c.clockWaves.voice v = { c.voice v with wave := (c.voice v).wave.clock } := by
  cases v <;> rfl

theorem Chip.clockEnvs_voice (c : Chip) (v : VoiceId) :
    c.clockEnvs.voice v = { c.voice v with env := (c.voice v).env.clock } := by
  cases v <;> rfl

theorem Chip.outputWave_voice_self (p : Params) (i : VoiceId) (c : Chip) :
    (c.outputWave p i).voice i =
      { c.voice i with wave := (c.voice i).wave.output p c.model (c.voice i.src).wave.acc } :=
  Chip.voice_mapWave_self c i _

theorem Chip.outputWave_voice_of_ne (p : Params) (c : Chip) {i j : VoiceId} (h : j ≠ i) :
    (c.outputWave p i).voice j = c.voice j := Chip.voice_mapWave_of_ne c _ h

theorem Chip.outputWave_acc (p : Params) (i j : VoiceId) (c : Chip) :
    ((c.outputWave p i).voice j).wave.acc = (c.voice j).wave.acc := by
  by_cases h : j = i
  · subst h; rw [Chip.outputWave_voice_self]; simp
  · rw [Chip.outputWave_voice_of_ne p c h]

@[simp] theorem Chip.outputWave_model (p : Params) (i : VoiceId) (c : Chip) : (c.outputWave p i).model = c.model :=
  Chip.mapWave_model c i _

/-- The three output steps read the accumulators the clock steps left (rule R160). -/
theorem Chip.outputWaves_voice (p : Params) (c : Chip) (v : VoiceId) :
    (c.outputWaves p).voice v =
      { c.voice v with wave := (c.voice v).wave.output p c.model (c.voice v.src).wave.acc } := by
  unfold Chip.outputWaves
  cases v
  · rw [Chip.outputWave_voice_of_ne p _ (by decide), Chip.outputWave_voice_of_ne p _ (by decide),
      Chip.outputWave_voice_self]
  · rw [Chip.outputWave_voice_of_ne p _ (by decide), Chip.outputWave_voice_self, Chip.outputWave_acc,
      Chip.outputWave_voice_of_ne p _ (by decide), Chip.outputWave_model]
  · rw [Chip.outputWave_voice_self, Chip.outputWave_acc, Chip.outputWave_acc, Chip.outputWave_voice_of_ne p _ (by decide),
      Chip.outputWave_voice_of_ne p _ (by decide), Chip.outputWave_model, Chip.outputWave_model]

theorem Chip.outputStage_voice (p : Params) (c : Chip) (v : VoiceId) : (c.outputStage p).1.voice v = c.voice v := by
  cases v <;> rfl

theorem Chip.syncVoices_voice (c : Chip) (v : VoiceId) :
    c.syncVoices.voice v =
      if c.syncHit v then { c.voice v with wave := { (c.voice v).wave with acc := 0 } } else c.voice v := by
  cases v <;> rfl

/-- The waveform generator of voice `v` after the clock and output steps of a cycle, before hard sync. -/
def Chip.stepped (p : Params) (c : Chip) (v : VoiceId) : Wave :=
  (c.voice v).wave.clock.output p c.model (c.voice v.src).wave.clock.acc

/-- Voice `v` is zeroed by the hard sync of a cycle (rule R162). -/
def Chip.synced (c : Chip) (v : VoiceId) : Bool :=
  (c.voice v.src).wave.clock.msbRising && (c.voice v).wave.sync &&
    !((c.voice v.src).wave.sync && (c.voice v.src.src).wave.clock.msbRising)

/-- A voice before the hard sync of a cycle. -/
theorem Chip.beforeSync_voice (p : Params) (c : Chip) (v : VoiceId) :
    ((c.ageBus.clockWaves.clockEnvs.outputWaves p).outputStage p).1.voice v =
      { wave := c.stepped p v, env := (c.voice v).env.clock } := by
  obtain ⟨t, b, h⟩ := c.ageBus_changes
  have hv : ∀ u, c.ageBus.voice u = c.voice u := by rw [h]; intro u; cases u <;> rfl
  have hm : c.ageBus.clockWaves.clockEnvs.model = c.model := by rw [h]; rfl
  rw [Chip.outputStage_voice, Chip.outputWaves_voice, Chip.clockEnvs_voice, Chip.clockEnvs_voice, Chip.clockWaves_voice,
    Chip.clockWaves_voice, hv, hv, hm]
  rfl

theorem Chip.voice_cycles (x : Chip) (n : BitVec 64) (v : VoiceId) : Chip.voice { x with cycles := n } v = x.voice v := by
  cases v <;> rfl

theorem Chip.filter_cycles (x : Chip) (n : BitVec 64) : Chip.filter { x with cycles := n } = x.filter := rfl

theorem Chip.syncVoices_filter (x : Chip) : x.syncVoices.filter = x.filter := rfl

/-- The chip of a cycle before its hard sync. -/
theorem Chip.cycle_fst (p : Params) (c : Chip) :
    (c.cycle p).1 =
      { ((c.ageBus.clockWaves.clockEnvs.outputWaves p).outputStage p).1.syncVoices with
        cycles := ((c.ageBus.clockWaves.clockEnvs.outputWaves p).outputStage p).1.syncVoices.cycles + 1 } := by
  unfold Chip.cycle
  rfl

/-- A voice after a cycle. -/
theorem Chip.cycle_voice (p : Params) (c : Chip) (v : VoiceId) :
    (c.cycle p).1.voice v =
      { wave := if c.synced v then { c.stepped p v with acc := 0 } else c.stepped p v
        env := (c.voice v).env.clock } := by
  have hh : (((c.ageBus.clockWaves.clockEnvs.outputWaves p).outputStage p).1).syncHit v = c.synced v := by
    simp only [Chip.syncHit, Chip.beforeSync_voice, Chip.stepped, Wave.output_msbRising, Wave.output_sync, Wave.clock_sync,
      Chip.synced]
  rw [Chip.cycle_fst, Chip.voice_cycles, Chip.syncVoices_voice, hh, Chip.beforeSync_voice]
  split <;> rfl

theorem Chip.beforeOutput_model (p : Params) (c : Chip) :
    (c.ageBus.clockWaves.clockEnvs.outputWaves p).model = c.model := by
  obtain ⟨t, b, h⟩ := c.ageBus_changes
  rw [h]; rfl

theorem Chip.beforeOutput_filter (p : Params) (c : Chip) :
    (c.ageBus.clockWaves.clockEnvs.outputWaves p).filter = c.filter := by
  obtain ⟨t, b, h⟩ := c.ageBus_changes
  rw [h]; rfl

theorem Chip.beforeOutput_extIn (p : Params) (c : Chip) :
    (c.ageBus.clockWaves.clockEnvs.outputWaves p).extIn = c.extIn := by
  obtain ⟨t, b, h⟩ := c.ageBus_changes
  rw [h]; rfl

theorem Chip.outputStage_filter (p : Params) (c : Chip) :
    (c.outputStage p).1.filter =
      (c.filter.clock p c.model (c.voiceOutput p .v1) (c.voiceOutput p .v2) (c.voiceOutput p .v3) c.extIn).1 := rfl

theorem Chip.cycle_fst_filter (p : Params) (c : Chip) :
    (c.cycle p).1.filter = ((c.ageBus.clockWaves.clockEnvs.outputWaves p).outputStage p).1.filter := by
  rw [Chip.cycle_fst, Chip.filter_cycles, Chip.syncVoices_filter]

/-- The output of voice `v` in a cycle, from the waveform output and the envelope counter of that cycle (rule R280). -/
def Chip.voiceOut (p : Params) (c : Chip) (v : VoiceId) : Int :=
  Machine.voiceOut p c.model (c.stepped p v).waveformOutput (c.voice v).env.clock.envelopeCounter

theorem Chip.beforeOutput_voiceOutput (p : Params) (c : Chip) (v : VoiceId) :
    (c.ageBus.clockWaves.clockEnvs.outputWaves p).voiceOutput p v = c.voiceOut p v := by
  have hv : (c.ageBus.clockWaves.clockEnvs.outputWaves p).voice v =
      { wave := c.stepped p v, env := (c.voice v).env.clock } := by
    rw [← Chip.outputStage_voice p, Chip.beforeSync_voice]
  rw [Chip.voiceOutput, hv, Chip.beforeOutput_model]
  rfl

/-- The filter's step of a cycle: on the voice outputs of that cycle and `EXT_IN` (rules R247, R280, R311). -/
def Chip.filtered (p : Params) (c : Chip) : Filter × Int :=
  c.filter.clock p c.model (c.voiceOut p .v1) (c.voiceOut p .v2) (c.voiceOut p .v3) c.extIn

theorem Chip.beforeOutput_ext (p : Params) (c : Chip) : (c.ageBus.clockWaves.clockEnvs.outputWaves p).ext = c.ext := by
  obtain ⟨t, b, h⟩ := c.ageBus_changes
  rw [h]; rfl

/-- The output stage of a cycle: the filter's step, and the external filter's on its output (rule R311). -/
theorem Chip.beforeSync_output (p : Params) (c : Chip) :
    (c.ageBus.clockWaves.clockEnvs.outputWaves p).outputStage p =
      ({ c.ageBus.clockWaves.clockEnvs.outputWaves p with
          filter := (c.filtered p).1, ext := (c.ext.clock p (c.filtered p).2).1 }, (c.ext.clock p (c.filtered p).2).2) := by
  unfold Chip.outputStage
  rw [Chip.beforeOutput_voiceOutput, Chip.beforeOutput_voiceOutput, Chip.beforeOutput_voiceOutput, Chip.beforeOutput_model,
    Chip.beforeOutput_filter, Chip.beforeOutput_extIn, Chip.beforeOutput_ext]
  simp only [Chip.filtered, Chip.beforeOutput_model, Chip.beforeOutput_extIn]

theorem Chip.cycle_filter (p : Params) (c : Chip) : (c.cycle p).1.filter = (c.filtered p).1 := by
  rw [Chip.cycle_fst_filter, Chip.beforeSync_output]

theorem Chip.cycle_ext (p : Params) (c : Chip) : (c.cycle p).1.ext = (c.ext.clock p (c.filtered p).2).1 := by
  have h : (c.cycle p).1.ext = ((c.ageBus.clockWaves.clockEnvs.outputWaves p).outputStage p).1.ext := by
    rw [Chip.cycle_fst]; rfl
  rw [h, Chip.beforeSync_output]

/-- The sample of a cycle is the external filter's on the filter's output (rule R293). -/
theorem Chip.cycle_sample (p : Params) (c : Chip) : (c.cycle p).2 = (c.ext.clock p (c.filtered p).2).2 := by
  have h : (c.cycle p).2 = ((c.ageBus.clockWaves.clockEnvs.outputWaves p).outputStage p).2 := rfl
  rw [h, Chip.beforeSync_output]

@[simp] theorem Chip.cycle_model (p : Params) (c : Chip) : (c.cycle p).1.model = c.model := by
  obtain ⟨t, b, h⟩ := c.ageBus_changes
  unfold Chip.cycle
  rw [h]
  rfl

@[simp] theorem Chip.cycle_nextVoiceSync (p : Params) (c : Chip) : (c.cycle p).1.nextVoiceSync = c.nextVoiceSync := by
  obtain ⟨t, b, h⟩ := c.ageBus_changes
  unfold Chip.cycle
  rw [h]
  rfl

@[simp] theorem Chip.cycle_potX (p : Params) (c : Chip) : (c.cycle p).1.potX = c.potX := by
  obtain ⟨t, b, h⟩ := c.ageBus_changes
  unfold Chip.cycle
  rw [h]
  rfl

@[simp] theorem Chip.cycle_potY (p : Params) (c : Chip) : (c.cycle p).1.potY = c.potY := by
  obtain ⟨t, b, h⟩ := c.ageBus_changes
  unfold Chip.cycle
  rw [h]
  rfl

@[simp] theorem Chip.cycle_mute1 (p : Params) (c : Chip) : (c.cycle p).1.mute1 = c.mute1 := by
  obtain ⟨t, b, h⟩ := c.ageBus_changes
  unfold Chip.cycle
  rw [h]
  rfl

@[simp] theorem Chip.cycle_mute2 (p : Params) (c : Chip) : (c.cycle p).1.mute2 = c.mute2 := by
  obtain ⟨t, b, h⟩ := c.ageBus_changes
  unfold Chip.cycle
  rw [h]
  rfl

@[simp] theorem Chip.cycle_mute3 (p : Params) (c : Chip) : (c.cycle p).1.mute3 = c.mute3 := by
  obtain ⟨t, b, h⟩ := c.ageBus_changes
  unfold Chip.cycle
  rw [h]
  rfl

@[simp] theorem Chip.cycle_extIn (p : Params) (c : Chip) : (c.cycle p).1.extIn = c.extIn := by
  obtain ⟨t, b, h⟩ := c.ageBus_changes
  unfold Chip.cycle
  rw [h]
  rfl

@[simp] theorem Chip.cycle_cycles (p : Params) (c : Chip) : (c.cycle p).1.cycles = c.cycles + 1 := by
  obtain ⟨t, b, h⟩ := c.ageBus_changes
  unfold Chip.cycle
  rw [h]
  rfl

@[simp] theorem Chip.cycle_busTtl (p : Params) (c : Chip) : (c.cycle p).1.busTtl = c.ageBus.busTtl := by
  unfold Chip.cycle
  rfl

@[simp] theorem Chip.cycle_busValue (p : Params) (c : Chip) : (c.cycle p).1.busValue = c.ageBus.busValue := by
  unfold Chip.cycle
  rfl

/-- A filter step changes only the node voltages and the integrators. -/
theorem Filter.clock_changes (p : Params) (m : ChipModel) (o1 o2 o3 xe : Int) (f : Filter) :
    ∃ hp bp lp sh sb, (f.clock p m o1 o2 o3 xe).1 =
      { f with vhp := hp, vbp := bp, vlp := lp, istateHp := sh, istateBp := sb } := ⟨_, _, _, _, _, rfl⟩

end Sys2Proof.Machine
end

