-- ==== Sys2Proof/Laws/Numerics.lean ====
section
/-! SUPPORT. The numerics: the whole-number ladder weights are proportional to the rule's own computation (rule R282), the default
tables meet the constraints their rules state (rules R153, R250, R282), and every filter function returns a value of its range
(rules R251-R255). -/

namespace Sys2Proof.Machine

/-! ### The ladder -/

/-- The bits of the 8-bit ladder are the whole-number weights times one factor. -/
theorem ladderWeights8_proportional (m : ChipModel) :
    (List.range 8).map (ladderBit m 8) =
      (ladderWeights8 m).map fun w => (w : Rat) * (ladderBit m 8 0 / ((ladderWeights8 m).getD 0 0 : Nat)) := by
  cases m <;> decide +kernel

/-- The bits of the 12-bit ladder are the whole-number weights times one factor. -/
theorem ladderWeights12_proportional (m : ChipModel) :
    (List.range 12).map (ladderBit m 12) =
      (ladderWeights12 m).map fun w => (w : Rat) * (ladderBit m 12 0 / ((ladderWeights12 m).getD 0 0 : Nat)) := by
  cases m <;> decide +kernel

/-! ### Constraints of the default tables -/

/-- Every entry of the combined-waveform table has its low nibble 0 (rule R153). -/
theorem waveTable_lowNibble (p : Params) (m : ChipModel) (sel : BitVec 3) (idx : BitVec 12) :
    waveTable p m sel idx &&& 0x00F#12 = 0 := by
  have h : ∀ x : BitVec 12, x &&& 0xFF0#12 &&& 0x00F#12 = 0 := by
    intro x
    rw [BitVec.and_assoc]
    have : (0xFF0#12 &&& 0x00F#12) = 0#12 := by decide
    rw [this]
    simp
  unfold waveTable waveTableDefault
  split <;> exact h _

/-- The default envelope DAC of a MOS6581 is not monotonic: it falls after 127 (rule R282). -/
theorem envDacFolds_default {p : Params} (h : p.envDac = .default) : envDacFolds p = true := by
  have h1 : ∀ e : BitVec 8, envDac p .mos6581 e = ladderLevel (ladderWeights8 .mos6581) e.toNat := by
    intro e; simp [envDac, h]
  simp only [envDacFolds, allBelow, h1]
  decide +kernel

/-- The default envelope DAC of a MOS8580 is strictly increasing (rule R282). -/
theorem envDacIncreasing_default {p : Params} (h : p.envDac = .default) : envDacIncreasing p = true := by
  have h1 : ∀ e : BitVec 8, envDac p .mos8580 e = ladderLevel (ladderWeights8 .mos8580) e.toNat := by
    intro e; simp [envDac, h]
  simp only [envDacIncreasing, allBelow, h1]
  decide +kernel

/-- `Q1024` does not increase with `res` and is positive (rule R250). -/
theorem q1024_falls (m : ChipModel) (r : Fin 15) :
    0 < q1024 m (BitVec.ofNat 4 (r.val + 1)) ∧ q1024 m (BitVec.ofNat 4 (r.val + 1)) ≤ q1024 m (BitVec.ofNat 4 r.val) := by
  cases m <;> revert r <;> decide

/-- The default resonance feedback does not grow with `res` (rule R250). -/
theorem resGain_falls_default {p : Params} (h : p.resGain = .default) (m : ChipModel) (r : Fin 15) (x : Int) :
    (resGain p m (BitVec.ofNat 4 (r.val + 1)) x).natAbs ≤ (resGain p m (BitVec.ofNat 4 r.val) x).natAbs := by
  obtain ⟨h0, h1⟩ := q1024_falls m r
  simp only [resGain, h, asr]
  generalize q1024 m (BitVec.ofNat 4 (r.val + 1)) = a at *
  generalize q1024 m (BitVec.ofNat 4 r.val) = b at *
  rcases le_total 0 x with hx | hx
  · have h2 : x * a ≤ x * b := by nlinarith
    have h3 : 0 ≤ x * a := by nlinarith
    omega
  · have h2 : x * b ≤ x * a := by nlinarith
    have h3 : x * a ≤ 0 := by nlinarith
    omega

/-- With the default `INTEG` the integrators start at 0 (rules R255, R256). -/
theorem integInit_default {p : Params} (h : p.integ = .default) (m : ChipModel) : integInit p m = ⟨0, 0⟩ := by
  simp [integInit, h]

/-! ### Ranges -/

theorem signed16_sat16 (x : Int) : Signed16 (sat16 x) := by
  unfold Signed16 sat16 clampInt
  omega

theorem sat16_of_signed16 {x : Int} (h : Signed16 x) : sat16 x = x := by
  unfold Signed16 at h
  unfold sat16 clampInt
  omega

theorem signed16_summer (p : Params) (m : ChipModel) (n : Nat) (x : Int) : Signed16 (summer p m n x) := by
  unfold summer
  split <;> exact signed16_sat16 _

theorem signed16_integ (p : Params) (m : ChipModel) (fc : BitVec 11) (st : Integ) (vi : Int) :
    Signed16 (integ p m fc st vi).2 := by
  unfold integ
  split
  · exact signed16_sat16 _
  · split <;> exact signed16_sat16 _

theorem mixer_range (p : Params) (m : ChipModel) (n : Nat) (x : Int) : 0 ≤ mixer p m n x ∧ mixer p m n x ≤ 65535 := by
  unfold mixer clampInt
  split <;> omega

theorem volGain_range (p : Params) (m : ChipModel) (vol : BitVec 4) {x : Int} (h0 : 0 ≤ x) (h1 : x ≤ 65535) :
    0 ≤ volGain p m vol x ∧ volGain p m vol x ≤ 65535 := by
  unfold volGain
  split
  · have hv : (0 : Int) ≤ vol.toNat ∧ (vol.toNat : Int) ≤ 15 := by have := vol.isLt; omega
    have hu : (x - 0x8000) * (vol.toNat : Int) ≤ 32767 * 15 := by nlinarith
    have hl : -32768 * 15 ≤ (x - 0x8000) * (vol.toNat : Int) := by nlinarith
    unfold asr
    omega
  · unfold clampInt
    omega

end Sys2Proof.Machine
end

