-- ==== Sys2Proof/Laws/Construction.lean ====
section
/-! SUPPORT. The checks of a construction say what the rules ask of a given table, and a construction is accepted exactly when all of
them pass (spec/60_exceptions.md rule R356; spec/41_waveform.md R153; spec/43_filter.md R250-R254; spec/44_output_stage.md R282). -/

namespace Sys2Proof.Machine

/-! ### Counting bounded checks -/

theorem allBelow_iff {n : Nat} {f : Nat → Bool} : allBelow n f = true ↔ ∀ x, x < n → f x = true := by
  simp [allBelow]

theorem allWithin_iff {n : Nat} {f : Int → Bool} : allWithin n f = true ↔ ∀ x : Int, -n ≤ x → x < n → f x = true := by
  rw [allWithin, allBelow_iff]
  constructor
  · intro h x h1 h2
    have := h (x + n).toNat (by omega)
    rwa [Int.toNat_of_nonneg (by omega), Int.add_sub_cancel] at this
  · intro h x hx
    exact h _ (by omega) (by omega)

theorem bothModels_iff {f : ChipModel → Bool} : bothModels f = true ↔ ∀ m, f m = true := by
  rw [bothModels, Bool.and_eq_true]
  exact ⟨fun h m => by cases m <;> simp [h], fun h => ⟨h _, h _⟩⟩

/-! ### The tables -/

/-- A `WAVE_TABLE` is accepted when every combined entry has its low nibble 0 (rule R153). -/
theorem waveTableAccepted_iff (p : Params) : waveTableAccepted p = true ↔ (∀ k, p.waveTable = .given k → ∀ (m : ChipModel) (idx : BitVec 12), ∀ sel ∈ [3#3, 5#3, 6#3, 7#3],
      (Config.waveTable k m sel idx).extractLsb' 0 4 = 0#4) := by
  unfold waveTableAccepted
  cases h : p.waveTable with
  | default => simp
  | given k =>
    simp only [bothModels_iff, List.all_eq_true, allBelow_iff, decide_eq_true_eq]
    constructor
    · intro hh k' hk m idx sel hs
      injection hk with hk; subst hk
      have := hh m sel hs idx.toNat idx.isLt
      simpa using this
    · intro hh m sel hs x hx
      exact hh k rfl m _ sel hs

/-- An `ENV_DAC` is accepted when the 8580's increases throughout and the 6581's decreases somewhere (rule R282). -/
theorem envDacAccepted_iff (p : Params) : envDacAccepted p = true ↔ (∀ k, p.envDac = .given k →
      (∀ e : BitVec 8, e ≠ 0xFF#8 → Config.envDac k .mos8580 e < Config.envDac k .mos8580 (e + 1)) ∧
      (∃ e : BitVec 8, e ≠ 0xFF#8 ∧ Config.envDac k .mos6581 (e + 1) < Config.envDac k .mos6581 e)) := by
  unfold envDacAccepted
  cases h : p.envDac with
  | default => simp
  | given k =>
    have ed : ∀ m e, envDac p m e = Config.envDac k m e := by intro m e; simp [envDac, h]
    have fwd : ∀ P : BitVec 8 → BitVec 8 → Prop, (∀ x, x < 255 → P (BitVec.ofNat 8 x) (BitVec.ofNat 8 (x+1))) ↔ (∀ e : BitVec 8, e ≠ 0xFF#8 → P e (e+1)) := by
      intro P; constructor
      · intro hh e he
        have h1 : e.toNat < 255 := by
          have := e.isLt
          rcases Nat.lt_or_ge e.toNat 255 with h | h
          · exact h
          · exact absurd (BitVec.eq_of_toNat_eq (by simp; omega)) he
        have := hh e.toNat h1
        simpa [BitVec.ofNat_add] using this
      · intro hh x hx
        have := hh (BitVec.ofNat 8 x) (by intro h; have := congrArg BitVec.toNat h; simp at this; omega)
        simpa [BitVec.ofNat_add] using this
    simp only [Bool.and_eq_true, envDacIncreasing, envDacFolds, Bool.not_eq_true', allBelow_iff, decide_eq_true_eq, ed, ← Bool.not_eq_true]
    rw [fwd (fun a b => Config.envDac k .mos8580 a < Config.envDac k .mos8580 b)]
    have f2 := fwd (fun a b => Config.envDac k .mos6581 a ≤ Config.envDac k .mos6581 b)
    rw [f2]
    constructor
    · rintro ⟨h1, h2⟩ k' hk
      injection hk with hk; subst hk
      refine ⟨h1, ?_⟩
      push Not at h2
      exact h2
    · intro hh
      refine ⟨(hh k rfl).1, ?_⟩
      push Not
      exact (hh k rfl).2

/-- A `RES_GAIN` is accepted when the 6581's does not grow with `res` and the 8580's follows its law (rule R250). -/
theorem resGainAccepted_iff (p : Params) : resGainAccepted p = true ↔ (∀ k, p.resGain = .given k → ∀ x, Signed16 x →
      (∀ r : BitVec 4, r ≠ 15#4 → (Config.resGain k .mos6581 (r + 1) x).natAbs ≤ (Config.resGain k .mos6581 r x).natAbs) ∧
      (∀ r : BitVec 4,
        let g := (Config.resGain k .mos8580 r x).natAbs
        let t := Config.resGainRounding k
        (g - t) ^ 8 * 2 ^ r.toNat ≤ x.natAbs ^ 8 * 2 ^ 4 ∧ x.natAbs ^ 8 * 2 ^ 4 ≤ (g + t) ^ 8 * 2 ^ r.toNat)) := by
  unfold resGainAccepted
  cases h : p.resGain with
  | default => simp
  | given k =>
    have ed : ∀ m r x, resGain p m r x = Config.resGain k m r x := by intro m r x; simp [resGain, h]
    simp only [Bool.and_eq_true, resGainFalls, resGainLaw, allBelow_iff, allWithin_iff, decide_eq_true_eq, ed, meetsEighthLaw]
    constructor
    · rintro ⟨h1, h2⟩ k' hk x hx
      injection hk with hk; subst hk
      unfold Signed16 at hx
      refine ⟨fun r hr => ?_, fun r => ?_⟩
      · have hr' : r.toNat < 15 := by
          have := r.isLt
          rcases Nat.lt_or_ge r.toNat 15 with h | h
          · exact h
          · exact absurd (BitVec.eq_of_toNat_eq (by simp; omega)) hr
        have := h1 r.toNat hr' x (by omega) (by omega)
        simpa [BitVec.ofNat_add] using this
      · have := h2 r.toNat r.isLt x (by omega) (by omega)
        simpa using this
    · intro hh
      refine ⟨fun r hr x h1 h2 => ?_, fun r hr x h1 h2 => ?_⟩
      · have := (hh k rfl x (by unfold Signed16; omega)).1 (BitVec.ofNat 4 r) (by intro h; have := congrArg BitVec.toNat h; simp at this; omega)
        simpa [BitVec.ofNat_add] using this
      · have := (hh k rfl x (by unfold Signed16; omega)).2 (BitVec.ofNat 4 r)
        simpa [Nat.mod_eq_of_lt hr] using this

/-- A `SUMMER` is accepted when it gives 16-bit signed values and its transfer decreases (rules R251, R254). -/
theorem summerAccepted_iff (p : Params) : summerAccepted p = true ↔ (∀ k, p.summer = .given k → Config.opAmpDecreasing k = true ∧
      ∀ (m : ChipModel) (n : Nat) (x : Int), n < 5 → -(6 * 2 ^ 16) ≤ x → x < 6 * 2 ^ 16 → Signed16 (Config.summer k m n x)) := by
  unfold summerAccepted
  cases h : p.summer with
  | default => simp
  | given k =>
    simp only [Bool.and_eq_true, bothModels_iff, allBelow_iff, allWithin_iff, decide_eq_true_eq, Signed16]
    constructor
    · rintro ⟨h1, h2⟩ k' hk
      injection hk with hk; subst hk
      exact ⟨h1, fun m n x hn ha hb => h2 m n hn x (by push_cast; omega) (by push_cast; omega)⟩
    · intro hh
      exact ⟨(hh k rfl).1, fun m n hn x ha hb => (hh k rfl).2 m n x hn (by push_cast at ha; omega) (by push_cast at hb; omega)⟩

/-- A `MIXER` is accepted when it gives indexes of the gain table and its transfer decreases (rules R252, R254). -/
theorem mixerAccepted_iff (p : Params) : mixerAccepted p = true ↔ (∀ k, p.mixer = .given k → Config.opAmpDecreasing k = true ∧
      ∀ (m : ChipModel) (n : Nat) (x : Int), n < 8 → -(8 * 2 ^ 16) ≤ x → x < 8 * 2 ^ 16 → 0 ≤ Config.mixer k m n x ∧ Config.mixer k m n x ≤ 65535) := by
  unfold mixerAccepted
  cases h : p.mixer with
  | default => simp
  | given k =>
    simp only [Bool.and_eq_true, bothModels_iff, allBelow_iff, allWithin_iff, decide_eq_true_eq]
    constructor
    · rintro ⟨h1, h2⟩ k' hk
      injection hk with hk; subst hk
      exact ⟨h1, fun m n x hn ha hb => h2 m n hn x (by push_cast; omega) (by push_cast; omega)⟩
    · intro hh
      exact ⟨(hh k rfl).1, fun m n hn x ha hb => (hh k rfl).2 m n x hn (by push_cast at ha; omega) (by push_cast at hb; omega)⟩

/-- A `VOL_GAIN` is accepted when it gives unsigned 16-bit values (rule R253). -/
theorem volGainAccepted_iff (p : Params) : volGainAccepted p = true ↔ (∀ k, p.volGain = .given k → ∀ (m : ChipModel) (vol : BitVec 4) (x : Int), 0 ≤ x → x ≤ 65535 →
      0 ≤ Config.volGain k m vol x ∧ Config.volGain k m vol x ≤ 65535) := by
  unfold volGainAccepted
  cases h : p.volGain with
  | default => simp
  | given k =>
    simp only [Bool.and_eq_true, bothModels_iff, allBelow_iff, decide_eq_true_eq]
    constructor
    · intro hh k' hk m vol x h0 h1
      injection hk with hk; subst hk
      have := hh m vol.toNat vol.isLt x.toNat (by omega)
      simpa [Int.toNat_of_nonneg h0] using this
    · intro hh m v hv x hx
      exact hh k rfl m _ x (by omega) (by omega)

/-- An `INTEG` is accepted when its transfer decreases (rule R254). -/
theorem integAccepted_iff (p : Params) :
    integAccepted p = true ↔ ∀ k, p.integ = .given k → Config.opAmpDecreasing k = true := by
  unfold integAccepted
  cases h : p.integ <;> simp

/-- The check of a parameter says that it is in its domain (rule R356). -/
theorem paramAccepted_iff (a : PowerOnArgs) (name : ParamName) : paramAccepted a name = true ↔ ParamInDomain a name := by
  cases name <;> simp only [paramAccepted, ParamInDomain]
  · rw [Bool.and_eq_true, decide_eq_true_eq, decide_eq_true_eq]; rfl
  · simp
  · simp
  · simp
  · simp
  · exact waveTableAccepted_iff _
  · exact envDacAccepted_iff _
  · exact resGainAccepted_iff _
  · exact summerAccepted_iff _
  · exact mixerAccepted_iff _
  · exact volGainAccepted_iff _
  · exact integAccepted_iff _

theorem mem_paramOrder (name : ParamName) : name ∈ paramOrder := by
  cases name <;> decide

/-- A construction is accepted exactly when every parameter is in its domain (rule R356). -/
theorem powerOnRefusal_eq_none (a : PowerOnArgs) : powerOnRefusal a = none ↔ ∀ name, ParamInDomain a name := by
  rw [powerOnRefusal, List.find?_eq_none]
  constructor
  · intro h name
    have := h name (mem_paramOrder name)
    rwa [Bool.not_eq_true', Bool.not_eq_false, paramAccepted_iff] at this
  · intro h name _
    rw [Bool.not_eq_true', Bool.not_eq_false, paramAccepted_iff]
    exact h name

/-- A refused construction names a parameter out of its domain (rules R351, R356). -/
theorem powerOnRefusal_names {a : PowerOnArgs} {name : ParamName} (h : powerOnRefusal a = some name) : ¬ParamInDomain a name := by
  have := List.find?_some h
  rwa [Bool.not_eq_true', ← Bool.not_eq_true, paramAccepted_iff] at this

/-- An accepted construction builds its block. -/
theorem State.powerOn_of_accepted {a : PowerOnArgs} (h : powerOnRefusal a = none) (s : State) : s.powerOn a = s.built a := by
  rw [State.powerOn, h]

/-- A refused one reports its parameter and changes nothing else. -/
theorem State.powerOn_of_refused {a : PowerOnArgs} {name : ParamName} (h : powerOnRefusal a = some name) (s : State) :
    s.powerOn a = s.emit (.refused (.configRefused name)) := by
  rw [State.powerOn, h]

end Sys2Proof.Machine
end

