-- ==== Sys2Proof/Laws/PerInstr.lean ====
section
/-! SUPPORT. One property of every instruction: its encoding matches its row of the opcode table (spec/opcode_table.json "mask" and
"match"; spec/30_encoding.md rules R90, R94). -/

namespace Sys2Proof.Laws.MatchesRow

open Sys2Proof

/-- The encoding of the instruction, where it has one, matches the instruction's row. -/
def Statement (i : Instr) : Prop := ∀ w, encode i = some w → ∃ r, i.row = some r ∧ w &&& r.mask = r.pattern

/-- A port operation's word matches a row when it does so for its own encoding. -/
theorem of_port {i : Instr} {op : PortOp} {r : TableRow} (hp : i.port? = some op) (hr : i.row = some r)
    (h : encodePort op &&& r.mask = r.pattern) : Statement i := by
  intro w hw
  rw [encode, hp] at hw
  injection hw with hw
  exact ⟨r, hr, hw ▸ h⟩

/-- A word of an offset and a data byte, masked to the bits above the data byte, is the word of data byte 0. -/
theorem busWrite_and_mask (off : Offset) (d : Byte) :
    encodePort (.busWrite off d) &&& 0xFF00#16 = encodePort (.busWrite off 0x00#8) := by
  apply BitVec.eq_of_getLsbD_eq
  intro k hk
  rw [BitVec.getLsbD_and]
  simp only [encodePort, BitVec.getLsbD_append]
  by_cases h8 : k < 8
  · have : (0xFF00#16).getLsbD k = false := by
      have : ∀ k : Fin 8, (0xFF00#16).getLsbD k.val = false := by decide
      exact this ⟨k, h8⟩
    simp [h8, this]
  · have : (0xFF00#16).getLsbD k = true := by
      have : ∀ k : Fin 16, 8 ≤ k.val → (0xFF00#16).getLsbD k.val = true := by decide
      exact this ⟨k, hk⟩ (show 8 ≤ k by omega)
    simp [h8, this]

/-- A scheduler call has no encoding. -/
theorem of_call {i : Instr} (hp : i.port? = none) : Statement i := by
  intro w hw
  rw [encode, hp] at hw
  cases hw

theorem wFreqLo1 (d : Byte) : Statement (.wFreqLo1 d) := of_port rfl rfl (busWrite_and_mask _ d)

theorem wFreqHi1 (d : Byte) : Statement (.wFreqHi1 d) := of_port rfl rfl (busWrite_and_mask _ d)

theorem wPwLo1 (d : Byte) : Statement (.wPwLo1 d) := of_port rfl rfl (busWrite_and_mask _ d)

theorem wPwHi1 (d : Byte) : Statement (.wPwHi1 d) := of_port rfl rfl (busWrite_and_mask _ d)

theorem wControl1 (d : Byte) : Statement (.wControl1 d) := of_port rfl rfl (busWrite_and_mask _ d)

theorem wAd1 (d : Byte) : Statement (.wAd1 d) := of_port rfl rfl (busWrite_and_mask _ d)

theorem wSr1 (d : Byte) : Statement (.wSr1 d) := of_port rfl rfl (busWrite_and_mask _ d)

theorem wFreqLo2 (d : Byte) : Statement (.wFreqLo2 d) := of_port rfl rfl (busWrite_and_mask _ d)

theorem wFreqHi2 (d : Byte) : Statement (.wFreqHi2 d) := of_port rfl rfl (busWrite_and_mask _ d)

theorem wPwLo2 (d : Byte) : Statement (.wPwLo2 d) := of_port rfl rfl (busWrite_and_mask _ d)

theorem wPwHi2 (d : Byte) : Statement (.wPwHi2 d) := of_port rfl rfl (busWrite_and_mask _ d)

theorem wControl2 (d : Byte) : Statement (.wControl2 d) := of_port rfl rfl (busWrite_and_mask _ d)

theorem wAd2 (d : Byte) : Statement (.wAd2 d) := of_port rfl rfl (busWrite_and_mask _ d)

theorem wSr2 (d : Byte) : Statement (.wSr2 d) := of_port rfl rfl (busWrite_and_mask _ d)

theorem wFreqLo3 (d : Byte) : Statement (.wFreqLo3 d) := of_port rfl rfl (busWrite_and_mask _ d)

theorem wFreqHi3 (d : Byte) : Statement (.wFreqHi3 d) := of_port rfl rfl (busWrite_and_mask _ d)

theorem wPwLo3 (d : Byte) : Statement (.wPwLo3 d) := of_port rfl rfl (busWrite_and_mask _ d)

theorem wPwHi3 (d : Byte) : Statement (.wPwHi3 d) := of_port rfl rfl (busWrite_and_mask _ d)

theorem wControl3 (d : Byte) : Statement (.wControl3 d) := of_port rfl rfl (busWrite_and_mask _ d)

theorem wAd3 (d : Byte) : Statement (.wAd3 d) := of_port rfl rfl (busWrite_and_mask _ d)

theorem wSr3 (d : Byte) : Statement (.wSr3 d) := of_port rfl rfl (busWrite_and_mask _ d)

theorem wFcLo (d : Byte) : Statement (.wFcLo d) := of_port rfl rfl (busWrite_and_mask _ d)

theorem wFcHi (d : Byte) : Statement (.wFcHi d) := of_port rfl rfl (busWrite_and_mask _ d)

theorem wResFilt (d : Byte) : Statement (.wResFilt d) := of_port rfl rfl (busWrite_and_mask _ d)

theorem wModeVol (d : Byte) : Statement (.wModeVol d) := of_port rfl rfl (busWrite_and_mask _ d)

theorem wNone19 (d : Byte) : Statement (.wNone19 d) := of_port rfl rfl (busWrite_and_mask _ d)

theorem wNone1A (o : BitVec 1) (d : Byte) : Statement (.wNone1A o d) :=
  of_port rfl rfl (by
    have h : ∀ w : PortWord, w &&& 0xFE00#16 = (w &&& 0xFF00#16) &&& 0xFE00#16 := fun w => by
      rw [BitVec.and_assoc]; rfl
    rw [h, busWrite_and_mask]
    revert o
    decide)

theorem wNone1C (o : BitVec 2) (d : Byte) : Statement (.wNone1C o d) :=
  of_port rfl rfl (by
    have h : ∀ w : PortWord, w &&& 0xFC00#16 = (w &&& 0xFF00#16) &&& 0xFC00#16 := fun w => by
      rw [BitVec.and_assoc]; rfl
    rw [h, busWrite_and_mask]
    revert o
    decide)

theorem rPotX : Statement (.rPotX) := of_port rfl rfl (by decide)

theorem rPotY : Statement (.rPotY) := of_port rfl rfl (by decide)

theorem rOsc3 : Statement (.rOsc3) := of_port rfl rfl (by decide)

theorem rEnv3 : Statement (.rEnv3) := of_port rfl rfl (by decide)

theorem rBus00 (o : BitVec 4) : Statement (.rBus00 o) := of_port rfl rfl (by revert o; decide)

theorem rBus10 (o : BitVec 3) : Statement (.rBus10 o) := of_port rfl rfl (by revert o; decide)

theorem rBus18 : Statement (.rBus18) := of_port rfl rfl (by decide)

theorem rBus1D : Statement (.rBus1D) := of_port rfl rfl (by decide)

theorem rBus1E (o : BitVec 1) : Statement (.rBus1E o) := of_port rfl rfl (by revert o; decide)

theorem clk : Statement (.clk) := of_port rfl rfl (by decide)

theorem reset : Statement (.reset) := of_port rfl rfl (by decide)

theorem schedule (e : EventId) (delay : Nat) (ph : Phase) : Statement (.schedule e delay ph) := of_call rfl

theorem cancel (e : EventId) : Statement (.cancel e) := of_call rfl

theorem dispatch : Statement (.dispatch) := of_call rfl

theorem runUntil (target : Nat) : Statement (.runUntil target) := of_call rfl

theorem getTime : Statement (.getTime) := of_call rfl

theorem catchup (c : ChipIndex) : Statement (.catchup c) := of_call rfl

end Sys2Proof.Laws.MatchesRow
end

