-- ==== Sys2Proof/Laws/Scheduler.lean ====
section
/-! SUPPORT. The queue's order and the laws of its operations (rules R111, R112), the supply of callback sequences, and what a
callback operation leaves alone. -/

namespace Sys2Proof.Machine

/-! ### The order of the queue -/

theorem QueueEntry.before_iff (x y : QueueEntry) :
    x.before y = true ↔ x.time.toNat < y.time.toNat ∨ (x.time = y.time ∧ x.seq.toNat < y.seq.toNat) := by
  simp [QueueEntry.before]

theorem QueueEntry.before_asymm {x y : QueueEntry} (h : x.before y = true) : y.before x = false := by
  rw [QueueEntry.before_iff] at h
  rw [Bool.eq_false_iff, Ne, QueueEntry.before_iff]
  rintro (h' | ⟨e, h'⟩) <;> rcases h with h | ⟨e', h⟩
  · omega
  · rw [e'] at h'; omega
  · rw [e] at h; omega
  · omega

theorem QueueEntry.not_before_trans {x y z : QueueEntry} (h1 : y.before x = false) (h2 : z.before y = false) :
    z.before x = false := by
  rw [Bool.eq_false_iff, Ne, QueueEntry.before_iff] at *
  have ext : ∀ {a b : BitVec 64}, a.toNat = b.toNat → a = b := BitVec.eq_of_toNat_eq
  rintro (h | ⟨e, h⟩)
  · by_cases hyx : y.time.toNat < x.time.toNat
    · exact h1 (.inl hyx)
    · by_cases hzy : z.time.toNat < y.time.toNat
      · exact h2 (.inl hzy)
      · omega
  · by_cases hyx : y.time.toNat < x.time.toNat
    · exact h1 (.inl hyx)
    · by_cases hzy : z.time.toNat < y.time.toNat
      · exact h2 (.inl hzy)
      · have e1 : z.time.toNat = x.time.toNat := by rw [e]
        have e2 : y.time = x.time := ext (by omega)
        have e3 : z.time = y.time := by rw [e, e2]
        by_cases hs : y.seq.toNat < x.seq.toNat
        · exact h1 (.inr ⟨e2, hs⟩)
        · exact h2 (.inr ⟨e3, by omega⟩)

theorem mem_queueInsert {x z : QueueEntry} {q : List QueueEntry} : z ∈ queueInsert x q ↔ z = x ∨ z ∈ q := by
  induction q with
  | nil => simp [queueInsert]
  | cons y ys ih =>
    unfold queueInsert
    split
    · simp
    · simp only [List.mem_cons, ih]; tauto

theorem queueInsert_perm (x : QueueEntry) (q : List QueueEntry) : (queueInsert x q).Perm (x :: q) := by
  induction q with
  | nil => exact List.Perm.refl _
  | cons y ys ih =>
    unfold queueInsert
    split
    · exact List.Perm.refl _
    · exact (List.Perm.cons y ih).trans (List.Perm.swap x y ys)

/-- Inserting keeps the queue in its order (rule R112). -/
theorem queueInsert_ordered {x : QueueEntry} {q : List QueueEntry} (h : q.Pairwise fun x y => y.before x = false) :
    (queueInsert x q).Pairwise fun x y => y.before x = false := by
  induction q with
  | nil => simp [queueInsert]
  | cons y ys ih =>
    rw [List.pairwise_cons] at h
    unfold queueInsert
    split
    · next hb =>
      rw [List.pairwise_cons, List.pairwise_cons]
      refine ⟨fun z hz => ?_, h⟩
      rcases List.mem_cons.1 hz with rfl | hz
      · exact QueueEntry.before_asymm hb
      · exact QueueEntry.not_before_trans (QueueEntry.before_asymm hb) (h.1 z hz)
    · next hb =>
      rw [List.pairwise_cons]
      refine ⟨fun z hz => ?_, ih h.2⟩
      rcases mem_queueInsert.1 hz with rfl | hz
      · simpa using hb
      · exact h.1 z hz

theorem pending_iff {e : EventId} {q : List QueueEntry} : pending e q = true ↔ ∃ x ∈ q, x.event = e := by
  simp [pending]

theorem pending_eq_false_iff {e : EventId} {q : List QueueEntry} : pending e q = false ↔ ∀ x ∈ q, x.event ≠ e := by
  simp [pending]

theorem mem_queueRemove {e : EventId} {x : QueueEntry} {q : List QueueEntry} :
    x ∈ queueRemove e q ↔ x ∈ q ∧ x.event ≠ e := by
  simp [queueRemove]

theorem queueRemove_of_not_pending {e : EventId} {q : List QueueEntry} (h : ∀ x ∈ q, x.event ≠ e) : queueRemove e q = q := by
  rw [queueRemove, List.filter_eq_self]
  intro x hx
  simpa using h x hx

/-! ### The queue's invariant -/

theorem QueueInv.insert {now : BitVec 64} {q : List QueueEntry} {x : QueueEntry} (h : QueueInv now q)
    (hp : ∀ y ∈ q, y.event ≠ x.event) (ht : now ≤ x.time) : QueueInv now (queueInsert x q) where
  ordered := queueInsert_ordered h.ordered
  one_per_event := by
    rw [((queueInsert_perm x q).map fun x => x.event).nodup_iff, List.map_cons, List.nodup_cons]
    refine ⟨fun hm => ?_, h.one_per_event⟩
    obtain ⟨y, hy, he⟩ := List.mem_map.1 hm
    exact hp y hy he
  not_past := fun z hz => by
    rcases mem_queueInsert.1 hz with rfl | hz
    · exact ht
    · exact h.not_past z hz

theorem QueueInv.remove {now : BitVec 64} {q : List QueueEntry} (h : QueueInv now q) (e : EventId) :
    QueueInv now (queueRemove e q) where
  ordered := h.ordered.sublist List.filter_sublist
  one_per_event := h.one_per_event.sublist (List.filter_sublist.map _)
  not_past := fun z hz => h.not_past z (mem_queueRemove.1 hz).1

/-- The queue without its head, at the head's time (rule R117). -/
theorem QueueInv.detach {now : BitVec 64} {x : QueueEntry} {q : List QueueEntry} (h : QueueInv now (x :: q)) :
    QueueInv x.time q where
  ordered := (List.pairwise_cons.1 h.ordered).2
  one_per_event := (List.nodup_cons.1 h.one_per_event).2
  not_past := fun z hz => by
    have hb := (List.pairwise_cons.1 h.ordered).1 z hz
    rw [Bool.eq_false_iff, Ne, QueueEntry.before_iff] at hb
    rw [BitVec.le_def]
    by_contra hlt
    exact hb (.inl (by omega))

theorem QueueInv.nil (now : BitVec 64) : QueueInv now [] := ⟨List.Pairwise.nil, List.nodup_nil, by simp⟩

/-! ### SCHEDULE -/

/-- SCHEDULE raises a fault and changes nothing else, or inserts its entry (rule R113). -/
theorem State.schedule_cases (e : EventId) (delay : Nat) (ph : Phase) (s : State) :
    (∃ f, s.schedule e delay ph = s.raise f) ∨
    (scheduleTime s.time delay ph < 2 ^ 64 ∧ s.time.toNat ≤ scheduleTime s.time delay ph ∧ pending e s.queue = false ∧
      s.schedule e delay ph =
        { s with queue := queueInsert ⟨e, BitVec.ofNat 64 (scheduleTime s.time delay ph), s.nextSeq⟩ s.queue,
                 nextSeq := s.nextSeq + 1 }) := by
  unfold State.schedule
  dsimp only
  split
  · exact .inl ⟨_, rfl⟩
  · split
    · exact .inl ⟨_, rfl⟩
    · split
      · exact .inl ⟨_, rfl⟩
      · next h1 h2 h3 => exact .inr ⟨by omega, by omega, by simpa using h3, rfl⟩

/-! ### Operations on an event -/

theorem onEvent_of_known {e : EventId} {s : State} (h : e ∈ s.params.events) (run : State → State) :
    onEvent e run s = .next (run s) := by
  simp [onEvent, h]

theorem onEvent_of_unknown {e : EventId} {s : State} (h : e ∉ s.params.events) (run : State → State) :
    onEvent e run s = .fault (.noSuchEvent e) := by
  simp [onEvent, h]

/-- An operation on an event that answers a next state is on an event of the block. -/
theorem onEvent_next_cases {e : EventId} {run : State → State} {s t : State} (h : onEvent e run s = .next t) :
    e ∈ s.params.events ∧ t = run s := by
  unfold onEvent at h
  split at h
  · next he => injection h with h; exact ⟨he, h.symm⟩
  · cases h

/-! ### The supply of callback sequences -/

theorem takeCallback_of_none {e : EventId} {cbs : List (EventId × List CallOp)} (h : ∀ cb ∈ cbs, cb.1 ≠ e) :
    takeCallback e cbs = ([], cbs) := by
  induction cbs with
  | nil => rfl
  | cons cb rest ih =>
    have h1 : cb.1 ≠ e := h cb (List.mem_cons_self ..)
    rw [takeCallback, if_neg h1, ih fun c hc => h c (List.mem_cons_of_mem _ hc)]

theorem takeCallback_of_first {e : EventId} {before after : List (EventId × List CallOp)} {ops : List CallOp}
    (h : ∀ cb ∈ before, cb.1 ≠ e) : takeCallback e (before ++ (e, ops) :: after) = (ops, before ++ after) := by
  induction before with
  | nil => simp [takeCallback]
  | cons cb rest ih =>
    have h1 : cb.1 ≠ e := h cb (List.mem_cons_self ..)
    rw [List.cons_append, takeCallback, if_neg h1, ih fun c hc => h c (List.mem_cons_of_mem _ hc)]
    rfl

/-- Taking a sequence takes its operations off the supply. -/
theorem takeCallback_length (e : EventId) (cbs : List (EventId × List CallOp)) :
    (takeCallback e cbs).1.length + ((takeCallback e cbs).2.map fun cb => cb.2.length).sum =
      (cbs.map fun cb => cb.2.length).sum := by
  induction cbs with
  | nil => rfl
  | cons cb rest ih =>
    unfold takeCallback
    split
    · simp
    · simp only [List.map_cons, List.sum_cons]; omega

theorem takeCallback_mem {e : EventId} {cbs : List (EventId × List CallOp)} :
    (∀ cb ∈ (takeCallback e cbs).2, cb ∈ cbs) ∧ (∀ op ∈ (takeCallback e cbs).1, ∃ cb ∈ cbs, op ∈ cb.2) := by
  induction cbs with
  | nil => simp [takeCallback]
  | cons cb rest ih =>
    unfold takeCallback
    split
    · exact ⟨fun c hc => List.mem_cons_of_mem _ hc, fun op hop => ⟨cb, List.mem_cons_self .., hop⟩⟩
    · refine ⟨fun c hc => ?_, fun op hop => ?_⟩
      · rcases List.mem_cons.1 hc with rfl | hc
        · exact List.mem_cons_self ..
        · exact List.mem_cons_of_mem _ (ih.1 c hc)
      · obtain ⟨c, hc, h⟩ := ih.2 op hop
        exact ⟨c, List.mem_cons_of_mem _ hc, h⟩

/-! ### Callbacks -/

/-- A callback whose first operation answers a next state stops there on a fault of the block, and goes on otherwise (rule R359). -/
theorem runCallback_cons {op : CallOp} {s t : State} (h : runCallOp op s = .next t) (ops : List CallOp) :
    runCallback (op :: ops) s = if t.faulted = none then runCallback ops t else .next t := by
  rw [runCallback, h]
  cases hf : t.faulted <;> simp [hf]

/-! ### Cycles of a chip of the block -/

/-- A cycle of a chip changes only the chips and the outputs. -/
theorem State.clockChip_changes (s : State) (i : ChipIndex) :
    ∃ cs os, s.clockChip i = { s with chips := cs, outputs := os } ∧ cs.length = s.chips.length := by
  unfold State.clockChip
  split
  · exact ⟨_, _, rfl, by simp⟩
  · exact ⟨s.chips, s.outputs, rfl, rfl⟩

theorem State.clockChipTimes_changes (i : ChipIndex) (n : Nat) (s : State) :
    ∃ cs os, s.clockChipTimes i n = { s with chips := cs, outputs := os } ∧ cs.length = s.chips.length := by
  induction n generalizing s with
  | zero => exact ⟨s.chips, s.outputs, rfl, rfl⟩
  | succ n ih =>
    obtain ⟨cs, os, h1, l1⟩ := s.clockChip_changes i
    obtain ⟨cs', os', h2, l2⟩ := ih (s.clockChip i)
    refine ⟨cs', os', ?_, ?_⟩
    · rw [State.clockChipTimes, h2, h1]
    · rw [l2, h1, l1]

/-! ### Port words -/

/-- A port transaction that answers a next state changes only the chips and the outputs, and no chip but the selected one. -/
theorem runPort_changes {op : PortOp} {s t : State} (h : runPort op s = .next t) :
    ∃ cs os, t = { s with chips := cs, outputs := os } ∧ cs.length = s.chips.length ∧
      ∀ k, k ≠ s.chipSel → cs[k]? = s.chips[k]? := by
  have fin : ∀ {run : State → Out}, (∀ c, s.chips[s.chipSel]? = some c → s.faulted = none → ∃ c' os,
      run s = .next { withSelected s c' with outputs := os }) →
      (∀ t, run s = .next t → ∃ c, s.chips[s.chipSel]? = some c) → operation s run = .next t →
      ∃ cs os, t = { s with chips := cs, outputs := os } ∧ cs.length = s.chips.length ∧
        ∀ k, k ≠ s.chipSel → cs[k]? = s.chips[k]? := by
    intro run hrun hsel h
    rcases operation_next_cases h with ⟨f, hf, rfl⟩ | ⟨hf, h⟩
    · exact ⟨s.chips, _, rfl, rfl, fun _ _ => rfl⟩
    · obtain ⟨c, hc⟩ := hsel t h
      obtain ⟨c', os, he⟩ := hrun c hc hf
      rw [he] at h
      injection h with h
      subst h
      refine ⟨_, _, rfl, by simp, fun k hk => ?_⟩
      rw [withSelected_chips, List.getElem?_set, if_neg (Ne.symm hk)]
  cases op with
  | busWrite off d =>
    refine fin (run := fun s => onSelected s fun c => s.setChip s.chipSel (c.busWrite s.params off (registerAt off) d))
      (fun c hc hf => ⟨c.busWrite s.params off (registerAt off) d, s.outputs, ?_⟩) (fun t ht => ?_) h
    · dsimp only; rw [onSelected_of_selected hc]; rfl
    · obtain ⟨c, hc, _⟩ := onSelected_next_cases ht; exact ⟨c, hc⟩
  | busRead off =>
    refine fin (run := fun s => onSelected s fun c =>
        (s.setChip s.chipSel ((readAt off) c).1).emit (.byte s.chipSel ((readAt off) c).2))
      (fun c hc hf => ⟨((readAt off) c).1, .byte s.chipSel ((readAt off) c).2 :: s.outputs, ?_⟩) (fun t ht => ?_) h
    · dsimp only; rw [onSelected_of_selected hc]; rfl
    · obtain ⟨c, hc, _⟩ := onSelected_next_cases ht; exact ⟨c, hc⟩
  | clock =>
    refine fin (run := fun s => onSelected s fun _ => s.clockChip s.chipSel)
      (fun c hc hf => ⟨(c.cycle s.params).1, .sample s.chipSel (c.cycle s.params).2 :: s.outputs, ?_⟩) (fun t ht => ?_) h
    · dsimp only; rw [onSelected_of_selected hc, clockChip_of_present hc]; rfl
    · obtain ⟨c, hc, _⟩ := onSelected_next_cases ht; exact ⟨c, hc⟩
  | reset =>
    refine fin (run := fun s => onSelected s fun c => s.setChip s.chipSel (c.chipReset s.params))
      (fun c hc hf => ⟨c.chipReset s.params, s.outputs, ?_⟩) (fun t ht => ?_) h
    · dsimp only; rw [onSelected_of_selected hc]; rfl
    · obtain ⟨c, hc, _⟩ := onSelected_next_cases ht; exact ⟨c, hc⟩

end Sys2Proof.Machine
end

