-- ==== Sys2Proof/Laws/Progress.lean ====
section
/-! SUPPORT. Every operation whose operands are of their types answers a next state (spec/60_exceptions.md rule R358), and keeps the
block's chips and events, so that what is well formed before it is well formed after it. -/

namespace Sys2Proof.Machine

/-- What makes an operand well formed is the same in both states, and no callback sequence is new. -/
structure SameTypes (s t : State) : Prop where
  params : t.params = s.params
  chips : t.chips.length = s.chips.length
  callbacks : ∀ cb ∈ t.callbacks, cb ∈ s.callbacks

theorem SameTypes.refl (s : State) : SameTypes s s := ⟨rfl, rfl, fun _ h => h⟩

theorem SameTypes.trans {s t u : State} (h1 : SameTypes s t) (h2 : SameTypes t u) : SameTypes s u :=
  ⟨h2.params.trans h1.params, h2.chips.trans h1.chips, fun cb h => h1.callbacks cb (h2.callbacks cb h)⟩

theorem SameTypes.reach {s t : State} (h : SameTypes s t) (hr : callbacksReach s) : callbacksReach t := by
  intro cb hcb
  rw [h.params, h.chips]
  exact hr cb (h.callbacks cb hcb)

theorem SameTypes.wellFormed {s t : State} (h : SameTypes s t) (hr : callbacksWellFormed s) : callbacksWellFormed t := by
  intro cb hcb
  rw [h.params, h.chips]
  exact hr cb (h.callbacks cb hcb)

/-- Sequences that can be written in the block reach only its chips and events. -/
theorem callbacksReach_of_wellFormed {s : State} (h : callbacksWellFormed s) : callbacksReach s := by
  intro cb hcb
  have := h cb hcb
  rw [callbackWellFormed, Bool.and_eq_true, List.all_eq_true] at this
  exact this.2

/-- Supplying a sequence keeps the supply of the block's own types (rule R358). -/
theorem supply_wellFormed {s : State} (h : callbacksWellFormed s) (e : EventId) (ops : List CallOp) :
    callbacksWellFormed (s.supply e ops) := by
  unfold State.supply
  split
  · next hw =>
    intro cb hcb
    rcases List.mem_append.1 hcb with hcb | hcb
    · exact h cb hcb
    · exact List.mem_singleton.1 hcb ▸ hw
  · exact h

/-- So does building a block anew, whatever was supplied before (rules R358, R380). -/
theorem powerOn_wellFormed {s : State} (h : callbacksWellFormed s) (a : PowerOnArgs) : callbacksWellFormed (s.powerOn a) := by
  unfold State.powerOn
  split
  · exact h
  · intro cb hcb
    rw [show (s.built a).chips.length = a.models.length from List.length_map ..]
    exact (List.mem_filter.1 hcb).2

/-! ### Single operations -/

/-- A port transaction on a chip of the block answers a next state. -/
theorem runPort_total {op : PortOp} {s : State} (h : s.chipSel < s.chips.length) :
    ∃ t, runPort op s = .next t ∧ SameTypes s t := by
  have hn : ∃ t, runPort op s = .next t := by
    have hc : s.chips[s.chipSel]? = some s.chips[s.chipSel] := List.getElem?_eq_getElem h
    cases hf : s.faulted with
    | some f =>
      refine ⟨s.emit .faultReturned, ?_⟩
      cases op <;> simp [runPort, portWrite, portRead, portClock, portReset, operation_of_faulted hf]
    | none =>
      have hr : Ready s s.chips[s.chipSel] := ⟨hf, hc⟩
      cases op
      · exact ⟨_, portWrite_of_ready hr _ _ _⟩
      · exact ⟨_, portRead_of_ready hr _⟩
      · exact ⟨_, portClock_of_ready hr⟩
      · exact ⟨_, portReset_of_ready hr⟩
  obtain ⟨t, ht⟩ := hn
  obtain ⟨cs, os, rfl, hl, _⟩ := runPort_changes ht
  exact ⟨_, ht, rfl, hl, fun _ h => h⟩

theorem portWord_total {c : ChipIndex} {w : PortWord} {s : State} (h : c < s.chips.length) :
    ∃ t, portWord c w s = .next t ∧ SameTypes s t := by
  unfold portWord
  split
  · next op _ =>
    obtain ⟨t, ht, k⟩ := runPort_total (op := op) (s := s.select c) h
    exact ⟨t, ht, k.params, k.chips, k.callbacks⟩
  · unfold illegalWord operation
    split <;> exact ⟨_, rfl, rfl, rfl, fun _ h => h⟩

theorem schedule_sameTypes (e : EventId) (delay : Nat) (ph : Phase) (s : State) : SameTypes s (s.schedule e delay ph) := by
  rcases s.schedule_cases e delay ph with ⟨f, h⟩ | ⟨_, _, _, h⟩ <;> rw [h] <;> exact ⟨rfl, rfl, fun _ h => h⟩

theorem catchup_total {c : ChipIndex} {s : State} (h : c < s.chips.length) :
    ∃ t, s.catchup c = .next t ∧ SameTypes s t := by
  have hc : s.chip? c = some s.chips[c] := List.getElem?_eq_getElem h
  unfold State.catchup
  rw [hc]
  obtain ⟨cs, os, he, hl⟩ := s.clockChipTimes_changes c (cyclesDue s.time - s.chips[c].cycles.toNat)
  exact ⟨_, rfl, by rw [he], by rw [he]; exact hl, by rw [he]; exact fun _ h => h⟩

/-! ### Callbacks -/

theorem runCallOp_total {op : CallOp} {s : State} (h : op.wellFormed s.chips.length s.params.events = true) :
    ∃ t, runCallOp op s = .next t ∧ SameTypes s t := by
  cases op with
  | port c w => exact portWord_total (by simpa [CallOp.wellFormed] using h)
  | schedule e delay ph =>
    exact ⟨_, onEvent_of_known (by simpa [CallOp.wellFormed] using h) _, schedule_sameTypes e delay ph s⟩
  | cancel e => exact ⟨_, onEvent_of_known (by simpa [CallOp.wellFormed] using h) _, rfl, rfl, fun _ h => h⟩
  | getTime => exact ⟨_, rfl, rfl, rfl, fun _ h => h⟩
  | catchup c => exact catchup_total (by simpa [CallOp.wellFormed] using h)
  | drive inp =>
    obtain ⟨cs, he, hl⟩ := s.driveInput_changes inp
    exact ⟨_, rfl, by rw [he], by rw [he]; exact hl, by rw [he]; exact fun _ h => h⟩

theorem runCallback_total {ops : List CallOp} {s : State}
    (h : ∀ op ∈ ops, op.wellFormed s.chips.length s.params.events = true) : ∃ t, runCallback ops s = .next t ∧ SameTypes s t := by
  induction ops generalizing s with
  | nil => exact ⟨s, rfl, SameTypes.refl s⟩
  | cons op ops ih =>
    obtain ⟨t, ht, k⟩ := runCallOp_total (h op (List.mem_cons_self ..))
    rw [runCallback_cons ht]
    split
    · obtain ⟨u, hu, k'⟩ := ih (s := t) fun o ho => by rw [k.params, k.chips]; exact h o (List.mem_cons_of_mem _ ho)
      exact ⟨u, hu, k.trans k'⟩
    · exact ⟨t, rfl, k⟩

/-- A callback operation adds at most one entry to the queue, takes none off the supply and leaves the time (rule R113). -/
theorem runCallOp_queue {op : CallOp} {s t : State} (h : runCallOp op s = .next t) :
    t.queue.length ≤ s.queue.length + 1 ∧ t.callbacks = s.callbacks ∧ t.time = s.time := by
  cases op with
  | port c w =>
    change portWord c w s = _ at h
    unfold portWord at h
    split at h
    · obtain ⟨cs, os, rfl, _⟩ := runPort_changes h
      exact ⟨Nat.le_succ _, rfl, rfl⟩
    · unfold illegalWord operation at h
      split at h <;> (injection h with h; subst h; exact ⟨Nat.le_succ _, rfl, rfl⟩)
  | schedule e delay ph =>
    obtain ⟨_, rfl⟩ := onEvent_next_cases h
    rcases s.schedule_cases e delay ph with ⟨f, he⟩ | ⟨_, _, _, he⟩ <;> rw [he]
    · exact ⟨Nat.le_succ _, rfl, rfl⟩
    · exact ⟨by simp [(queueInsert_perm _ _).length_eq], rfl, rfl⟩
  | cancel e =>
    obtain ⟨_, rfl⟩ := onEvent_next_cases h
    exact ⟨Nat.le_succ_of_le (List.length_filter_le _ _), rfl, rfl⟩
  | getTime => injection h with h; subst h; exact ⟨Nat.le_succ _, rfl, rfl⟩
  | catchup c =>
    change s.catchup c = _ at h
    unfold State.catchup at h
    split at h
    · injection h with h
      obtain ⟨cs, os, he, _⟩ := s.clockChipTimes_changes c (cyclesDue s.time - _)
      rw [← h, he]
      exact ⟨Nat.le_succ _, rfl, rfl⟩
    · cases h
  | drive inp => injection h with h; subst h; simp

/-- A callback adds at most one entry per operation. -/
theorem runCallback_queue {ops : List CallOp} {s t : State} (h : runCallback ops s = .next t) :
    t.queue.length ≤ s.queue.length + ops.length ∧ t.callbacks = s.callbacks ∧ t.time = s.time := by
  induction ops generalizing s with
  | nil => injection h with h; subst h; simp
  | cons op ops ih =>
    have h' := h
    rw [runCallback] at h'
    cases hop : runCallOp op s with
    | next u =>
      obtain ⟨hq, hc, ht⟩ := runCallOp_queue hop
      rw [runCallback_cons hop] at h
      split at h
      · obtain ⟨hq', hc', ht'⟩ := ih h
        exact ⟨by simp only [List.length_cons]; omega, hc'.trans hc, ht'.trans ht⟩
      · injection h with h; subst h
        exact ⟨by simp only [List.length_cons]; omega, hc, ht⟩
    | fault f => rw [hop] at h'; cases h'
    | refused r => rw [hop] at h'; cases h'

/-! ### Dispatching -/

/-- A dispatch lowers the bound on the dispatches still to come. -/
theorem dispatchEntry_bound {x : QueueEntry} {rest : List QueueEntry} {s t : State} (hs : s.queue = x :: rest)
    (h : s.dispatchEntry x rest = .next t) : t.dispatchBound < s.dispatchBound := by
  obtain ⟨hq, hc, _⟩ := runCallback_queue h
  have hl := takeCallback_length x.event s.callbacks
  simp only [State.dispatchBound, hs, hc, List.length_cons] at *
  omega

/-- A dispatch leaves the time at the entry's (rule R117). -/
theorem dispatchEntry_time {x : QueueEntry} {rest : List QueueEntry} {s t : State} (h : s.dispatchEntry x rest = .next t) :
    t.time = x.time := (runCallback_queue h).2.2

/-- The loop of RUN_UNTIL comes to its end within its bound: two bounds that suffice give the same (rule R118, log entry 8). -/
theorem runLoop_of_bounds {target m n : Nat} {s : State} (hm : s.dispatchBound ≤ m) (hn : s.dispatchBound ≤ n) :
    runLoop target m s = runLoop target n s := by
  induction m generalizing n s with
  | zero =>
    have hq : s.queue = [] := List.length_eq_zero_iff.1 (by simp only [State.dispatchBound] at hm; omega)
    cases n <;> simp only [runLoop, hq]
  | succ m ih =>
    rcases hq : s.queue with _ | ⟨x, rest⟩
    · cases n <;> simp only [runLoop, hq]
    · obtain ⟨n, rfl⟩ : ∃ b, n = b + 1 := ⟨n - 1, by simp only [State.dispatchBound, hq, List.length_cons] at hn; omega⟩
      simp only [runLoop, hq]
      split
      · rfl
      · cases hd : s.dispatchEntry x rest with
        | next t =>
          have hlt := dispatchEntry_bound hq hd
          dsimp only
          cases t.faulted with
          | some f => rfl
          | none => exact ih (by omega) (by omega)
        | fault f => rfl
        | refused r => rfl

/-- RUN_UNTIL dispatches a head that is due, and goes on from there unless a fault ended it (rules R118, R359). -/
theorem runLoop_of_due {target : Nat} {x : QueueEntry} {rest : List QueueEntry} {s t : State} (hs : s.queue = x :: rest)
    (hx : x.time.toNat ≤ target) (h : s.dispatchEntry x rest = .next t) :
    runLoop target s.dispatchBound s =
      match t.faulted with
      | some _ => .next t
      | none => runLoop target t.dispatchBound t := by
  have hlt := dispatchEntry_bound hs h
  obtain ⟨b, hb⟩ : ∃ b, s.dispatchBound = b + 1 := ⟨s.dispatchBound - 1, by omega⟩
  rw [hb]
  simp only [runLoop, hs, if_neg (Nat.not_lt.2 hx), h]
  cases t.faulted with
  | some f => rfl
  | none => exact runLoop_of_bounds (by omega) (Nat.le_refl _)

theorem dispatchEntry_total {x : QueueEntry} {rest : List QueueEntry} {s : State} (h : callbacksReach s) :
    ∃ t, s.dispatchEntry x rest = .next t ∧ SameTypes s t := by
  obtain ⟨hm, ho⟩ := @takeCallback_mem x.event s.callbacks
  obtain ⟨t, ht, k⟩ := runCallback_total (ops := (takeCallback x.event s.callbacks).1)
    (s := { s with queue := rest, time := x.time, callbacks := (takeCallback x.event s.callbacks).2 }) fun op hop => by
      obtain ⟨cb, hcb, hmem⟩ := ho op hop
      exact h cb hcb op hmem
  exact ⟨t, ht, k.params, k.chips, fun cb hcb => hm cb (k.callbacks cb hcb)⟩

theorem dispatch_total {s : State} (h : callbacksReach s) : ∃ t, s.dispatch = .next t ∧ SameTypes s t := by
  unfold State.dispatch
  split
  · exact ⟨_, rfl, rfl, rfl, fun _ h => h⟩
  · next x rest _ =>
    obtain ⟨t, ht, k⟩ := dispatchEntry_total (x := x) (rest := rest) h
    rw [ht]
    dsimp only
    split
    · exact ⟨t, rfl, k⟩
    · exact ⟨_, rfl, k.params, k.chips, k.callbacks⟩

theorem runLoop_total {target n : Nat} {s : State} (h : callbacksReach s) : ∃ t, runLoop target n s = .next t ∧ SameTypes s t := by
  induction n generalizing s with
  | zero => exact ⟨_, rfl, rfl, rfl, fun _ h => h⟩
  | succ n ih =>
    unfold runLoop
    split
    · exact ⟨_, rfl, rfl, rfl, fun _ h => h⟩
    · next x rest _ =>
      split
      · exact ⟨_, rfl, rfl, rfl, fun _ h => h⟩
      · obtain ⟨t, ht, k⟩ := dispatchEntry_total (x := x) (rest := rest) h
        rw [ht]
        dsimp only
        split
        · exact ⟨t, rfl, k⟩
        · obtain ⟨u, hu, k'⟩ := ih (k.reach h)
          exact ⟨u, hu, k.trans k'⟩

theorem runUntil_total {target : Nat} {s : State} (h : callbacksReach s) : ∃ t, s.runUntil target = .next t ∧ SameTypes s t := by
  unfold State.runUntil
  split
  · exact ⟨_, rfl, rfl, rfl, fun _ h => h⟩
  · split
    · exact ⟨_, rfl, rfl, rfl, fun _ h => h⟩
    · exact runLoop_total h

end Sys2Proof.Machine
end

