-- ==== Sys2Proof/Laws/Writes.lean ====
section
/-! SUPPORT. What each register write does to the selected chip of a ready block: one lemma per shape of write (rules R320, R321). -/

namespace Sys2Proof.Machine

/-- A write of a waveform register that is not CONTROL reaches its voice alone. -/
theorem voiceWritten_mapWave {off : Offset} (hoff : controlVoice off = none) (p : Params) (v : VoiceId)
    (f : Byte → Wave → Wave) (d : Byte) (c : Chip) :
    VoiceWritten d v { c.voice v with wave := f d (c.voice v).wave } c
      (c.busWrite p off (fun _ d c => c.mapWave v (f d)) d) where
  bus := busLoaded_busWrite (registerOnly_mapWave v fun _ d _ => f d) p off d c
  voice := by rw [busWrite_voice, gated_of_not_control hoff]; simp
  others := fun u hu => by rw [busWrite_voice, Chip.voice_mapWave_of_ne _ _ hu]; simp
  filter := by rw [busWrite_filter]; simp

/-- A write of an envelope register reaches its voice alone. -/
theorem voiceWritten_mapEnv {off : Offset} (hoff : controlVoice off = none) (p : Params) (v : VoiceId)
    (f : Byte → Env → Env) (d : Byte) (c : Chip) :
    VoiceWritten d v { c.voice v with env := f d (c.voice v).env } c
      (c.busWrite p off (fun _ d c => c.mapEnv v (f d)) d) where
  bus := busLoaded_busWrite (registerOnly_mapEnv v fun _ d _ => f d) p off d c
  voice := by rw [busWrite_voice, gated_of_not_control hoff]; simp
  others := fun u hu => by rw [busWrite_voice, Chip.voice_mapEnv_of_ne _ _ hu]; simp
  filter := by rw [busWrite_filter]; simp

/-- A CONTROL write drives the two halves of its voice with the byte the mute gate delivers (rules R144, R203, R321). -/
theorem control_busWrite {off : Offset} {v : VoiceId} (hoff : controlVoice off = some v) (p : Params) (d : Byte) (c : Chip) :
    BusLoaded d c (c.busWrite p off (regControl v) d) ∧ (c.busWrite p off (regControl v) d).filter = c.filter ∧
    (∀ u, u ≠ v → (c.busWrite p off (regControl v) d).voice u = c.voice u) ∧
    (c.busWrite p off (regControl v) d).voice v =
      { wave := (c.voice v).wave.writeControl (srrCycles p c.model) (floatTtl p c.model) (delivered c v d)
        env := (c.voice v).env.writeControl (delivered c v d) } := by
  refine ⟨busLoaded_busWrite (registerOnly_control v) p off d c, ?_, fun u hu => ?_, ?_⟩
  · rw [busWrite_filter]; simp [regControl]
  · rw [busWrite_voice, regControl, Chip.voice_mapEnv_of_ne _ _ hu, Chip.voice_mapWave_of_ne _ _ hu]; simp
  · rw [busWrite_voice, gated_of_control hoff, regControl]; simp

/-- A filter write changes the filter by its rule and no voice. -/
theorem filter_busWrite {off : Offset} (hoff : controlVoice off = none) (p : Params) (f : Byte → Filter → Filter) (d : Byte)
    (c : Chip) :
    BusLoaded d c (c.busWrite p off (fun _ d c => { c with filter := f d c.filter }) d) ∧
    (∀ v, (c.busWrite p off (fun _ d c => { c with filter := f d c.filter }) d).voice v = c.voice v) ∧
    (c.busWrite p off (fun _ d c => { c with filter := f d c.filter }) d).filter = f d c.filter := by
  refine ⟨busLoaded_busWrite (registerOnly_filter f) p off d c, fun v => ?_, ?_⟩
  · rw [busWrite_voice]; cases v <;> rfl
  · rw [busWrite_filter, gated_of_not_control hoff]

/-- A write that reaches no register loads the bus and changes no voice and no filter field (rule R330). -/
theorem none_busWrite (p : Params) (off : Offset) (d : Byte) (c : Chip) :
    BusLoaded d c (c.busWrite p off regNone d) ∧ (∀ v, (c.busWrite p off regNone d).voice v = c.voice v) ∧
    (c.busWrite p off regNone d).filter = c.filter := by
  refine ⟨busLoaded_busWrite registerOnly_none p off d c, fun v => ?_, rfl⟩
  rw [busWrite_voice]; cases v <;> rfl

end Sys2Proof.Machine
end

