-- ==== Sys2Proof/Tests/Slice0.lean ====
section
/-! SUPPORT. The model's own tests. The decoding tests write each word out bit by bit from the formats of spec/30_encoding.md rule
R90; the single-step tests take their expected values from spec/95_test_vectors.md; each statement with hypotheses has a witness that
meets them. -/

namespace Sys2Proof.Tests

open Sys2Proof Sys2Proof.Machine

/-! ## Helpers -/

/-- A chip of a model right after power-on with the default integrator state. -/
def chipOf (m : ChipModel) : Chip := Chip.powerOn m ⟨0, 0⟩

/-- A block with the one chip `c`, selected. -/
def block (c : Chip) : State := { State.reset with chips := [c] }

/-- The power-on MOS6581 with voice 1's waveform generator changed. -/
def waveChip (f : Wave → Wave) : Chip := (chipOf .mos6581).mapWave .v1 f

/-- The power-on MOS6581 with voice 1's envelope generator changed. -/
def envChip (f : Env → Env) : Chip := (chipOf .mos6581).mapEnv .v1 f

/-- What an observation sees after an instruction, `none` where it stops. -/
def seen {α : Type} (i : Instr) (s : State) (obs : State → α) : Option α :=
  match exec i s with
  | .next t => some (obs t)
  | _ => none

/-- An observation of the block's first chip. -/
def chip0 {α : Type} (obs : Chip → α) (s : State) : Option α := (s.chips[0]?).map obs

/-- A block at time `t` with queue `q`. -/
def sched (t : BitVec 64) (q : List QueueEntry) : State := { State.reset with time := t, queue := q }

theorem ready_block (c : Chip) : Ready (block c) c := ⟨rfl, rfl⟩

/-! ## Well-formed terms -/

theorem test_wellFormed_refuses_chip : Instr.wellFormed 1 [0] (.catchup 1) = false ∧ Instr.wellFormed 3 [0] (.catchup 3) = false := by
  decide
theorem test_wellFormed_admits_third_chip : Instr.wellFormed 3 [0] (.catchup 2) = true := by decide
theorem test_wellFormed_refuses_event : Instr.wellFormed 1 [0, 2] (.schedule 1 0 .phi1) = false ∧
    Instr.wellFormed 1 [0, 2] (.cancel 1) = false := by decide
theorem test_wellFormed_refuses_callback_port : CallOp.wellFormed 2 [0] (.port 2 0x8000#16) = false := by decide
theorem test_wellFormed_refuses_callback_catchup : CallOp.wellFormed 3 [0] (.catchup 4) = false := by decide
theorem test_wellFormed_refuses_callback_drive : CallOp.wellFormed 1 [0] (.drive (.mute 1 0 true)) = false := by decide
theorem test_wellFormed_refuses_callback_event : CallOp.wellFormed 1 [0] (.schedule 1 0 .phi1) = false ∧
    CallOp.wellFormed 1 [0] (.cancel 1) = false := by decide
theorem test_wellFormed_refuses_input_port : Input.wellFormed 1 [0] (.port 1 0x8000#16) = false := by decide
theorem test_wellFormed_refuses_input_call : Input.wellFormed 3 [0] (.call (.catchup 3)) = false := by decide
theorem test_wellFormed_refuses_host_inputs :
    Input.wellFormed 1 [0] (.host (.drive (.potX 1 0))) = false ∧ Input.wellFormed 1 [0] (.host (.drive (.potY 1 0))) = false ∧
    Input.wellFormed 1 [0] (.host (.drive (.mute 1 0 true))) = false ∧
    Input.wellFormed 1 [0] (.host (.drive (.extIn 1 0))) = false := by decide
theorem test_wellFormed_refuses_supplied_callback :
    Input.wellFormed 3 [0, 1] (.host (.supplyCallback 0 [.cancel 1, .catchup 3])) = false ∧
    Input.wellFormed 3 [0, 1] (.host (.supplyCallback 2 [])) = false := by decide

/-! ## Decoding: kind, reserved bit, offset, data -/

theorem test_decode_voice1 :
    decode 0b00_0_00000_10100101#16 = some (.wFreqLo1 0xA5#8) ∧ decode 0b00_0_00001_10100101#16 = some (.wFreqHi1 0xA5#8) ∧
    decode 0b00_0_00010_10100101#16 = some (.wPwLo1 0xA5#8) ∧ decode 0b00_0_00011_10100101#16 = some (.wPwHi1 0xA5#8) ∧
    decode 0b00_0_00100_10100101#16 = some (.wControl1 0xA5#8) ∧ decode 0b00_0_00101_10100101#16 = some (.wAd1 0xA5#8) ∧
    decode 0b00_0_00110_10100101#16 = some (.wSr1 0xA5#8) := by decide

theorem test_decode_voice2 :
    decode 0b00_0_00111_10100101#16 = some (.wFreqLo2 0xA5#8) ∧ decode 0b00_0_01000_10100101#16 = some (.wFreqHi2 0xA5#8) ∧
    decode 0b00_0_01001_10100101#16 = some (.wPwLo2 0xA5#8) ∧ decode 0b00_0_01010_10100101#16 = some (.wPwHi2 0xA5#8) ∧
    decode 0b00_0_01011_10100101#16 = some (.wControl2 0xA5#8) ∧ decode 0b00_0_01100_10100101#16 = some (.wAd2 0xA5#8) ∧
    decode 0b00_0_01101_10100101#16 = some (.wSr2 0xA5#8) := by decide

theorem test_decode_voice3 :
    decode 0b00_0_01110_10100101#16 = some (.wFreqLo3 0xA5#8) ∧ decode 0b00_0_01111_10100101#16 = some (.wFreqHi3 0xA5#8) ∧
    decode 0b00_0_10000_10100101#16 = some (.wPwLo3 0xA5#8) ∧ decode 0b00_0_10001_10100101#16 = some (.wPwHi3 0xA5#8) ∧
    decode 0b00_0_10010_10100101#16 = some (.wControl3 0xA5#8) ∧ decode 0b00_0_10011_10100101#16 = some (.wAd3 0xA5#8) ∧
    decode 0b00_0_10100_10100101#16 = some (.wSr3 0xA5#8) := by decide

theorem test_decode_filter_writes :
    decode 0b00_0_10101_10100101#16 = some (.wFcLo 0xA5#8) ∧ decode 0b00_0_10110_10100101#16 = some (.wFcHi 0xA5#8) ∧
    decode 0b00_0_10111_10100101#16 = some (.wResFilt 0xA5#8) ∧ decode 0b00_0_11000_10100101#16 = some (.wModeVol 0xA5#8) := by
  decide

theorem test_decode_none_writes :
    decode 0b00_0_11001_10100101#16 = some (.wNone19 0xA5#8) ∧ decode 0b00_0_11010_10100101#16 = some (.wNone1A 0#1 0xA5#8) ∧
    decode 0b00_0_11011_10100101#16 = some (.wNone1A 1#1 0xA5#8) ∧
    decode 0b00_0_11100_10100101#16 = some (.wNone1C 0#2 0xA5#8) ∧
    decode 0b00_0_11111_10100101#16 = some (.wNone1C 3#2 0xA5#8) := by decide

theorem test_decode_register_reads :
    decode 0b01_0_11001_00000000#16 = some .rPotX ∧ decode 0b01_0_11010_00000000#16 = some .rPotY ∧
    decode 0b01_0_11011_00000000#16 = some .rOsc3 ∧ decode 0b01_0_11100_00000000#16 = some .rEnv3 := by decide

theorem test_decode_bus_reads :
    decode 0b01_0_00000_00000000#16 = some (.rBus00 0#4) ∧ decode 0b01_0_01111_00000000#16 = some (.rBus00 15#4) ∧
    decode 0b01_0_10000_00000000#16 = some (.rBus10 0#3) ∧ decode 0b01_0_10111_00000000#16 = some (.rBus10 7#3) ∧
    decode 0b01_0_11000_00000000#16 = some .rBus18 ∧ decode 0b01_0_11101_00000000#16 = some .rBus1D ∧
    decode 0b01_0_11110_00000000#16 = some (.rBus1E 0#1) ∧ decode 0b01_0_11111_00000000#16 = some (.rBus1E 1#1) := by decide

theorem test_decode_clk_reset :
    decode 0b10_00000000000000#16 = some .clk ∧ decode 0b11_00_000000000000#16 = some .reset := by decide

/-- Vectors V-EC-12 to V-EC-18: the illegal words. -/
theorem test_decode_illegal :
    [0x2000#16, 0x6000#16, 0x5B01#16, 0x8001#16, 0xA000#16, 0xC001#16, 0xD000#16, 0xE000#16, 0xF000#16].map decode
      = List.replicate 9 none := by decide

/-- The scheduler calls have no port word (rule R90). -/
theorem test_decodeTableWord :
    decodeTableWord 16 0x0441 = some (.wControl1 0x41#8) ∧ decodeTableWord 0 0 = none ∧ decodeTableWord 16 0x10000 = none := by
  decide

/-- Vectors V-EC-19 to V-EC-21: the pseudo-instructions. -/
theorem test_pseudo_instructions :
    pseudoFreq 2 0x8000#16 = [0x0E00#16, 0x0F80#16] ∧ pseudoPw 0 0x800#12 = [0x0200#16, 0x0308#16] ∧
    pseudoFc 0x407#11 = [0x1507#16, 0x1680#16] := by decide

theorem test_withFetchWord_runs_next :
    step (State.reset.withFetchWord 16 0x180F) = exec (.wModeVol 0x0F#8) State.reset := by rfl

theorem test_idle_step : step State.reset = .next State.reset := by rfl

/-! ## Register writes (vectors V-RW-1 to V-RW-15, V-CT-1 to V-CT-11) -/

theorem test_wFreqLo1 : seen (.wFreqLo1 0xCD#8) (block (waveChip fun v => { v with freq := 0x1234#16 }))
    (chip0 fun c => c.voice1.wave.freq) = some (some 0x12CD#16) := by decide

theorem test_wFreqHi1 : seen (.wFreqHi1 0xAB#8) (block (waveChip fun v => { v with freq := 0x12CD#16 }))
    (chip0 fun c => c.voice1.wave.freq) = some (some 0xABCD#16) := by decide

theorem test_wFreqLo2 : seen (.wFreqLo2 0x34#8) State.reset
    (chip0 fun c => (c.voice1.wave.freq, c.voice2.wave.freq, c.voice3.wave.freq))
    = some (some (0, 0x0034#16, 0)) := by decide

theorem test_wFreqHi2 : seen (.wFreqHi2 0x12#8) State.reset
    (chip0 fun c => (c.voice1.wave.freq, c.voice2.wave.freq, c.voice3.wave.freq))
    = some (some (0, 0x1200#16, 0)) := by decide

theorem test_wFreqHi3 : seen (.wFreqHi3 0x80#8) State.reset
    (chip0 fun c => (c.voice1.wave.freq, c.voice2.wave.freq, c.voice3.wave.freq))
    = some (some (0, 0, 0x8000#16)) := by decide

theorem test_wPwLo1 : seen (.wPwLo1 0xFF#8) (block (waveChip fun v => { v with pw := 0x800#12 }))
    (chip0 fun c => c.voice1.wave.pw) = some (some 0x8FF#12) := by decide

theorem test_wPwHi1 : seen (.wPwHi1 0xF3#8) (block (waveChip fun v => { v with pw := 0x8FF#12 }))
    (chip0 fun c => (c.voice1.wave.pw, c.busValue)) = some (some (0x3FF#12, 0xF3#8)) := by decide

theorem test_wAd1 : seen (.wAd1 0xA0#8) State.reset (chip0 fun c => (c.voice1.env.attack, c.voice1.env.decay))
    = some (some (10, 0)) := by decide

theorem test_wSr1 : seen (.wSr1 0xA5#8) State.reset (chip0 fun c => (c.voice1.env.sustain, c.voice1.env.release))
    = some (some (0xAA#8, 5)) := by decide

theorem test_wSr3 : seen (.wSr3 0x0F#8) State.reset (chip0 fun c => (c.voice3.env.sustain, c.voice3.env.release))
    = some (some (0x00#8, 15)) := by decide

theorem test_wFcLo : seen (.wFcLo 0xFF#8) State.reset (chip0 fun c => c.filter.fc) = some (some 0x007#11) := by decide

theorem test_wFcHi : seen (.wFcHi 0x80#8) (block { chipOf .mos6581 with filter := { Filter.powerOn ⟨0, 0⟩ with fc := 0x007#11 } })
    (chip0 fun c => c.filter.fc) = some (some 0x407#11) := by decide

theorem test_wResFilt : seen (.wResFilt 0xF1#8) State.reset (chip0 fun c => (c.filter.res, c.filter.filt))
    = some (some (15, 0b0001#4)) := by decide

theorem test_wModeVol : seen (.wModeVol 0x1F#8) State.reset (chip0 fun c => (c.filter.mode, c.filter.vol))
    = some (some (0b0001#4, 15)) := by decide

theorem test_wControl1_saw_gate : seen (.wControl1 0x21#8) State.reset
    (chip0 fun c => (c.voice1.wave.waveform, c.voice1.env.gate, c.voice1.wave.noPulse, c.voice1.wave.noNoise,
      c.voice1.wave.ringMsbMask)) = some (some (0x2#4, true, 0xFFF#12, 0xFFF#12, 0)) := by decide

theorem test_wControl1_test_rise : seen (.wControl1 0x28#8)
    (block (waveChip fun v => { v with acc := 0x345678#24, waveform := 0x2#4, shiftPipeline := 1 }))
    (chip0 fun c => (c.voice1.wave.acc, c.voice1.wave.pulseOutput, c.voice1.wave.shiftPipeline, c.voice1.wave.sr))
    = some (some (0, 0xFFF#12, 0, 0x7FFFFF#24)) := by decide

theorem test_wControl2_ring : seen (.wControl2 0x15#8) State.reset
    (chip0 fun c => (c.voice2.wave.ring, c.voice2.wave.ringMsbMask)) = some (some (true, 0x800000#24)) := by decide

theorem test_wControl3_muted : seen (.wControl3 0x21#8) (block { chipOf .mos6581 with mute3 := true })
    (chip0 fun c => (c.voice3.wave.waveform, c.voice3.env.gate, c.busValue)) = some (some (0, false, 0x21#8)) := by decide

theorem test_testFall : seen (.wControl1 0x00#8) (block (waveChip fun v => { v with test := true, sr := 0x001234#24 }))
    (chip0 fun c => c.voice1.wave.sr) = some (some 0x002469#24) := by decide

theorem test_floatingTtl_kept : seen (.wControl1 0x00#8) (block (waveChip fun v => { v with floatingTtl := 5 }))
    (chip0 fun c => c.voice1.wave.floatingTtl) = some (some 5) := by decide

/-! ## Reads, the bus value and the chip reset (vectors V-IO-1 to V-IO-13, V-RS-2, V-RS-6) -/

theorem test_rBus00_halves : seen (.rBus00 5#4) (block { chipOf .mos6581 with busValue := 0x5A#8, busTtl := 0x1D00#32 })
    (fun s => (s.outputs, chip0 (fun c => c.busTtl) s)) = some ([.byte 0 0x5A#8], some 0x0E80#32) := by decide

theorem test_rBus00_clears : seen (.rBus00 0#4) (block { chipOf .mos6581 with busValue := 0xAB#8, busTtl := 1#32 })
    (fun s => (s.outputs, chip0 (fun c => (c.busTtl, c.busValue)) s)) = some ([.byte 0 0xAB#8], some (0, 0)) := by decide

theorem test_wNone1A_then_bus : seen (.wNone1A 1#1 0x33#8) State.reset (chip0 fun c => c.busValue) = some (some 0x33#8) := by
  decide

theorem test_rPotX_rPotY : seen .rPotX (block { chipOf .mos6581 with potY := 0xFF#8 }) State.outputs = some [.byte 0 0x00#8] ∧
    seen .rPotY (block { chipOf .mos6581 with potY := 0xFF#8 }) State.outputs = some [.byte 0 0xFF#8] := by decide

theorem test_rOsc3 : seen .rOsc3 (block ((chipOf .mos6581).mapWave .v3 fun v => { v with osc3 := 0x810#12 })) State.outputs
    = some [.byte 0 0x81#8] := by decide

theorem test_rEnv3_after_reset : seen .rEnv3 State.reset State.outputs = some [.byte 0 0x00#8] := by decide

theorem test_reset_keeps : seen .reset
    (block { waveChip (fun v => { v with acc := 0x345678#24, freq := 0x1234#16, waveform := 2 }) with busValue := 0x5A#8 })
    (chip0 fun c => (c.voice1.wave.acc, c.voice1.wave.freq, c.voice1.wave.waveform, c.busValue, c.nextVoiceSync))
    = some (some (0x345678#24, 0, 0, 0, 0xFFFFFFFF#32)) := by decide

/-! ## The SID cycle (vectors V-WV-1 to V-WV-8, program P7's first sample) -/

theorem test_clk_bit19 : seen .clk (block (waveChip fun v => { v with acc := 0x07FFFF#24, freq := 1 }))
    (chip0 fun c => (c.voice1.wave.acc, c.voice1.wave.shiftPipeline)) = some (some (0x080000#24, 2)) := by decide

theorem test_clk_first_sample : seen .clk (block { chipOf .mos8580 with filter := { Filter.powerOn ⟨0, 0⟩ with vol := 15 } })
    (fun s => s.outputs) = some [.sample 0 (BitVec.ofInt 16 (-782))] := by decide

theorem test_noiseShift : [0x7FFFFF#24, 0x7FFFFE#24, 0x7FFFE0#24].map noiseShift = [0x7FFFFE#24, 0x7FFFFC#24, 0x7FFFC0#24] := by
  decide

theorem test_noise : [0x7FFFFF#24, 0x7FFFF8#24, 0x7FFFE0#24, 0x400000#24, 0x000004#24, 0#24].map noiseOf
    = [0xFF0#12, 0xFE0#12, 0xFC0#12, 0x800#12, 0x010#12, 0#12] := by decide

theorem test_tri : [0x000#12, 0x001#12, 0x400#12, 0x7FF#12, 0x800#12, 0x923#12, 0xFFF#12].map tri
    = [0x000#12, 0x002#12, 0x800#12, 0xFFE#12, 0xFFE#12, 0xDB8#12, 0x000#12] := by decide

theorem test_waveTableDefault :
    waveTableDefault 3 0x7FF#12 = 0x7F0#12 ∧ waveTableDefault 3 0x123#12 = 0 ∧ waveTableDefault 5 0x400#12 = 0x800#12 ∧
    waveTableDefault 6 0xABC#12 = 0xAB0#12 ∧ waveTableDefault 7 0xC00#12 = 0x400#12 := by decide

/-! ## DACs and the external filter (vectors V-OU-3 to V-OU-8) -/

theorem test_envDac : [0x80#8, 0xAA#8, 0xFF#8].map (envDac Params.reference .mos8580) = [129, 171, 256] ∧
    [0x7F#8, 0x80#8, 0xAA#8].map (envDac Params.reference .mos6581) = [132, 124, 168] := by decide

theorem test_voiceOut : voiceOut Params.reference .mos8580 0xFFF#12 0xFF#8 = 524288 ∧
    voiceOut Params.reference .mos8580 0 0xAA#8 = -350208 ∧ voiceOut Params.reference .mos6581 0 0xAA#8 = -344064 := by
  decide

theorem test_extClock : (ExtFilter.clock Params.reference 0x9000 ⟨0, 0⟩).1 = ⟨851968, 84⟩ ∧
    (ExtFilter.clock Params.reference 0x9000 ⟨0, 0⟩).2 = 415#16 := by decide

/-! ## The scheduler (vectors V-SC-1 to V-SC-17) and faults (V-FA-1, V-FA-4, V-FA-5) -/

theorem test_schedule : seen (.schedule 9 2 .phi1) (sched 7 []) State.queue = some [⟨9, 10, 0⟩] := by decide

theorem test_schedule_past : seen (.schedule 9 0 .phi1) (sched 7 [⟨9, 8, 0⟩]) State.faulted = some (some (.scheduleInPast 9 6)) := by
  decide

theorem test_schedule_unknown_event : exec (.schedule 16 1 .phi1) (sched 0 []) = .fault (.noSuchEvent 16) := by rfl

theorem test_schedule_overflow : seen (.schedule 9 (2 ^ 63) .phi1) (sched 0 []) State.faulted
    = some (some (.timeOverflow (2 ^ 64))) := by decide

theorem test_schedule_pending : seen (.schedule 9 1 .phi1) (sched 0 [⟨9, 8, 0⟩]) State.faulted
    = some (some (.schedulePending 9)) := by decide

theorem test_cancel : seen (.cancel 1) (sched 0 [⟨0, 2, 0⟩, ⟨1, 2, 1⟩]) State.queue = some [⟨0, 2, 0⟩] := by decide

theorem test_dispatch : seen .dispatch (sched 8 [⟨2, 9, 2⟩, ⟨0, 10, 0⟩, ⟨1, 10, 1⟩]) (fun s => (s.time, s.queue, s.outputs))
    = some (9, [⟨0, 10, 0⟩, ⟨1, 10, 1⟩], [.dispatched (some 2)]) := by decide

theorem test_dispatch_empty : seen .dispatch (sched 8 []) (fun s => (s.time, s.outputs)) = some (8, [.dispatched none]) := by
  decide

theorem test_runUntil : seen (.runUntil 6) (sched 0 [⟨0, 4, 0⟩]) (fun s => (s.time, s.queue)) = some (6, []) := by decide

theorem test_runUntil_past : seen (.runUntil 5) (sched 6 []) State.faulted = some (some (.runUntilPast 5)) := by decide

theorem test_getTime : seen .getTime (sched 7 []) State.outputs = some [.time 3 .phi2] := by decide

theorem test_catchup : seen (.catchup 0) { block { chipOf .mos6581 with cycles := 2 } with time := 7 }
    (chip0 fun c => c.cycles) = some (some 4) := by decide

theorem test_timeMs : State.timeMs (sched 1970496 []) = 1000 := by decide

theorem test_illegal_word_faults :
    (match step { State.reset with input := [.port 0 0x5B01#16] } with | .next t => t.faulted | _ => none)
      = some (.illegalPortWord 0x5B01#16) := by decide

/-! ## Witnesses: states and operands that meet a statement's hypotheses -/

theorem wave_powerOn_inv : Wave.powerOn.Inv :=
  ⟨by decide, by decide, by decide, by decide, by decide, by decide, by decide, by decide⟩

theorem env_powerOn_inv : Env.powerOn.Inv := ⟨by decide, by decide, by decide, by decide, by decide, by decide, by decide⟩

/-- A MOS8580 right after power-on, its voice 2 with a combined waveform: a chip that meets the invariant. -/
def combinedChip : Chip :=
  (chipOf .mos8580).mapWave .v2 fun v => { v with waveform := 3 }

/-- A MOS8580 whose voice 1 has a locked noise LFSR. -/
def lockedChip : Chip :=
  (chipOf .mos8580).mapWave .v1 fun v => { v with sr := 0, noiseOutput := 0 }

theorem filter_powerOn_inv (i : Integ) : (Filter.powerOn i).Inv :=
  ⟨by simp [Filter.powerOn, Signed16], by simp [Filter.powerOn, Signed16], by simp [Filter.powerOn, Signed16]⟩

theorem combinedChip_inv : combinedChip.Inv := by
  refine ⟨fun v => ?_, filter_powerOn_inv _, by decide, by decide⟩
  cases v
  · exact ⟨wave_powerOn_inv, env_powerOn_inv⟩
  · exact ⟨⟨by decide, by decide, by decide, by decide, by decide, by decide, by decide, by decide⟩, env_powerOn_inv⟩
  · exact ⟨wave_powerOn_inv, env_powerOn_inv⟩

theorem lockedChip_inv : lockedChip.Inv := by
  refine ⟨fun v => ?_, filter_powerOn_inv _, by decide, by decide⟩
  cases v
  · exact ⟨⟨by decide, by decide, by decide, by decide, by decide, by decide, by decide, by decide⟩, env_powerOn_inv⟩
  · exact ⟨wave_powerOn_inv, env_powerOn_inv⟩
  · exact ⟨wave_powerOn_inv, env_powerOn_inv⟩

theorem queueInv_two : QueueInv 3 [⟨1, 4, 5⟩, ⟨2, 4, 6⟩] := ⟨by decide, by decide, by decide⟩

/-- A block of one chip with `rest` after the input `i`. -/
def fed (i : Input) : State := { State.reset with input := [i] }

theorem test_witness_DecodeOfEncode : encode (.wControl1 0x41#8) = some 0x0441#16 ∧ encode .reset = some 0xC000#16 := by decide

theorem test_witness_EncodeOfDecode : decode 0x5F00#16 = some (.rBus1E 1#1) ∧ decode 0x1FFF#16 = some (.wNone1C 3#2 0xFF#8) := by
  decide

theorem test_witness_DecodeMatchesTableRow :
    decode 0x5B00#16 = some .rOsc3 ∧ Instr.row .rOsc3 = some ⟨0xFFFF#16, 0x5B00#16⟩ ∧
    0x5B00#16 &&& 0xFFFF#16 = 0x5B00#16 := by decide

theorem test_witness_IllegalWordsRaiseFault :
    (fed (.port 0 0xC001#16)).faulted = none ∧ (fed (.port 0 0xC001#16)).input = .port 0 0xC001#16 :: [] ∧
    decode 0xC001#16 = none ∧ decode 0x2000#16 = none ∧ decode 0x5B01#16 = none ∧ decode 0x8001#16 = none := by decide

theorem test_witness_OpcodeMapByOffset :
    (0 < 3 ∧ 2 < 3) ∧ (0 < 7 ∧ 6 < 7) ∧ 0x19#5 ≤ (0x19#5 : Offset) ∧ 0x19#5 ≤ (0x1F#5 : Offset) ∧ (0x18#5 : Offset) ≤ 0x18#5 ∧
    0x1D#5 ≤ (0x1D#5 : Offset) := by decide

theorem test_witness_StepRunsNextInput :
    (fed (.port 2 0x8000#16)).input = .port 2 0x8000#16 :: [] ∧ decode 0x8000#16 = some .clk ∧
    (fed (.call .getTime)).input = .call .getTime :: [] ∧ decode 0x5D01#16 = none ∧ State.reset.faulted = none := by decide

theorem test_witness_StepRunsNextInput_host :
    (fed (.host (.drive (.mute 0 2 true)))).input = .host (.drive (.mute 0 2 true)) :: [] ∧
    (fed (.host (.drive (.mute 0 2 true)))).chips[(HostInput.mute 0 2 true).chip]? = some (chipOf .mos6581) ∧
    (fed (.host (.drive (.extIn 1 5)))).input = .host (.drive (.extIn 1 5)) :: [] ∧
    (fed (.host (.drive (.extIn 1 5)))).chips.length ≤ (HostInput.extIn 1 5).chip ∧
    (fed (.host (.supplyCallback 15 [.getTime]))).input = .host (.supplyCallback 15 [.getTime]) :: [] ∧ State.reset.input = [] :=
  ⟨rfl, rfl, rfl, by decide, rfl, rfl⟩

/-- A faulted block. -/
def faultedBlock (i : Input) : State := { fed i with faulted := some (.runUntilPast 0) }

theorem test_witness_FaultStateAbsorbs :
    (faultedBlock (.port 0 0x2000#16)).faulted = some (.runUntilPast 0) ∧ decode 0x2000#16 = none ∧
    (faultedBlock (.port 0 0x2000#16)).input = .port 0 0x2000#16 :: [] ∧
    (faultedBlock (.host (.drive (.potX 0 1)))).input = .host (.drive (.potX 0 1)) :: [] := by decide

/-- Two chips, the second selected. -/
def twoChips : State := { State.reset with chips := [chipOf .mos6581, chipOf .mos8580], chipSel := 1 }

theorem test_witness_PortTransactionIsolatesChips :
    (Instr.row (.wFcLo 1)).isSome = true ∧ ∃ t, exec (.wFcLo 1) twoChips = .next t ∧ 0 ≠ twoChips.chipSel :=
  ⟨rfl, _, rfl, by decide⟩

theorem test_witness_PortTransactionIsolatesChips_absent :
    (Instr.row .clk).isSome = true ∧ { twoChips with chipSel := 2 }.faulted = none ∧
    { twoChips with chipSel := 2 }.chips.length ≤ { twoChips with chipSel := 2 }.chipSel := ⟨rfl, rfl, by decide⟩

/-- The combined-waveform chip with a CLK to run. -/
def clockedBlock : State := { block combinedChip with input := [.port 0 0x8000#16] }

theorem test_witness_StepKeepsInvariant : clockedBlock.Inv ∧ ∃ t, step clockedBlock = .next t :=
  ⟨⟨by decide, by decide, fun c hc => by
      have : c = combinedChip := by simpa [clockedBlock, block] using hc
      exact this ▸ combinedChip_inv, ⟨by decide, by decide, by decide⟩, by decide, by unfold callbacksWellFormed; decide⟩, _, rfl⟩

theorem test_witness_StepKeepsInvariant_input :
    clockedBlock.input = .port 0 0x8000#16 :: [] ∧ callbacksWellFormed clockedBlock ∧
    (Input.port 0 0x8000#16).wellFormed clockedBlock.chips.length clockedBlock.params.events = true :=
  ⟨rfl, by intro cb hcb; simp [clockedBlock, block, State.reset] at hcb, by decide⟩

/-- Rule R358: a block built with fewer chips keeps no callback that reaches a chip it does not have. -/
theorem test_powerOn_drops_unwritable_callbacks :
    (({ State.reset with callbacks := [(1, [.catchup 1]), (2, [.catchup 0])] }.powerOn ⟨[.mos8580], false, Params.reference⟩).callbacks)
      = [(2, [.catchup 0])] := by decide

/-- Accepted arguments: two chips and the reference parameters. -/
def goodArgs : PowerOnArgs := ⟨[.mos6581, .mos8580], false, Params.reference⟩

theorem test_witness_PowerOnBuildsBlock :
    powerOnRefusal goodArgs = none ∧ powerOnRefusal { goodArgs with models := [.mos8580] } = none ∧
    powerOnRefusal { goodArgs with models := [.mos8580, .mos8580, .mos6581] } = none := by decide

theorem test_witness_BadConstructionRefused :
    powerOnRefusal ⟨[], false, Params.reference⟩ ≠ none ∧ powerOnRefusal ⟨List.replicate 4 .mos6581, false, Params.reference⟩ ≠ none ∧
    powerOnRefusal { goodArgs with params := { Params.reference with clockHz := 0 } } ≠ none ∧
    (1 ≤ { goodArgs with digiBoost := true }.models.length ∧ { goodArgs with digiBoost := true }.models.length ≤ 3 ∧
      { goodArgs with digiBoost := true }.digiBoost = true) := by decide

theorem test_witness_FrequencyAndPulseWidthWrites : Ready (block (chipOf .mos6581)) (chipOf .mos6581) := ready_block _

theorem test_witness_ControlWriteSelectsWaveform :
    Ready (block (chipOf .mos6581)) (chipOf .mos6581) ∧
    (delivered (chipOf .mos6581) .v2 0xF7#8).getLsbD 3 = ((chipOf .mos6581).voice .v2).wave.test := ⟨ready_block _, by decide⟩

theorem test_witness_TestRiseHoldsAccumulator :
    Ready (block combinedChip) combinedChip ∧ (combinedChip.voice .v2).wave.test = false ∧
    (delivered combinedChip .v2 0x88#8).getLsbD 3 = true := ⟨ready_block _, by decide, by decide⟩

theorem test_witness_TestFallShiftsNoise :
    let c := waveChip fun v => { v with test := true, acc := 0 }
    Ready (block c) c ∧ (c.voice .v1).wave.test = true ∧ (delivered c .v1 0x80#8).getLsbD 3 = false :=
  ⟨ready_block _, by decide, by decide⟩

theorem test_witness_MutedControlDeliversZero :
    let c := { chipOf .mos6581 with mute2 := true }
    Ready (block c) c ∧ c.muted .v2 = true := ⟨ready_block _, by decide⟩

theorem test_witness_MutedControlDeliversZero_host :
    (fed (.host (.drive (.mute 0 1 true)))).input = .host (.drive (.mute 0 1 true)) :: [] ∧
    (fed (.host (.drive (.mute 0 1 true)))).chips[0]? = some (chipOf .mos6581) ∧ VoiceId.v1 ≠ VoiceId.ofIndex 1 :=
  ⟨rfl, rfl, by decide⟩

theorem test_witness_EnvelopeRegisterWrites :
    let c := envChip fun e => { e with state := .decaySustain }
    Ready (block c) c ∧ (c.voice .v1).env.state = .decaySustain ∧ (c.voice .v2).env.state = .release :=
  ⟨ready_block _, by decide, by decide⟩

theorem test_witness_GateWriteStartsPhase :
    let c := envChip fun e => { e with gate := true, resetLfsr := false, exponentialPipeline := 1 }
    Ready (block c) c ∧ (delivered c .v1 0x00#8).getLsbD 0 ≠ (c.voice .v1).env.gate ∧
    (delivered c .v1 0x41#8).getLsbD 0 = (c.voice .v1).env.gate ∧ (delivered c .v2 0x41#8).getLsbD 0 ≠ (c.voice .v2).env.gate :=
  ⟨ready_block _, by decide, by decide, by decide⟩

theorem test_witness_FilterWriteSetsFields : Ready (block (chipOf .mos8580)) (chipOf .mos8580) := ready_block _

theorem test_witness_NoneWriteLoadsBusOnly :
    IsNoneWrite 0x33#8 (.wNone1C 3#2 0x33#8) ∧ Ready (block (chipOf .mos8580)) (chipOf .mos8580) := ⟨rfl, ready_block _⟩

theorem test_witness_RegisterReadsReturnLatches : Ready (block (chipOf .mos8580)) (chipOf .mos8580) := ready_block _

theorem test_witness_BusReadHalvesLife :
    IsBusRead (.rBus1E 1#1) ∧ Ready (block (chipOf .mos8580)) (chipOf .mos8580) := ⟨trivial, ready_block _⟩

theorem test_witness_ClkRunsOneCycle :
    Ready (block combinedChip) combinedChip ∧ (block combinedChip).params.voiceOut = .default := ⟨ready_block _, rfl⟩

theorem test_witness_BusValueLife :
    let c := { chipOf .mos6581 with busTtl := 0x01D00#32 }
    c.busTtl = busTtlOf c.model ∧ 0x1CFF < (busTtlOf c.model).toNat ∧ ¬0x1D00 < (busTtlOf c.model).toNat := by decide

/-- Voice 1 synced by voice 3, whose MSB rises in the next cycle. -/
def syncChip : Chip :=
  ((chipOf .mos6581).mapWave .v3 fun v => { v with acc := 0x7FFFFF#24, freq := 1 }).mapWave .v1 fun v => { v with sync := true }

theorem test_witness_CycleStepsAndSyncsAccumulators :
    syncChip.voice3.wave.test = false ∧ syncChip.voice3.wave.acc.getLsbD 23 = false ∧
    (syncChip.voice3.wave.acc + syncChip.voice3.wave.freq.setWidth 24).getLsbD 23 = true ∧
    syncChip.voice1.wave.sync = true ∧ syncChip.voice3.wave.sync = false := by decide

theorem test_witness_TestBitClockStep :
    let held := fun n => { Wave.powerOn with test := true, acc := 0, srrCount := n }
    (held 0).test = true ∧ (held 1).srrCount = 1 ∧ (held 2).srrCount ≠ 0 ∧ (held 2).srrCount ≠ 1 := by decide

theorem test_witness_WaveClockStep :
    let v := { Wave.powerOn with acc := 0x07FFFF#24, freq := 1 }
    v.test = false ∧ v.acc.getLsbD 19 = false ∧ v.clock.acc.getLsbD 19 = true ∧
    (∀ n ∈ [0#2, 1#2, 2#2, 3#2], { Wave.powerOn with shiftPipeline := n }.clock.acc.getLsbD 19 = false) := by decide

theorem test_witness_NoiseShiftAndWriteBack :
    (0x7FFFFF#24).getLsbD 23 = false ∧ 0 ∉ [22, 20, 16, 13, 11, 7, 4, 2] ∧ 23 ∉ [22, 20, 16, 13, 11, 7, 4, 2] := by decide

theorem test_witness_SelectedWaveformOutput :
    Wave.powerOn.waveform = 0 ∧ { Wave.powerOn with waveform := 9#4 }.waveform ≠ 0 := by decide

theorem test_witness_WaveformBasesAndReadBack :
    (3#4 ≠ 0 ∧ BitVec.extractLsb' 0 2 3#4 ≠ 0#2) ∧ (12#4 ≠ 0 ∧ BitVec.extractLsb' 0 2 12#4 = 0#2) ∧
    Params.reference.waveTable = .default ∧ 7#3 ∈ [3#3, 5#3, 6#3, 7#3] ∧ 4 ≤ 4 ∧ 11 < 12 := by decide

theorem test_witness_OutputStepWriteBack :
    let v := { Wave.powerOn with waveform := 9#4 }
    v.waveform.getLsbD 3 = true ∧ v.waveform.extractLsb' 0 3 ≠ 0 ∧ v.test = false ∧ v.shiftPipeline ≠ 1 ∧
    BitVec.extractLsb' 0 3 8#4 = 0#3 := by decide

theorem test_witness_CombinedOutputLowNibbleZero :
    combinedChip.Inv ∧ (combinedChip.voice .v2).wave.waveform ∉ [0#4, 1#4, 2#4, 4#4, 8#4] := ⟨combinedChip_inv, by decide⟩

theorem test_witness_FloatingOutputHoldsThenFalls :
    let v := { Wave.powerOn with floatingTtl := 1, waveformOutput := 0x123#12 }
    v.waveform = 0 ∧ Wave.powerOn.waveform = 0 ∧ Wave.powerOn.floatingTtl = 0 ∧ v.floatingTtl ≠ 0 ∧ 0 < v.floatingTtl.toNat ∧ ¬1 < v.floatingTtl.toNat := by decide

theorem test_witness_NoiseLockUp :
    lockedChip.Inv ∧ (lockedChip.voice .v1).wave.test = false ∧ (lockedChip.voice .v1).wave.sr = 0 :=
  ⟨lockedChip_inv, by decide, by decide⟩

theorem test_witness_AccumulatorPeriod :
    let v := { Wave.powerOn with freq := 0xFFFF#16 }
    v.test = false ∧ v.freq ≠ 0 ∧ 0 < 1 ∧ 1 < 2 ^ 24 / Nat.gcd v.freq.toNat (2 ^ 24) := by decide

theorem test_witness_SyncDeadlineIsLeast :
    (syncChip.voice (VoiceId.v3.dest)).wave.sync = true ∧ (syncChip.voice .v3).wave.freq ≠ 0 ∧
    (syncChip.voice .v3).wave.test = false ∧ ∀ i : Fin 3, ((chipOf .mos6581).voice (VoiceId.ofIndex i)).wave.sync = false := by
  decide

theorem test_witness_StateChangeAdvances :
    let e := fun n st p => { Env.powerOn with nextState := n, state := st, statePipeline := p }
    (e .attack .release 2).statePipeline ≠ 0 ∧ (e .attack .release 2).statePipeline - 1 = 1 ∧
    (e .attack .release 1).statePipeline - 1 = 0 ∧ (e .decaySustain .attack 1).statePipeline - 1 = 0 ∧
    (e .release .attack 1).statePipeline - 1 = 0 ∧ (e .release .decaySustain 2).statePipeline - 1 = 1 := by decide

theorem test_witness_RateLfsrStep :
    let e := { Env.powerOn with lfsr := 0x007F#15 }
    e.lfsr = e.rate ∧ Env.powerOn.lfsr ≠ Env.powerOn.rate ∧ 13 < 14 := by decide

theorem test_witness_RatePeriods : 0 < 9 - 1 ∧ 31249 < 31251 - 1 := by decide

theorem test_witness_AttackLatency : { Env.powerOn with envelopeCounter := 0 }.envelopeCounter = 0 := by decide

theorem test_witness_FrozenCounterStays :
    let e := { Env.powerOn with envelopeCounter := 0, counterEnabled := false }
    e.counterEnabled = false ∧ e.nextState ≠ .attack ∧ e.statePipeline = 0 := by decide

theorem test_witness_DefaultFilterStep :
    Params.reference.voiceScale = .default ∧ Params.reference.resGain = .default ∧ Params.reference.summer = .default ∧
    Params.reference.integ = .default ∧ Params.reference.mixer = .default ∧ Params.reference.volGain = .default ∧
    Params.reference.clockHz = 985248 := by decide

theorem test_witness_ExternalFilterStep :
    Params.reference.clockHz = 985248 ∧ { Params.reference with clockHz := 1022727 }.clockHz = 1022727 := by decide

theorem test_witness_DefaultDacsAreLadders :
    Params.reference.envDac = .default ∧ Params.reference.waveDac = .default ∧ 0xFE#8 ≠ 0xFF#8 := by decide

theorem test_witness_ResetLeavesChip : Ready (block combinedChip) combinedChip := ready_block _

theorem test_witness_ScheduleInsertsOrFaults :
    (sched 7 []).faulted = none ∧ scheduleTime 7 0 .phi1 < 7 ∧ scheduleTime 7 0 .phi2 = 7 ∧
    scheduleTime 0 (2 ^ 63) .phi1 = 2 ^ 64 ∧ scheduleTime 0 (2 ^ 63 - 1) .phi2 = 2 ^ 64 - 1 ∧
    (∃ x ∈ (sched 3 [⟨1, 4, 5⟩]).queue, x.event = 1) ∧ (∀ x ∈ (sched 3 [⟨1, 4, 5⟩]).queue, x.event ≠ 2) ∧
    15 ∈ (sched 7 []).params.events ∧ 16 ∉ (sched 7 []).params.events := by decide

theorem test_witness_SameTimeIsFirstInFirstOut :
    let s := { sched 3 [⟨1, 4, 5⟩, ⟨2, 4, 6⟩] with nextSeq := 7 }
    s.faulted = none ∧ QueueInv s.time s.queue ∧ (∀ x ∈ s.queue, x.seq.toNat < s.nextSeq.toNat) ∧
    ∃ t, exec (.schedule 3 1 .phi1) s = .next t ∧ t.faulted = none :=
  ⟨rfl, queueInv_two, by decide, _, rfl, by decide⟩

theorem test_witness_CancelRemovesEntry :
    (sched 3 [⟨1, 4, 5⟩]).faulted = none ∧ 2 ∈ (sched 3 [⟨1, 4, 5⟩]).params.events ∧
    ∀ x ∈ (sched 3 [⟨1, 4, 5⟩]).queue, x.event ≠ 2 := by decide

/-- A block with event 1 at the head of its queue and two callback sequences supplied. -/
def callbackBlock : State := { sched 3 [⟨1, 4, 5⟩] with callbacks := [(2, []), (1, [.catchup 0, .cancel 2])] }

theorem test_witness_DispatchRunsHead :
    (sched 8 []).queue = [] ∧ callbackBlock.faulted = none ∧ callbackBlock.queue = ⟨1, 4, 5⟩ :: [] ∧
    callbackBlock.callbacks = [(2, [])] ++ (1, [.catchup 0, .cancel 2]) :: [] ∧ (∀ cb ∈ [((2 : EventId), ([] : List CallOp))], cb.1 ≠ 1) ∧
    (∀ cb ∈ (sched 3 [⟨1, 4, 5⟩]).callbacks, cb.1 ≠ 1) :=
  ⟨rfl, rfl, rfl, rfl, by decide, by decide⟩

theorem test_witness_DispatchRunsHead_reach :
    callbacksReach callbackBlock ∧
    ∃ t, runCallback [.catchup 0, .cancel 2] { callbackBlock with queue := [], time := 4, callbacks := [(2, [])] } = .next t :=
  ⟨by unfold callbacksReach; decide, _, rfl⟩

theorem test_witness_DispatchRunsHead_callback :
    (∃ t, runCallOp (.catchup 0) (sched 3 []) = .next t ∧ t.faulted = none) ∧
    (∃ t, runCallOp (.schedule 0 0 .phi1) (sched 3 []) = .next t ∧ t.faulted ≠ none) ∧ (sched 3 []).faulted = none :=
  ⟨⟨_, rfl, rfl⟩, ⟨_, rfl, by decide⟩, rfl⟩

/-- A callback drives a host input, and keeps what it did before the operation that faults. -/
theorem test_callback_drives_then_faults :
    (match runCallback [.drive (.potX 0 0x5A#8), .schedule 0 0 .phi1, .drive (.potX 0 0)] (sched 3 []) with
      | .next t => ((t.chips[0]?).map Chip.potX, t.faulted)
      | _ => (none, none)) = (some 0x5A#8, some (.scheduleInPast 0 2)) := by decide

theorem test_witness_RunUntilReachesTarget :
    let s := sched 3 [⟨1, 4, 5⟩, ⟨2, 4, 6⟩]
    s.faulted = none ∧ QueueInv s.time s.queue ∧ callbacksReach s ∧ s.callbacks = [] ∧ 2 < s.time.toNat ∧ s.time.toNat ≤ 3 ∧
    2 ^ 64 - 1 < 2 ^ 64 ∧ 2 ^ 64 ≤ 2 ^ 64 :=
  ⟨rfl, queueInv_two, by intro cb hcb; simp [sched, State.reset] at hcb, rfl, by decide, by decide, by decide, by decide⟩

theorem test_witness_RunUntilReachesTarget_due :
    callbackBlock.faulted = none ∧ 9 < 2 ^ 64 ∧ callbackBlock.time.toNat ≤ 9 ∧ callbackBlock.queue = ⟨1, 4, 5⟩ :: [] ∧
    (QueueEntry.mk 1 4 5).time.toNat ≤ 9 ∧ ∃ t, exec .dispatch callbackBlock = .next t ∧ t.faulted = none :=
  ⟨rfl, by decide, by decide, rfl, by decide, _, rfl, rfl⟩

theorem test_witness_RunUntilReachesTarget_idle :
    callbackBlock.time.toNat ≤ 3 ∧ ∀ x, callbackBlock.queue.head? = some x → 3 < x.time.toNat :=
  ⟨by decide, fun x h => by injection h with h; subst h; decide⟩

/-- RUN_UNTIL runs the callback of a due entry and goes on behind it. -/
theorem test_runUntil_runs_callback :
    seen (.runUntil 9) { sched 0 [⟨1, 4, 0⟩] with callbacks := [(1, [.schedule 2 1 .phi1]), (2, [.getTime])] }
      (fun s => (s.time, s.queue, s.outputs)) = some (9, [], [.time 3 .phi1]) := by decide

theorem test_witness_GetTimeReturnsCycleAndPhase : (sched 7 []).faulted = none := by decide

theorem test_witness_CatchupRunsDueCycles :
    twoChips.faulted = none ∧ twoChips.chips[1]? = some (chipOf .mos8580) ∧ twoChips.chips.length ≤ 2 := ⟨rfl, rfl, by decide⟩

theorem test_witness_CatchupOrderIrrelevant :
    ∃ ta tab tb tba, exec (.catchup 0) twoChips = .next ta ∧ exec (.catchup 1) ta = .next tab ∧
      exec (.catchup 1) twoChips = .next tb ∧ exec (.catchup 0) tb = .next tba := ⟨_, _, _, _, rfl, rfl, rfl, rfl⟩

end Sys2Proof.Tests
end

section
/-! PROOFS. The scheduler's queue (spec/40_scheduler.md): where SCHEDULE inserts its entry (rule R112) and what CANCEL leaves (rule
R116). -/

namespace Sys2Proof.Machine

/-! ### The place of an inserted entry (rule R112) -/

/-- A later inserted entry comes before an earlier inserted one only by its time: equal times leave it behind. -/
theorem QueueEntry.before_iff_time_lt {x y : QueueEntry} (h : y.seq.toNat < x.seq.toNat) :
    x.before y = true ↔ x.time.toNat < y.time.toNat := by
  rw [QueueEntry.before_iff]
  omega

theorem QueueEntry.time_le_of_not_before {x y : QueueEntry} (h : y.before x = false) : x.time.toNat ≤ y.time.toNat := by
  rw [Bool.eq_false_iff, Ne, QueueEntry.before_iff] at h
  omega

/-- In an ordered queue no entry is earlier than the head. -/
theorem queue_head_time_le {y : QueueEntry} {ys : List QueueEntry} (h : (y :: ys).Pairwise fun x y => y.before x = false) :
    ∀ z ∈ y :: ys, y.time.toNat ≤ z.time.toNat := by
  intro z hz
  rcases List.mem_cons.1 hz with rfl | hz
  · exact le_rfl
  · exact QueueEntry.time_le_of_not_before (List.rel_of_pairwise_cons h hz)

/-- The entry inserted last stands behind the entries at its time or before it, and ahead of the later ones. -/
theorem queueInsert_eq_filter {x : QueueEntry} {q : List QueueEntry} (ho : q.Pairwise fun x y => y.before x = false)
    (hs : ∀ y ∈ q, y.seq.toNat < x.seq.toNat) :
    queueInsert x q = (q.filter fun y => decide (y.time.toNat ≤ x.time.toNat)) ++
      x :: (q.filter fun y => decide (x.time.toNat < y.time.toNat)) := by
  induction q with
  | nil => rfl
  | cons y ys ih =>
    have hb := QueueEntry.before_iff_time_lt (hs y (List.mem_cons_self ..))
    unfold queueInsert
    split
    · next h =>
      have later : ∀ z ∈ y :: ys, x.time.toNat < z.time.toNat := fun z hz => (hb.1 h).trans_le (queue_head_time_le ho z hz)
      have none_due : ((y :: ys).filter fun y => decide (y.time.toNat ≤ x.time.toNat)) = [] :=
        List.filter_eq_nil_iff.2 fun z hz => by simpa using later z hz
      have all_later : ((y :: ys).filter fun y => decide (x.time.toNat < y.time.toNat)) = y :: ys :=
        List.filter_eq_self.2 fun z hz => by simpa using later z hz
      rw [none_due, all_later, List.nil_append]
    · next h =>
      have due : y.time.toNat ≤ x.time.toNat := Nat.le_of_not_lt fun hlt => h (hb.2 hlt)
      rw [ih ho.of_cons fun z hz => hs z (List.mem_cons_of_mem _ hz), List.filter_cons_of_pos (by simpa using due),
        List.filter_cons_of_neg (by simpa using due), List.cons_append]

/-! ### SCHEDULE and CANCEL in a block that is not faulted -/

/-- A SCHEDULE that answers a state without a fault inserted its entry at a time of 64 bits (rule R113). -/
theorem exec_schedule_inserts {e : EventId} {delay : Nat} {ph : Phase} {s t : State} (hf : s.faulted = none)
    (h : exec (.schedule e delay ph) s = .next t) (ht : t.faulted = none) :
    scheduleTime s.time delay ph < 2 ^ 64 ∧
      t.queue = queueInsert ⟨e, BitVec.ofNat 64 (scheduleTime s.time delay ph), s.nextSeq⟩ s.queue := by
  have hrun : onEvent e (State.schedule e delay ph) s = .next t := (operation_of_running hf _).symm.trans h
  obtain ⟨-, rfl⟩ := onEvent_next_cases hrun
  rcases s.schedule_cases e delay ph with ⟨f, hfault⟩ | ⟨hlt, -, -, hins⟩
  · simp [hfault] at ht
  · exact ⟨hlt, by rw [hins]⟩

theorem exec_cancel_of_running {e : EventId} {s : State} (hf : s.faulted = none) (he : e ∈ s.params.events) :
    exec (.cancel e) s = .next (s.cancel e) :=
  (operation_of_running hf _).trans (onEvent_of_known he _)

/-- Cancelling an event that is not pending does nothing (rule R116). -/
theorem State.cancel_of_not_pending {e : EventId} {s : State} (h : ∀ x ∈ s.queue, x.event ≠ e) : s.cancel e = s := by
  rw [State.cancel, queueRemove_of_not_pending h]

/-- Settles O54: the insertion compares times only, the new entry having the largest insertion number. -/
theorem sameTimeIsFirstInFirstOut : Obligations.SameTimeIsFirstInFirstOut := by
  intro e delay ph s t hf hq hseq h ht
  obtain ⟨hlt, hqueue⟩ := exec_schedule_inserts hf h ht
  have htime : (BitVec.ofNat 64 (scheduleTime s.time delay ph)).toNat = scheduleTime s.time delay ph := by
    rw [BitVec.toNat_ofNat, Nat.mod_eq_of_lt hlt]
  rw [hqueue, queueInsert_eq_filter hq.ordered hseq, htime]

/-- Settles O55: CANCEL filters the queue by the event, and the filtered queue holds no entry of it. -/
theorem cancelRemovesEntry : Obligations.CancelRemovesEntry := by
  intro e s hf he
  have removed : ∀ x ∈ queueRemove e s.queue, x.event ≠ e := fun x hx => (mem_queueRemove.1 hx).2
  have again : exec (.cancel e) (s.cancel e) = .next (s.cancel e) := by
    have run := exec_cancel_of_running (s := s.cancel e) hf he
    rwa [State.cancel_of_not_pending (s := s.cancel e) removed] at run
  exact ⟨queueRemove e s.queue, exec_cancel_of_running hf he, fun x => mem_queueRemove, List.filter_sublist,
    queueRemove_of_not_pending, again⟩

end Sys2Proof.Machine
end

section
/-! PROOFS. One voice's waveform generator (spec/41_waveform.md): the clock step with the test bit clear (rule R148), the taps of the
noise output (rule R150), and the output step of a selected waveform with the pulse comparator (rules R154, R156). -/

namespace Sys2Proof.Machine

/-! ### The clock step with the test bit clear (rule R148) -/

theorem bitRose_iff (n : Nat) (old new : BitVec 24) :
    bitRose n old new = true ↔ old.getLsbD n = false ∧ new.getLsbD n = true := by
  simp [bitRose]

theorem Wave.clockNoise_of_rise (v : Wave) : v.clockNoise true = { v with shiftPipeline := 2 } := rfl

theorem Wave.clockNoise_of_idle {v : Wave} (h : v.shiftPipeline = 0) : v.clockNoise false = v := by
  rw [Wave.clockNoise, if_neg Bool.false_ne_true, if_pos h]

theorem Wave.clockNoise_of_due {v : Wave} (h : v.shiftPipeline = 1) :
    v.clockNoise false =
      { v with shiftPipeline := 0, sr := noiseShift v.sr, noiseOutput := noiseOf (noiseShift v.sr) } := by
  rw [Wave.clockNoise, if_neg Bool.false_ne_true, if_neg (by rw [h]; decide), if_pos h]

theorem Wave.clockNoise_of_pending {v : Wave} (h0 : v.shiftPipeline ≠ 0) (h1 : v.shiftPipeline ≠ 1) :
    v.clockNoise false = { v with shiftPipeline := v.shiftPipeline - 1 } := by
  rw [Wave.clockNoise, if_neg Bool.false_ne_true, if_neg h0, if_neg h1]

/-- Away from a rise of bit 19, only a shift that is due touches the LFSR. -/
theorem Wave.clockNoise_sr_of_not_due {v : Wave} (h : v.shiftPipeline ≠ 1) :
    (v.clockNoise false).sr = v.sr ∧ (v.clockNoise false).noiseOutput = v.noiseOutput := by
  by_cases h0 : v.shiftPipeline = 0
  · rw [Wave.clockNoise_of_idle h0]; exact ⟨rfl, rfl⟩
  · rw [Wave.clockNoise_of_pending h0 h]; exact ⟨rfl, rfl⟩

/-- Away from a rise of bit 19, a shift pipeline above 0 counts down by one, whether or not the LFSR shifts. -/
theorem Wave.clockNoise_counts_down {v : Wave} (h : v.shiftPipeline ≠ 0) :
    (v.clockNoise false).shiftPipeline = v.shiftPipeline - 1 := by
  by_cases h1 : v.shiftPipeline = 1
  · rw [Wave.clockNoise_of_due h1, h1]; rfl
  · rw [Wave.clockNoise_of_pending h h1]

theorem Wave.clock_acc_of_running {v : Wave} (h : v.test = false) : v.clock.acc = v.acc + v.freq.setWidth 24 := by
  rw [Wave.clock_acc, h, if_neg Bool.false_ne_true]

theorem Wave.clock_msbRising_of_running {v : Wave} (h : v.test = false) :
    v.clock.msbRising = bitRose 23 v.acc v.clock.acc := by
  rw [Wave.clock_msbRising, Wave.clock_acc_of_running h, h]
  rfl

/-- A running voice's clock step is the noise pipeline's, on the stepped accumulator. -/
theorem Wave.clock_eq_clockNoise {v : Wave} (h : v.test = false) :
    v.clock = { v with acc := v.clock.acc, msbRising := v.clock.msbRising }.clockNoise
      (bitRose 19 v.acc v.clock.acc) := by
  rw [Wave.clock_msbRising_of_running h, Wave.clock_acc_of_running h, Wave.clock_of_running h]
  rfl

theorem Wave.clock_acc_toNat {v : Wave} (h : v.test = false) :
    v.clock.acc.toNat = (v.acc.toNat + v.freq.toNat) % 2 ^ 24 := by
  rw [Wave.clock_acc_of_running h, BitVec.toNat_add, BitVec.toNat_setWidth_of_le (by decide)]

/-- Settles O30: the step is `clockNoise` on the stepped accumulator, and `clockNoise` is read off case by case. -/
theorem waveClockStep : Obligations.WaveClockStep := by
  intro v htest
  have hclock := Wave.clock_eq_clockNoise htest
  refine ⟨Wave.clock_acc_toNat htest, ?frame, ?msb, fun hrise => ?rise, fun hrise => ?noRise⟩
  case frame =>
    obtain ⟨_, _, _, hchanges⟩ := Wave.clockNoise_changes (bitRose 19 v.acc v.clock.acc)
      { v with acc := v.clock.acc, msbRising := v.clock.msbRising }
    rw [hclock.trans hchanges]
  case msb => rw [Wave.clock_msbRising_of_running htest, bitRose_iff]
  case rise =>
    rw [(bitRose_iff ..).2 hrise, Wave.clockNoise_of_rise] at hclock
    rw [hclock]
    exact ⟨rfl, rfl, rfl⟩
  case noRise =>
    rw [Bool.eq_false_iff.2 fun h => hrise ((bitRose_iff ..).1 h)] at hclock
    rw [hclock]
    refine ⟨fun hidle => ?_, fun hbusy => Wave.clockNoise_counts_down hbusy, fun hdue => ?_,
      fun hnotDue => Wave.clockNoise_sr_of_not_due hnotDue⟩
    · rw [Wave.clockNoise_of_idle]
      exacts [⟨hidle, rfl, rfl⟩, hidle]
    · rw [Wave.clockNoise_of_due]
      exacts [⟨rfl, rfl⟩, hdue]

/-! ### The taps of the noise output (rule R150) -/

theorem getLsbD_noiseOf (sr : BitVec 24) (k : Nat) :
    (noiseOf sr).getLsbD k =
      (decide (k = 11) && sr.getLsbD 22 || decide (k = 10) && sr.getLsbD 20 || decide (k = 9) && sr.getLsbD 16 ||
        decide (k = 8) && sr.getLsbD 13 || decide (k = 7) && sr.getLsbD 11 || decide (k = 6) && sr.getLsbD 7 ||
        decide (k = 5) && sr.getLsbD 4 || decide (k = 4) && sr.getLsbD 2) := by
  have in_range : ∀ dst < 12, (k = dst ∧ k < 12) = (k = dst) := fun dst hd =>
    propext (and_iff_left_of_imp fun h => h ▸ hd)
  simp only [noiseOf, BitVec.getLsbD_or, getLsbD_routeBit, in_range, Nat.reduceLT]

/-- Below bit 4 no tap lands. -/
theorem noiseOf_low_nibble (sr : BitVec 24) : (noiseOf sr).extractLsb' 0 4 = 0 := by
  refine BitVec.eq_of_getLsbD_eq fun k hk => ?_
  have no_tap : ∀ dst ≥ 4, k ≠ dst := fun dst hd => by omega
  rw [BitVec.getLsbD_extractLsb', Nat.zero_add, getLsbD_noiseOf]
  simp [no_tap]

/-- Settles O31: each output bit above the low nibble has exactly one tap. -/
theorem noiseOutputTaps : Obligations.NoiseOutputTaps := by
  intro sr
  refine ⟨?_, ?_, ?_, ?_, ?_, ?_, ?_, ?_, noiseOf_low_nibble sr⟩ <;>
    (rw [getLsbD_noiseOf]; simp)

/-! ### The output step of a selected waveform (rule R154) and the pulse comparator (rule R156) -/

theorem accHigh_toNat (acc : BitVec 24) : (accHigh acc).toNat = acc.toNat / 2 ^ 12 := by
  rw [accHigh, BitVec.extractLsb'_toNat, Nat.shiftRight_eq_div_pow, Nat.mod_eq_of_lt]
  omega

theorem pulseLevel_eq (acc : BitVec 24) (pw : BitVec 12) :
    pulseLevel acc pw = if pw.toNat ≤ acc.toNat / 2 ^ 12 then 0xFFF#12 else 0x000#12 := by
  simp only [pulseLevel, BitVec.le_def, accHigh_toNat]

/-- Settles O33: the driven DAC input is the base behind the two gates, and every output step ends in the comparator. -/
theorem selectedWaveformOutput : Obligations.SelectedWaveformOutput := by
  refine ⟨fun p m a v hw => ?_, fun p m a v => ?_⟩
  · rw [Wave.output_waveformOutput hw, Wave.gates, ← BitVec.and_assoc]
    rfl
  · rw [Wave.output_pulseOutput, pulseLevel_eq]

end Sys2Proof.Machine
end

section
/-! PROOFS. One envelope generator (spec/42_envelope.md): a step of the rate LFSR (rule R208), and a step of the envelope counter with
its lookup (rules R209, R210). -/

namespace Sys2Proof.Machine

/-! ### The rate LFSR (rule R208) -/

theorem getLsbD_lfsrNext_top (l : BitVec 15) : (lfsrNext l).getLsbD 14 = (l.getLsbD 0 ^^ l.getLsbD 1) := by
  simp [lfsrNext]

/-- The mask leaves only bit 14 of the entering bit, so below it the step is the right shift. -/
theorem getLsbD_lfsrNext_of_lt (l : BitVec 15) {k : Nat} (hk : k < 14) : (lfsrNext l).getLsbD k = l.getLsbD (k + 1) := by
  have masked : (0x4000#15).getLsbD k = false := by
    rw [show 0x4000#15 = BitVec.twoPow 15 14 from rfl, BitVec.getLsbD_twoPow]
    simp [Nat.ne_of_gt hk]
  rw [lfsrNext, BitVec.getLsbD_or, BitVec.getLsbD_and, masked, Bool.and_false, Bool.or_false, BitVec.getLsbD_ushiftRight,
    Nat.add_comm]

theorem Env.lfsrStep_of_match {e : Env} (h : e.lfsr = e.rate) : e.lfsrStep = { e with resetLfsr := true } := by
  rw [Env.lfsrStep, if_pos h]

theorem Env.lfsrStep_of_no_match {e : Env} (h : e.lfsr ≠ e.rate) : e.lfsrStep = { e with lfsr := lfsrNext e.lfsr } := by
  rw [Env.lfsrStep, if_neg h]

/-- Settles O43: the two branches of the step, and the bits of `lfsrNext` in the second. -/
theorem rateLfsrStep : Obligations.RateLfsrStep := by
  intro e
  refine ⟨Env.lfsrStep_of_match, fun h => ?_⟩
  rw [Env.lfsrStep_of_no_match h]
  exact ⟨rfl, getLsbD_lfsrNext_top e.lfsr, fun _ => getLsbD_lfsrNext_of_lt e.lfsr⟩

/-! ### The envelope counter and its lookup (rules R209, R210) -/

/-- The level a step of the counter reaches (rule R209). -/
def Env.nextLevel (e : Env) : BitVec 8 :=
  if e.state = .attack then e.envelopeCounter + 1
  else if e.state = .decaySustain ∧ e.envelopeCounter = e.sustain then e.envelopeCounter
  else e.envelopeCounter - 1

/-- The step reaches the top of an attack, where DecaySustain begins (rule R209). -/
abbrev Env.ReachesTop (e : Env) : Prop := e.state = .attack ∧ e.nextLevel = 0xFF#8

theorem Env.nextLevel_of_attack {e : Env} (h : e.state = .attack) : e.nextLevel = e.envelopeCounter + 1 := if_pos h

theorem Env.nextLevel_of_held {e : Env} (h : e.state = .decaySustain) (hs : e.envelopeCounter = e.sustain) :
    e.nextLevel = e.envelopeCounter := by
  rw [Env.nextLevel, if_neg (by rw [h]; decide), if_pos ⟨h, hs⟩]

theorem Env.nextLevel_of_falling {e : Env} (h : e.state ≠ .attack) (hs : e.state = .decaySustain → e.envelopeCounter ≠ e.sustain) :
    e.nextLevel = e.envelopeCounter - 1 := by
  rw [Env.nextLevel, if_neg h, if_neg fun hd => hs hd.1 hd.2]

/-- The period at an exact level; a level outside the table keeps the old one (rule R210). -/
def expPeriodAt (n : BitVec 8) (old : ExpPeriod) : ExpPeriod :=
  if n ∈ [0xFF#8, 0x00#8] then .p1 else if n = 0x5D#8 then .p2 else if n = 0x36#8 then .p4 else if n = 0x1A#8 then .p8
  else if n = 0x0E#8 then .p16 else if n = 0x06#8 then .p30 else old

/-- The table tests 0x00 last; its seven levels are distinct, so the order of the tests does not matter. -/
theorem expLookup_period (n : BitVec 8) (old : ExpPeriod) : ((expLookup n).map Prod.fst).getD old = expPeriodAt n old := by
  by_cases h : n ∈ [0xFF#8, 0x5D#8, 0x36#8, 0x1A#8, 0x0E#8, 0x06#8, 0x00#8]
  · fin_cases h <;> rfl
  · simp_all [expLookup, expPeriodAt]

theorem expLookup_freezes (n : BitVec 8) : (expLookup n).any Prod.snd = (n == 0x00#8) := by
  revert n; decide

theorem Env.lookup_eq (e : Env) :
    e.lookup = { e with
      expPeriod := expPeriodAt e.envelopeCounter e.expPeriod
      counterEnabled := e.counterEnabled && e.envelopeCounter != 0x00#8 } := by
  rw [bne, ← expLookup_period, ← expLookup_freezes, Env.lookup]
  cases expLookup e.envelopeCounter with
  | none => simp
  | some entry => simp

/-- Before the lookup a step moves the counter to the next level, and at the top of an attack it switches to DecaySustain. -/
theorem Env.step_eq_lookup (e : Env) :
    e.step = Env.lookup { e with
      envelopeCounter := e.nextLevel
      state := if e.ReachesTop then .decaySustain else e.state
      nextState := if e.ReachesTop then .decaySustain else e.nextState
      rate := if e.ReachesTop then adsrRate e.decay else e.rate } := by
  have no_top : e.state ≠ .attack → ¬ e.ReachesTop := fun h top => h top.1
  unfold Env.step
  dsimp only
  split
  · next attack =>
    have next_level := Env.nextLevel_of_attack attack
    split
    · next top => simp only [Env.ReachesTop, next_level, attack, top, and_self, if_true]
    · next below => simp only [Env.ReachesTop, next_level, below, and_false, if_false]
  · next decay =>
    have not_attack : e.state ≠ .attack := by rw [decay]; decide
    simp only [if_neg (no_top not_attack)]
    split
    · next held => rw [Env.nextLevel_of_held decay held]
    · next moving => rw [Env.nextLevel_of_falling not_attack fun _ => moving]
  · next release =>
    have not_attack : e.state ≠ .attack := by rw [release]; decide
    simp only [if_neg (no_top not_attack)]
    rw [Env.nextLevel_of_falling not_attack fun decay => absurd (release.symm.trans decay) (by decide)]

/-- Settles O42: the step is the lookup at the next level. -/
theorem envelopeStep : Obligations.EnvelopeStep := by
  intro e
  rw [Env.step_eq_lookup, Env.lookup_eq]
  rfl

end Sys2Proof.Machine
end

section
/-! PROOFS. Port words (spec/30_encoding.md): encoding and decoding are inverse (rules R90, R98), the rows of the opcode table and the
opcode map (rules R94, R97), and the illegal words (rule R95). -/

namespace Sys2Proof.Machine

/-! ### A port word as three top bits, an offset and a data byte (rules R90, R91) -/

theorem word_toNat (k : BitVec 3) (off : Offset) (d : Byte) :
    ((k ++ off) ++ d).toNat = k.toNat * 8192 + off.toNat * 256 + d.toNat := by
  rw [BitVec.toNat_append, BitVec.toNat_append, ← Nat.shiftLeft_add_eq_or_of_lt d.isLt, ← Nat.shiftLeft_add_eq_or_of_lt off.isLt]
  omega

theorem field_toNat {n : Nat} (x : BitVec n) (start len : Nat) :
    (x.extractLsb' start len).toNat = x.toNat / 2 ^ start % 2 ^ len := by
  rw [BitVec.extractLsb'_toNat, Nat.shiftRight_eq_div_pow]

theorem word_eq_append (w : PortWord) : ∃ (k : BitVec 3) (off : Offset) (d : Byte), w = (k ++ off) ++ d := by
  refine ⟨w.extractLsb' 13 3, w.extractLsb' 8 5, w.extractLsb' 0 8, BitVec.eq_of_toNat_eq ?_⟩
  rw [word_toNat, field_toNat, field_toNat, field_toNat]
  omega

section
variable (k : BitVec 3) (off : Offset) (d : Byte)

theorem kindField_append : kindField ((k ++ off) ++ d) = k.extractLsb' 1 2 :=
  BitVec.eq_of_toNat_eq (by rw [kindField, field_toNat, word_toNat, field_toNat]; omega)

theorem offsetField_append : offsetField ((k ++ off) ++ d) = off :=
  BitVec.eq_of_toNat_eq (by rw [offsetField, field_toNat, word_toNat]; omega)

theorem dataField_append : dataField ((k ++ off) ++ d) = d :=
  BitVec.eq_of_toNat_eq (by rw [dataField, field_toNat, word_toNat]; omega)

theorem word_bit13 : ((k ++ off) ++ d).getLsbD 13 = k.getLsbD 0 := by
  rw [BitVec.getLsbD_append, BitVec.getLsbD_append]; rfl

theorem word_bit15 : ((k ++ off) ++ d).getLsbD 15 = k.getLsbD 2 := by
  rw [BitVec.getLsbD_append, BitVec.getLsbD_append]; rfl

/-- The bits below a `CLK` word's kind are 0 exactly when the lowest top bit, the offset and the data byte are. -/
theorem low14_eq_zero_iff : ((k ++ off) ++ d).extractLsb' 0 14 = 0#14 ↔ k.extractLsb' 0 1 = 0#1 ∧ off = 0 ∧ d = 0 := by
  simp only [← BitVec.toNat_inj, field_toNat, word_toNat, BitVec.toNat_ofNat, Nat.zero_mod, BitVec.ofNat_eq_ofNat]
  omega

/-- So are a `CTL` word's `op` and the bits below it. -/
theorem ctl_eq_zero_iff : ((k ++ off) ++ d).extractLsb' 12 2 = 0b00#2 ∧ ((k ++ off) ++ d).extractLsb' 0 12 = 0#12 ↔
    k.extractLsb' 0 1 = 0#1 ∧ off = 0 ∧ d = 0 := by
  simp only [← BitVec.toNat_inj, field_toNat, word_toNat, BitVec.toNat_ofNat, Nat.zero_mod, BitVec.ofNat_eq_ofNat]
  omega

end

theorem topBits_cases (k : BitVec 3) : k = 0 ∨ k = 1 ∨ k = 2 ∨ k = 3 ∨ k = 4 ∨ k = 5 ∨ k = 6 ∨ k = 7 := by
  revert k; decide

/-- The four formats of rule R90 on the parts of a word. -/
theorem decodePort_append (k : BitVec 3) (off : Offset) (d : Byte) :
    decodePort ((k ++ off) ++ d) =
      if k = 0 then some (.busWrite off d)
      else if k = 2 ∧ d = 0 then some (.busRead off)
      else if k = 4 ∧ off = 0 ∧ d = 0 then some .clock
      else if k = 6 ∧ off = 0 ∧ d = 0 then some .reset
      else none := by
  unfold decodePort
  simp only [Bool.and_eq_true, decide_eq_true_eq, kindField_append, offsetField_append, dataField_append, word_bit13,
    low14_eq_zero_iff, ctl_eq_zero_iff]
  rcases topBits_cases k with rfl | rfl | rfl | rfl | rfl | rfl | rfl | rfl <;> simp

/-! ### Encoding and decoding are inverse (rules R90, R97, R98) -/

theorem decodePort_encodePort (op : PortOp) : decodePort (encodePort op) = some op := by
  cases op with
  | busWrite off d => exact decodePort_append 0b000 off d
  | busRead off => exact decodePort_append 0b010 off 0
  | clock => rfl
  | reset => rfl

theorem encodePort_of_decodePort {w : PortWord} {op : PortOp} (h : decodePort w = some op) : encodePort op = w := by
  obtain ⟨k, off, d, rfl⟩ := word_eq_append w
  rw [decodePort_append] at h
  split_ifs at h with hwrite hread hclock hreset
  · obtain rfl := Option.some.inj h; rw [hwrite]; rfl
  · obtain rfl := Option.some.inj h; rw [hread.1, hread.2]; rfl
  · obtain rfl := Option.some.inj h; rw [hclock.1, hclock.2.1, hclock.2.2]; rfl
  · obtain rfl := Option.some.inj h; rw [hreset.1, hreset.2.1, hreset.2.2]; rfl

theorem port?_busWriteInstr (off : Offset) (d : Byte) : (busWriteInstr off d).port? = some (.busWrite off d) := by
  fin_cases off <;> rfl

theorem port?_busReadInstr (off : Offset) : (busReadInstr off).port? = some (.busRead off) := by
  fin_cases off <;> rfl

/-- The opcode map of rule R94 is undone by reading an instruction's operation off its row. -/
theorem port?_instr (op : PortOp) : op.instr.port? = some op := by
  cases op with
  | busWrite off d => exact port?_busWriteInstr off d
  | busRead off => exact port?_busReadInstr off
  | clock => rfl
  | reset => rfl

theorem instr_of_port? {i : Instr} {op : PortOp} (h : i.port? = some op) : op.instr = i := by
  cases i with
  | wNone1A o d | wNone1C o d => cases h; fin_cases o <;> rfl
  | rBus00 o | rBus10 o | rBus1E o => cases h; fin_cases o <;> rfl
  | schedule | cancel | dispatch | runUntil | getTime | catchup => cases h
  | _ => cases h; rfl

theorem decode_eq_some_iff {w : PortWord} {i : Instr} : decode w = some i ↔ ∃ op, decodePort w = some op ∧ op.instr = i :=
  Option.map_eq_some_iff

/-- Settles O1: both halves, words to operations and operations to instructions, are inverse to each other. -/
theorem decodeOfEncode : Obligations.DecodeOfEncode := by
  refine ⟨fun i w h => ?_, fun i => by cases i <;> rfl⟩
  obtain ⟨op, hop, rfl⟩ := Option.map_eq_some_iff.1 h
  exact decode_eq_some_iff.2 ⟨op, decodePort_encodePort op, instr_of_port? hop⟩

/-- Settles O2: the operation of a legal word is the one its instruction's row gives, and its word is the same. -/
theorem encodeOfDecode : Obligations.EncodeOfDecode := by
  intro w i h
  obtain ⟨op, hop, rfl⟩ := decode_eq_some_iff.1 h
  exact Option.map_eq_some_iff.2 ⟨op, port?_instr op, encodePort_of_decodePort hop⟩

/-! ### The opcode map by offset (rule R94) -/

theorem decode_busWrite (off : Offset) (d : Byte) : decode ((0b000#3 ++ off) ++ d) = some (busWriteInstr off d) :=
  decode_eq_some_iff.2 ⟨.busWrite off d, decodePort_encodePort (.busWrite off d), rfl⟩

theorem decode_busRead (off : Offset) : decode ((0b010#3 ++ off) ++ 0x00#8) = some (busReadInstr off) :=
  decode_eq_some_iff.2 ⟨.busRead off, decodePort_encodePort (.busRead off), rfl⟩

theorem busWriteInstr_voice (v : Fin 3) (r : Fin 7) (d : Byte) :
    busWriteInstr (BitVec.ofNat 5 (7 * v + r)) d = voiceRegister (VoiceId.ofIndex v) r d := by
  fin_cases v <;> fin_cases r <;> rfl

theorem isNoneWrite_busWriteInstr {off : Offset} (h : 0x19#5 ≤ off) (d : Byte) : IsNoneWrite d (busWriteInstr off d) := by
  fin_cases off <;> trivial

theorem isBusRead_busReadInstr {off : Offset} (h : off ≤ 0x18#5 ∨ 0x1D#5 ≤ off) : IsBusRead (busReadInstr off) := by
  fin_cases off <;> trivial

/-- Settles O6: a write and a read decode by their offset, and the map is checked offset by offset. -/
theorem opcodeMapByOffset : Obligations.OpcodeMapByOffset := by
  refine ⟨fun v r hv hr d => ?_, fun d => ⟨decode_busWrite _ d, decode_busWrite _ d, decode_busWrite _ d, decode_busWrite _ d⟩,
    fun off d h => ?_, ⟨rfl, rfl, rfl, rfl⟩, fun off h => ?_⟩
  · exact (decode_busWrite _ d).trans (congrArg some (busWriteInstr_voice ⟨v, hv⟩ ⟨r, hr⟩ d))
  · exact ⟨_, decode_busWrite off d, isNoneWrite_busWriteInstr h d⟩
  · exact ⟨_, decode_busRead off, isBusRead_busReadInstr h⟩

/-- Settles O5: the decoder evaluated on the ten words. -/
theorem workedWordsDecode : Obligations.WorkedWordsDecode := by
  unfold Obligations.WorkedWordsDecode; decide

/-! ### The rows of the opcode table (rule R94) -/

theorem row_busWriteInstr (off : Offset) (d : Byte) : (busWriteInstr off d).row = (busWriteInstr off 0).row := by
  fin_cases off <;> rfl

theorem busWrite_row_matches_zero (off : Offset) : ∃ r, (busWriteInstr off 0).row = some r ∧ 0xFF00#16 &&& r.mask = r.mask ∧
    encodePort (.busWrite off 0) &&& r.mask = r.pattern := by
  fin_cases off <;> exact ⟨_, rfl, rfl, rfl⟩

theorem busRead_row_matches (off : Offset) : ∃ r, (busReadInstr off).row = some r ∧
    encodePort (.busRead off) &&& r.mask = r.pattern := by
  fin_cases off <;> exact ⟨_, rfl, rfl⟩

/-- The word of every port operation matches the row of the instruction it is. -/
theorem encodePort_matches_row (op : PortOp) : ∃ r, op.instr.row = some r ∧ encodePort op &&& r.mask = r.pattern := by
  cases op with
  | busWrite off d =>
    obtain ⟨r, hr, hmask, hmatch⟩ := busWrite_row_matches_zero off
    refine ⟨r, (row_busWriteInstr off d).trans hr, ?_⟩
    rw [← hmask, ← BitVec.and_assoc, Laws.MatchesRow.busWrite_and_mask]
    exact hmatch
  | busRead off => exact busRead_row_matches off
  | clock => exact ⟨_, rfl, rfl⟩
  | reset => exact ⟨_, rfl, rfl⟩

/-- Every field of a word that matches a row matches the same field of the row. -/
theorem field_matches {w m p : PortWord} (h : w &&& m = p) (start len : Nat) :
    w.extractLsb' start len &&& m.extractLsb' start len = p.extractLsb' start len := by
  rw [← h, BitVec.extractLsb'_and]

theorem extract_top (k : BitVec 3) (off : Offset) (d : Byte) : ((k ++ off) ++ d).extractLsb' 13 3 = k :=
  BitVec.eq_of_toNat_eq (by rw [field_toNat, word_toNat]; omega)

/-- A row of bus writes: it fixes the three top bits, and the instructions at the offsets it admits have it. -/
def IsWriteRow (r : TableRow) : Prop :=
  r.mask.extractLsb' 13 3 = BitVec.allOnes 3 ∧ r.pattern.extractLsb' 13 3 = 0 ∧
  ∀ off : Offset, off &&& r.mask.extractLsb' 8 5 = r.pattern.extractLsb' 8 5 → (busWriteInstr off 0).row = some r

theorem decode_of_writeRow {r : TableRow} (hr : IsWriteRow r) {w : PortWord} (h : w &&& r.mask = r.pattern) :
    ∃ j, decode w = some j ∧ j.row = some r := by
  obtain ⟨hmask, hpattern, hrow⟩ := hr
  obtain ⟨k, off, d, rfl⟩ := word_eq_append w
  have htop := field_matches h 13 3
  have hoff := field_matches h 8 5
  rw [extract_top, hmask, hpattern, BitVec.and_allOnes] at htop
  rw [← offsetField, offsetField_append] at hoff
  subst htop
  exact ⟨_, decode_busWrite off d, (row_busWriteInstr off d).trans (hrow off hoff)⟩

/-- A row of bus reads: it fixes the three top bits and the data byte, and the instructions at the offsets it admits have it. -/
def IsReadRow (r : TableRow) : Prop :=
  r.mask.extractLsb' 13 3 = BitVec.allOnes 3 ∧ r.pattern.extractLsb' 13 3 = 2 ∧
  r.mask.extractLsb' 0 8 = BitVec.allOnes 8 ∧ r.pattern.extractLsb' 0 8 = 0 ∧
  ∀ off : Offset, off &&& r.mask.extractLsb' 8 5 = r.pattern.extractLsb' 8 5 → (busReadInstr off).row = some r

theorem decode_of_readRow {r : TableRow} (hr : IsReadRow r) {w : PortWord} (h : w &&& r.mask = r.pattern) :
    ∃ j, decode w = some j ∧ j.row = some r := by
  obtain ⟨hmask, hpattern, hdmask, hdpattern, hrow⟩ := hr
  obtain ⟨k, off, d, rfl⟩ := word_eq_append w
  have htop := field_matches h 13 3
  have hoff := field_matches h 8 5
  have hd := field_matches h 0 8
  rw [extract_top, hmask, hpattern, BitVec.and_allOnes] at htop
  rw [← offsetField, offsetField_append] at hoff
  rw [← dataField, dataField_append, hdmask, hdpattern, BitVec.and_allOnes] at hd
  subst htop hd
  exact ⟨_, decode_busRead off, hrow off hoff⟩

/-- A word that matches the row of some instruction decodes to an instruction of that row. -/
theorem decode_of_row {i : Instr} {r : TableRow} {w : PortWord} (hr : i.row = some r) (h : w &&& r.mask = r.pattern) :
    ∃ j, decode w = some j ∧ j.row = some r := by
  cases i with
  | rPotX | rPotY | rOsc3 | rEnv3 | rBus00 | rBus10 | rBus18 | rBus1D | rBus1E =>
    cases hr; exact decode_of_readRow (by unfold IsReadRow; decide) h
  | clk | reset =>
    cases hr
    obtain rfl := (BitVec.and_allOnes (x := w)).symm.trans h
    exact ⟨_, rfl, rfl⟩
  | schedule | cancel | dispatch | runUntil | getTime | catchup => cases hr
  | _ => cases hr; exact decode_of_writeRow (by unfold IsWriteRow; decide) h

/-- Settles O3: a legal word is the word of its operation, which matches its instruction's row; and each row fixes the fields that
the decoder reads. -/
theorem decodeMatchesTableRow : Obligations.DecodeMatchesTableRow := by
  refine ⟨fun w i h => ?_, fun i r w => decode_of_row⟩
  obtain ⟨op, hop, rfl⟩ := decode_eq_some_iff.1 h
  rw [← encodePort_of_decodePort hop]
  exact encodePort_matches_row op

/-! ### The illegal words (rule R95) -/

theorem decode_eq_none_iff {w : PortWord} : decode w = none ↔ decodePort w = none := Option.map_eq_none_iff

/-- Rule R95 on the parts of a word. -/
theorem illegal_append (k : BitVec 3) (off : Offset) (d : Byte) :
    decodePort ((k ++ off) ++ d) = none ↔
      (k.getLsbD 2 = false ∧ k.getLsbD 0 = true) ∨ (k.extractLsb' 1 2 = 0b01#2 ∧ d ≠ 0) ∨
      (k.extractLsb' 1 2 = 0b10#2 ∧ ¬(k.extractLsb' 0 1 = 0#1 ∧ off = 0 ∧ d = 0)) ∨
      (k.extractLsb' 1 2 = 0b11#2 ∧ ¬(k.extractLsb' 0 1 = 0#1 ∧ off = 0 ∧ d = 0)) := by
  rw [decodePort_append]
  rcases topBits_cases k with rfl | rfl | rfl | rfl | rfl | rfl | rfl | rfl <;> simp

theorem decode_none_iff (w : PortWord) : decode w = none ↔
    (w.getLsbD 15 = false ∧ w.getLsbD 13 = true) ∨
    (w.extractLsb' 14 2 = 0b01#2 ∧ w.extractLsb' 0 8 ≠ 0#8) ∨
    (w.extractLsb' 14 2 = 0b10#2 ∧ w.extractLsb' 0 14 ≠ 0#14) ∨
    (w.extractLsb' 14 2 = 0b11#2 ∧ (w.extractLsb' 0 12 ≠ 0#12 ∨ w.extractLsb' 12 2 ≠ 0b00#2)) := by
  obtain ⟨k, off, d, rfl⟩ := word_eq_append w
  rw [decode_eq_none_iff, illegal_append, word_bit15, word_bit13, ← kindField, ← dataField, kindField_append, dataField_append,
    Or.comm (a := _ ≠ 0#12), ← not_and_or, ctl_eq_zero_iff, ← low14_eq_zero_iff k off d]
  rfl

theorem illegalWord_of_running {s : State} (h : s.faulted = none) (w : PortWord) :
    illegalWord w s = .next { s with faulted := some (.illegalPortWord w) } :=
  operation_of_running h _

theorem step_of_illegal {s : State} {c : ChipIndex} {w : PortWord} {rest : List Input} (hin : s.input = .port c w :: rest)
    (hw : decode w = none) : step s = illegalWord w { s with input := rest } := by
  simp [step, hin, hw]

/-- Settles O4: the formats of rule R90 leave out the words of rule R95, and such a word raises its fault where none is set. -/
theorem illegalWordsRaiseFault : Obligations.IllegalWordsRaiseFault :=
  ⟨decode_none_iff, fun s _ w rest hf hin hw =>
    (step_of_illegal hin hw).trans (illegalWord_of_running (s := { s with input := rest }) hf w)⟩

end Sys2Proof.Machine
end

section
/-! PROOFS. One voice's waveform generator (spec/41_waveform.md): the LFSR's shift and its write-back (rules R149, R158), the clock step
of the test bit (rule R147), and the output step (rules R152-R159). -/

namespace Sys2Proof.Machine

/-! ### The shift of the noise LFSR (rules R146, R149) -/

/-- One shift of the 23-bit LFSR with the bit `b` entering. -/
def shiftIn (b : Bool) (sr : BitVec 24) : BitVec 24 := ((sr <<< 1) ||| (BitVec.ofBool b).setWidth 24) &&& 0x7FFFFF#24

theorem noiseShift_eq_shiftIn (sr : BitVec 24) : noiseShift sr = shiftIn (sr.getLsbD 22 ^^ sr.getLsbD 17) sr := rfl

theorem Wave.testFall_eq_shiftIn (v : Wave) :
    v.testFall = { v with sr := shiftIn (!v.sr.getLsbD 17) v.sr, noiseOutput := noiseOf (shiftIn (!v.sr.getLsbD 17) v.sr) } := rfl

theorem shiftIn_bit0 (b : Bool) (sr : BitVec 24) : (shiftIn b sr).getLsbD 0 = b := by
  cases b <;> simp [shiftIn]

theorem shiftIn_bit23 (b : Bool) (sr : BitVec 24) : (shiftIn b sr).getLsbD 23 = false := by
  simp [shiftIn]

theorem shiftIn_bit (b : Bool) (sr : BitVec 24) {k : Nat} (h1 : 1 ≤ k) (h2 : k ≤ 22) :
    (shiftIn b sr).getLsbD k = sr.getLsbD (k - 1) := by
  have kept : (0x7FFFFF#24).getLsbD k = true := by
    have : ∀ k < 23, (0x7FFFFF#24).getLsbD k = true := by decide
    exact this k (by omega)
  have not_entered : ((BitVec.ofBool b).setWidth 24).getLsbD k = false := by
    rw [BitVec.getLsbD_setWidth, BitVec.getLsbD_ofBool]
    simp [show k ≠ 0 by omega]
  rw [shiftIn, BitVec.getLsbD_and, BitVec.getLsbD_or, BitVec.getLsbD_shiftLeft, kept, not_entered]
  simp [show k < 24 by omega, show ¬k < 1 by omega]

/-! ### Write-back into the LFSR's taps (rule R158) -/

theorem wbMask_tap (w : BitVec 12) :
    (wbMask w).getLsbD 22 = w.getLsbD 11 ∧ (wbMask w).getLsbD 20 = w.getLsbD 10 ∧ (wbMask w).getLsbD 16 = w.getLsbD 9 ∧
    (wbMask w).getLsbD 13 = w.getLsbD 8 ∧ (wbMask w).getLsbD 11 = w.getLsbD 7 ∧ (wbMask w).getLsbD 7 = w.getLsbD 6 ∧
    (wbMask w).getLsbD 4 = w.getLsbD 5 ∧ (wbMask w).getLsbD 2 = w.getLsbD 4 := by
  simp only [wbMask, BitVec.getLsbD_or, getLsbD_routeBit]
  simp

theorem wbMask_no_tap (w : BitVec 12) {k : Nat} (hk : k < 23) (h : k ∉ [22, 20, 16, 13, 11, 7, 4, 2]) :
    (wbMask w).getLsbD k = true := by
  have kept : ∀ k < 23, k ∉ [22, 20, 16, 13, 11, 7, 4, 2] → (0x7FFFFF#24 &&& ~~~0x512894#24).getLsbD k = true := by decide
  rw [wbMask, BitVec.getLsbD_or, kept k hk h, Bool.true_or]

/-- The noise output of the LFSR written back is the old one masked with the output. -/
theorem noiseOf_and_wbMask (sr : BitVec 24) (w : BitVec 12) : noiseOf (sr &&& wbMask w) = noiseOf sr &&& w := by
  obtain ⟨t22, t20, t16, t13, t11, t7, t4, t2⟩ := wbMask_tap w
  refine BitVec.eq_of_getLsbD_eq fun k hk => ?_
  simp only [BitVec.getLsbD_and, getLsbD_noiseOf, t22, t20, t16, t13, t11, t7, t4, t2]
  interval_cases k <;> simp

theorem getLsbD_and_wbMask_of_no_tap {sr : BitVec 24} (h23 : sr.getLsbD 23 = false) (w : BitVec 12) {k : Nat}
    (h : k ∉ [22, 20, 16, 13, 11, 7, 4, 2]) : (sr &&& wbMask w).getLsbD k = sr.getLsbD k := by
  rw [BitVec.getLsbD_and]
  rcases Nat.lt_trichotomy k 23 with hlt | rfl | hgt
  · rw [wbMask_no_tap w hlt h, Bool.and_true]
  · rw [h23, Bool.false_and]
  · rw [BitVec.getLsbD_of_ge sr k hgt, Bool.false_and]

/-- Settles O32: the shift bit by bit, and write-back tap by tap. -/
theorem noiseShiftAndWriteBack : Obligations.NoiseShiftAndWriteBack := by
  refine ⟨fun sr => ?_, fun sr w h23 => ⟨noiseOf_and_wbMask sr w, fun k => getLsbD_and_wbMask_of_no_tap h23 w⟩⟩
  rw [noiseShift_eq_shiftIn]
  exact ⟨shiftIn_bit0 .., shiftIn_bit23 .., fun _ => shiftIn_bit _ sr⟩

/-! ### The clock step with the test bit set (rule R147) -/

theorem Wave.clockTest_of_idle {v : Wave} (h : v.srrCount = 0) :
    v.clockTest = { v with pulseOutput := 0xFFF#12, msbRising := false } := by
  rw [Wave.clockTest, if_pos h]

theorem Wave.clockTest_of_due {v : Wave} (h : v.srrCount = 1) :
    v.clockTest =
      { v with srrCount := 0, sr := 0x7FFFFF#24, noiseOutput := 0xFF0#12, pulseOutput := 0xFFF#12, msbRising := false } := by
  rw [Wave.clockTest, if_neg (by rw [h]; decide), if_pos h]
  rfl

theorem Wave.clockTest_of_counting {v : Wave} (h0 : v.srrCount ≠ 0) (h1 : v.srrCount ≠ 1) :
    v.clockTest = { v with srrCount := v.srrCount - 1, pulseOutput := 0xFFF#12, msbRising := false } := by
  rw [Wave.clockTest, if_neg h0, if_neg h1]

/-- Settles O29: the three cases of the countdown. -/
theorem testBitClockStep : Obligations.TestBitClockStep := by
  intro v htest
  rw [Wave.clock_of_test htest]
  refine ⟨?frame, fun h0 => ?idle, fun h1 => ?due, fun h0 h1 => ?counting⟩
  case frame => obtain ⟨_, _, _, h⟩ := v.clockTest_changes; rw [h]
  case idle => rw [Wave.clockTest_of_idle h0]; exact ⟨h0, rfl, rfl⟩
  case due => rw [Wave.clockTest_of_due h1]; exact ⟨rfl, rfl, rfl⟩
  case counting => rw [Wave.clockTest_of_counting h0 h1]; exact ⟨rfl, rfl, rfl⟩

/-! ### Write-back on the output step (rule R159) -/

theorem noiseCombined_iff (w : BitVec 4) : noiseCombined w = true ↔ w.getLsbD 3 = true ∧ w.extractLsb' 0 3 ≠ 0 := by
  simp [noiseCombined, waveSelect]

/-- The condition of rule R159: noise and another waveform selected, test clear, and no shift due. -/
def Wave.WritesBack (v : Wave) : Prop :=
  v.waveform.getLsbD 3 = true ∧ v.waveform.extractLsb' 0 3 ≠ 0 ∧ v.test = false ∧ v.shiftPipeline ≠ 1

theorem Wave.WritesBack.selected {v : Wave} (h : v.WritesBack) : v.waveform ≠ 0 := fun h0 => h.2.1 (by rw [h0]; rfl)

theorem Wave.outputWriteBack_of_writesBack {v : Wave} (h : v.WritesBack) : v.outputWriteBack = v.writeBack := by
  obtain ⟨hnoise, hother, htest, hidle⟩ := h
  rw [Wave.outputWriteBack, (noiseCombined_iff _).2 ⟨hnoise, hother⟩, htest, if_pos (by simpa using hidle)]

theorem Wave.outputWriteBack_of_not {v : Wave} (h : ¬v.WritesBack) : v.outputWriteBack = v := by
  rw [Wave.outputWriteBack, if_neg]
  rw [Bool.and_eq_true, Bool.and_eq_true, noiseCombined_iff, Bool.not_eq_true', bne_iff_ne]
  exact fun hc => h ⟨hc.1.1.1, hc.1.1.2, hc.1.2, hc.2⟩

/-- The output step of a selected waveform before the comparator: the driven output and read-back latch, then write-back. -/
theorem Wave.output_of_selected {v : Wave} (h : v.waveform ≠ 0) (p : Params) (m : ChipModel) (a : BitVec 24) :
    ∃ o t, v.output p m a =
      ({ v with waveformOutput := (v.output p m a).waveformOutput, osc3 := o, triSawPipeline := t }.outputWriteBack).comparePulse := by
  obtain ⟨o, t, hlatch⟩ := Wave.latchOsc3_changes m (waveBase p m (waveSelect v.waveform) (v.index a))
    (v.driven (waveBase p m (waveSelect v.waveform) (v.index a)))
  refine ⟨o, t, ?_⟩
  rw [Wave.output_waveformOutput h, Wave.output, if_neg h]
  dsimp only
  rw [hlatch]
  rfl

theorem Wave.output_noise_of_writesBack {v : Wave} (h : v.WritesBack) (p : Params) (m : ChipModel) (a : BitVec 24) :
    (v.output p m a).sr = v.sr &&& wbMask (v.output p m a).waveformOutput ∧
    (v.output p m a).noiseOutput = v.noiseOutput &&& (v.output p m a).waveformOutput := by
  obtain ⟨o, t, hout⟩ := Wave.output_of_selected h.selected p m a
  rw [Wave.outputWriteBack_of_writesBack (by exact h)] at hout
  exact ⟨(congrArg Wave.sr hout).trans rfl, (congrArg Wave.noiseOutput hout).trans rfl⟩

theorem Wave.output_noise_of_not {v : Wave} (h : ¬v.WritesBack) (p : Params) (m : ChipModel) (a : BitVec 24) :
    (v.output p m a).sr = v.sr ∧ (v.output p m a).noiseOutput = v.noiseOutput := by
  by_cases h0 : v.waveform = 0
  · obtain ⟨_, _, hfloat⟩ := v.float_changes
    rw [Wave.output_of_zero h0, hfloat]
    exact ⟨rfl, rfl⟩
  · obtain ⟨o, t, hout⟩ := Wave.output_of_selected h0 p m a
    rw [Wave.outputWriteBack_of_not (by exact h)] at hout
    exact ⟨(congrArg Wave.sr hout).trans rfl, (congrArg Wave.noiseOutput hout).trans rfl⟩

/-- Settles O35: the two cases of write-back, and the fields that the floating step and the driven step can change. -/
theorem outputStepWriteBack : Obligations.OutputStepWriteBack := by
  intro p m a v
  refine ⟨fun h => Wave.output_noise_of_writesBack h p m a, fun h => Wave.output_noise_of_not h p m a, ?frame⟩
  by_cases h0 : v.waveform = 0
  · obtain ⟨_, _, hfloat⟩ := v.float_changes
    rw [if_pos h0, if_pos h0, Wave.output_of_zero h0, hfloat]
    rfl
  · obtain ⟨o, t, hout⟩ := Wave.output_of_selected h0 p m a
    obtain ⟨_, _, hwb⟩ := Wave.outputWriteBack_changes
      { v with waveformOutput := (v.output p m a).waveformOutput, osc3 := o, triSawPipeline := t }
    rw [hwb] at hout
    rw [if_neg h0, if_neg h0, hout]
    rfl

/-! ### The waveform bases and the read-back latch (rules R152, R153, R155) -/

theorem bit11_iff (idx : BitVec 12) : idx.getLsbD 11 = true ↔ 0x800 ≤ idx.toNat := by
  rw [show idx.getLsbD 11 = idx.msb from rfl, BitVec.msb_eq_decide, decide_eq_true_eq]

/-- The triangle rises by twice the index in its first half and falls by it in its second. -/
theorem tri_toNat (idx : BitVec 12) : (tri idx).toNat = if idx.toNat < 0x800 then 2 * idx.toNat else 2 * (0xFFF - idx.toNat) := by
  have flip : idx ^^^ 0xFFF#12 = ~~~idx := BitVec.xor_allOnes
  have hidx := idx.isLt
  simp only [tri, bit11_iff, flip]
  split_ifs with high low
  · omega
  · rw [BitVec.toNat_shiftLeft, BitVec.toNat_not, Nat.shiftLeft_eq]; omega
  · rw [BitVec.toNat_shiftLeft, Nat.shiftLeft_eq]; omega
  · omega

theorem waveBase_combined {sel : BitVec 3} (h : sel ∈ [3#3, 5#3, 6#3, 7#3]) (p : Params) (m : ChipModel) (idx : BitVec 12) :
    waveBase p m sel idx = waveTable p m sel idx := by
  simp only [List.mem_cons, List.not_mem_nil, or_false] at h
  rcases h with rfl | rfl | rfl | rfl <;> rfl

theorem extractLsb'_low_nibble {x : BitVec 12} (h : x &&& 0x00F#12 = 0) : x.extractLsb' 0 4 = 0#4 := by
  have := congrArg (BitVec.extractLsb' 0 4) h
  rw [BitVec.extractLsb'_and] at this
  exact BitVec.and_allOnes.symm.trans this

theorem getLsbD_waveTableDefault (sel : BitVec 3) (idx : BitVec 12) {k : Nat} (h4 : 4 ≤ k) (h12 : k < 12) :
    (waveTableDefault sel idx).getLsbD k =
      ((!sel.getLsbD 0 || (tri idx).getLsbD k) && (!sel.getLsbD 1 || idx.getLsbD k)) := by
  have kept : ∀ k < 12, 4 ≤ k → (0xFF0#12).getLsbD k = true := by decide
  have ones : ∀ k < 12, (0xFFF#12).getLsbD k = true := by decide
  rw [waveTableDefault, BitVec.getLsbD_and, BitVec.getLsbD_and, kept k h12 h4, Bool.and_true]
  cases sel.getLsbD 0 <;> cases sel.getLsbD 1 <;> simp [ones k h12]

/-- The read-back latch is one output step late: a MOS8580 with triangle or sawtooth selected (rule R155). -/
abbrev Wave.ReadsLate (m : ChipModel) (v : Wave) : Prop := m = .mos8580 ∧ v.waveform.extractLsb' 0 2 ≠ 0

theorem Wave.latchOsc3_eq (m : ChipModel) (base : BitVec 12) (v : Wave) :
    v.latchOsc3 m base = { v with
      osc3 := if v.ReadsLate m then v.triSawPipeline &&& v.gates else v.waveformOutput
      triSawPipeline := if v.ReadsLate m then base else v.triSawPipeline } := by
  have late_iff : (m = .mos8580 && v.waveform.extractLsb' 0 2 != 0) = true ↔ v.ReadsLate m := by
    rw [Bool.and_eq_true, decide_eq_true_eq, bne_iff_ne]
  by_cases late : v.ReadsLate m
  · rw [if_pos late, if_pos late, Wave.latchOsc3, if_pos (late_iff.2 late)]
  · rw [if_neg late, if_neg late, Wave.latchOsc3, if_neg fun hl => late (late_iff.1 hl)]

theorem Wave.output_latch {v : Wave} (h : v.waveform ≠ 0) (p : Params) (m : ChipModel) (a : BitVec 24) :
    (v.output p m a).osc3 = (if v.ReadsLate m then v.triSawPipeline &&& v.gates else (v.output p m a).waveformOutput) ∧
    (v.output p m a).triSawPipeline =
      if v.ReadsLate m then waveBase p m (waveSelect v.waveform) (v.index a) else v.triSawPipeline := by
  rw [Wave.output_waveformOutput h, Wave.output, if_neg h]
  dsimp only
  obtain ⟨_, _, hwb⟩ := Wave.outputWriteBack_changes
    ((v.driven (waveBase p m (waveSelect v.waveform) (v.index a))).latchOsc3 m (waveBase p m (waveSelect v.waveform) (v.index a)))
  rw [hwb, Wave.latchOsc3_eq]
  exact ⟨rfl, rfl⟩

/-- Settles O34: the bases read off the table, the default table bit by bit, and the two cases of the latch. -/
theorem waveformBasesAndReadBack : Obligations.WaveformBasesAndReadBack := by
  refine ⟨fun p m idx => ⟨rfl, rfl, rfl, tri_toNat idx⟩, fun p m sel idx hdefault hsel => ?table, fun p m a v hw => ?latch⟩
  case table =>
    rw [waveBase_combined hsel]
    refine ⟨extractLsb'_low_nibble (waveTable_lowNibble p m sel idx), fun k h4 h12 => ?_⟩
    rw [waveTable, hdefault]
    exact getLsbD_waveTableDefault sel idx h4 h12
  case latch =>
    obtain ⟨hosc, htri⟩ := Wave.output_latch hw p m a
    refine ⟨fun late => ?_, fun prompt => ?_⟩
    · rw [hosc, htri, if_pos late, if_pos late]; exact ⟨rfl, rfl⟩
    · rw [hosc, htri, if_neg prompt, if_neg prompt]; exact ⟨rfl, rfl⟩

/-! ### The floating DAC input (rule R157) -/

/-- A counter that stops at 0 counts down by one. -/
theorem countDown_toNat (t : BitVec 32) : (if t = 0 then 0 else t - 1).toNat = t.toNat - 1 := by
  split_ifs <;> bv_omega

theorem Wave.float_eq (v : Wave) :
    v.float = { v with
      floatingTtl := if v.floatingTtl = 0 then 0 else v.floatingTtl - 1
      waveformOutput := if v.floatingTtl = 1 then 0#12 else v.waveformOutput
      osc3 := if v.floatingTtl = 1 then 0#12 else v.waveformOutput } := by
  unfold Wave.float
  split_ifs with h0 h1 h1
  · rw [h0] at h1; exact absurd h1 (by decide)
  · rw [← h0]
  · rw [h1]; rfl
  · rfl

theorem Wave.output_of_floating {v : Wave} (h : v.waveform = 0) (p : Params) (m : ChipModel) (a : BitVec 24) :
    v.output p m a = { v with
      floatingTtl := if v.floatingTtl = 0 then 0 else v.floatingTtl - 1
      waveformOutput := if v.floatingTtl = 1 then 0#12 else v.waveformOutput
      osc3 := if v.floatingTtl = 1 then 0#12 else v.waveformOutput
      pulseOutput := pulseLevel v.acc v.pw } := by
  rw [Wave.output_of_zero h, Wave.float_eq]; rfl

/-- With waveform 0 the TTL after `n` output steps has gone down by `n`, and the DAC input has held until it ran out (rule R400). -/
theorem Wave.output_iterate_floating {v : Wave} (h : v.waveform = 0) (httl : v.floatingTtl ≠ 0) (p : Params) (m : ChipModel)
    (a : BitVec 24) (n : Nat) :
    let w := (Wave.output p m a)^[n] v
    w.waveform = 0 ∧ w.floatingTtl.toNat = v.floatingTtl.toNat - n ∧
    w.waveformOutput = (if n < v.floatingTtl.toNat then v.waveformOutput else 0#12) ∧ (0 < n → w.osc3 = w.waveformOutput) := by
  have hpos : 0 < v.floatingTtl.toNat := Nat.pos_of_ne_zero fun h0 => httl (BitVec.eq_of_toNat_eq h0)
  induction n with
  | zero => exact ⟨h, rfl, (if_pos hpos).symm, fun h0 => absurd h0 (lt_irrefl 0)⟩
  | succ n ih =>
    obtain ⟨hw, hcount, hheld, -⟩ := ih
    rw [Function.iterate_succ_apply', Wave.output_of_floating hw]
    generalize (Wave.output p m a)^[n] v = w at *
    refine ⟨hw, ?count, ?held, fun _ => rfl⟩
    case count => exact (countDown_toNat _).trans (by rw [hcount]; omega)
    case held =>
      dsimp only
      have last_iff : w.floatingTtl = 1 ↔ v.floatingTtl.toNat - n = 1 := by rw [← BitVec.toNat_inj, hcount]; rfl
      rw [hheld]
      simp only [last_iff]
      grind

/-- Settles O37: one floating step field by field, and `n` of them by the countdown. -/
theorem floatingOutputHoldsThenFalls : Obligations.FloatingOutputHoldsThenFalls := by
  intro p m a v h
  refine ⟨?_, fun httl n => ?_⟩
  · rw [Wave.output_of_floating h, pulseLevel_eq]
  · obtain ⟨-, -, hheld, hosc⟩ := Wave.output_iterate_floating h httl p m a n
    exact ⟨hheld, hosc⟩

end Sys2Proof.Machine
end

section
/-! PROOFS. A waveform generator over many cycles (spec/41_waveform.md): the accumulator's period (rule R168), and the invariant of rule
R24 under the clock step, the output step, hard sync and every register write. -/

namespace Sys2Proof.Machine

/-! ### The accumulator's period (rule R168) -/

theorem Wave.clock_iterate {v : Wave} (h : v.test = false) (n : Nat) :
    (Wave.clock^[n] v).test = false ∧ (Wave.clock^[n] v).freq = v.freq ∧
    (Wave.clock^[n] v).acc.toNat = (v.acc.toNat + n * v.freq.toNat) % 2 ^ 24 := by
  induction n with
  | zero => exact ⟨h, rfl, by rw [Nat.zero_mul, Nat.add_zero, Nat.mod_eq_of_lt v.acc.isLt]; rfl⟩
  | succ n ih =>
    obtain ⟨htest, hfreq, hacc⟩ := ih
    rw [Function.iterate_succ_apply']
    refine ⟨by rw [Wave.clock_test, htest], by rw [Wave.clock_freq, hfreq], ?_⟩
    rw [Wave.clock_acc_toNat htest, hacc, hfreq, Nat.mod_add_mod, Nat.add_assoc, Nat.succ_mul]

/-- `n` steps of `f` come round modulo `m` exactly when `m / gcd f m` divides `n`. -/
theorem dvd_mul_iff_div_gcd_dvd {m : Nat} (hm : 0 < m) (n f : Nat) : m ∣ n * f ↔ m / Nat.gcd f m ∣ n := by
  have hg : 0 < Nat.gcd f m := Nat.gcd_pos_of_pos_right f hm
  have hcoprime : Nat.Coprime (m / Nat.gcd f m) (f / Nat.gcd f m) := (Nat.coprime_div_gcd_div_gcd hg).symm
  rw [← hcoprime.dvd_mul_right, ← Nat.mul_dvd_mul_iff_right (a := m / _) hg, Nat.div_mul_cancel (Nat.gcd_dvd_right f m),
    Nat.mul_assoc, Nat.div_mul_cancel (Nat.gcd_dvd_left f m)]

theorem Wave.clock_iterate_acc_eq_iff {v : Wave} (h : v.test = false) (n : Nat) :
    (Wave.clock^[n] v).acc = v.acc ↔ 2 ^ 24 / Nat.gcd v.freq.toNat (2 ^ 24) ∣ n := by
  rw [← BitVec.toNat_inj, (Wave.clock_iterate h n).2.2, ← dvd_mul_iff_div_gcd_dvd (by decide)]
  have := v.acc.isLt
  omega

/-- Settles O39: the accumulator returns exactly after the multiples of its period. -/
theorem accumulatorPeriod : Obligations.AccumulatorPeriod := by
  refine fun v h => ⟨fun n => (Wave.clock_iterate h n).2.2, fun _ => ⟨?returns, fun n hpos hlt => ?never⟩⟩
  case returns => exact (Wave.clock_iterate_acc_eq_iff h _).2 dvd_rfl
  case never => exact fun heq => Nat.not_dvd_of_pos_of_lt hpos hlt ((Wave.clock_iterate_acc_eq_iff h n).1 heq)

/-! ### The invariant of rule R24 -/

/-- The LFSR's part of the invariant: its top bit 0, its noise output that of its taps. -/
structure NoiseInv (sr : BitVec 24) (noise : BitVec 12) : Prop where
  sr_23_bits : sr.getLsbD 23 = false
  noise_of_sr : noise = noiseOf sr

theorem NoiseInv.writeBack {sr : BitVec 24} {noise : BitVec 12} (h : NoiseInv sr noise) (w : BitVec 12) :
    NoiseInv (sr &&& wbMask w) (noise &&& w) :=
  ⟨by rw [BitVec.getLsbD_and, h.sr_23_bits, Bool.false_and], by rw [noiseOf_and_wbMask, h.noise_of_sr]⟩

theorem Wave.Inv.noise {v : Wave} (h : v.Inv) : NoiseInv v.sr v.noiseOutput := ⟨h.sr_23_bits, h.noise_of_sr⟩

theorem noiseInv_ones : NoiseInv 0x7FFFFF#24 0xFF0#12 := ⟨by decide, by decide⟩

theorem pulseLevel_cases (acc : BitVec 24) (pw : BitVec 12) : pulseLevel acc pw = 0x000#12 ∨ pulseLevel acc pw = 0xFFF#12 := by
  unfold pulseLevel
  split
  · exact .inr rfl
  · exact .inl rfl

theorem Wave.Inv.clockTest {v : Wave} (h : v.Inv) : v.clockTest.Inv := by
  have hnoise : NoiseInv v.clockTest.sr v.clockTest.noiseOutput := by
    by_cases h0 : v.srrCount = 0
    · rw [Wave.clockTest_of_idle h0]; exact h.noise
    by_cases h1 : v.srrCount = 1
    · rw [Wave.clockTest_of_due h1]; exact noiseInv_ones
    · rw [Wave.clockTest_of_counting h0 h1]; exact h.noise
  obtain ⟨srr, sr, no, heq⟩ := v.clockTest_changes
  rw [heq] at hnoise ⊢
  exact { h with sr_23_bits := hnoise.sr_23_bits, noise_of_sr := hnoise.noise_of_sr, pulse_level := .inr rfl }

/-- The noise pipeline keeps the LFSR's part, and counts from 2. -/
theorem Wave.Inv.clockNoise {v : Wave} (h : v.Inv) (b : Bool) : (v.clockNoise b).Inv := by
  cases b with
  | true => exact { h with shift_pipeline := (by decide : (2 : BitVec 2) ≠ 3) }
  | false =>
    by_cases h0 : v.shiftPipeline = 0
    · rwa [Wave.clockNoise_of_idle h0]
    by_cases h1 : v.shiftPipeline = 1
    · rw [Wave.clockNoise_of_due h1, noiseShift_eq_shiftIn]
      exact { h with sr_23_bits := shiftIn_bit23 _ _, noise_of_sr := rfl, shift_pipeline := (by decide : (0 : BitVec 2) ≠ 3) }
    · rw [Wave.clockNoise_of_pending h0 h1]
      have counts : v.shiftPipeline - 1 ≠ 3 := by bv_omega
      exact { h with shift_pipeline := counts }

theorem Wave.Inv.clock {v : Wave} (h : v.Inv) : v.clock.Inv := by
  cases htest : v.test with
  | true => rw [Wave.clock_of_test htest]; exact h.clockTest
  | false =>
    rw [Wave.clock_eq_clockNoise htest]
    have stepped : Wave.Inv { v with acc := v.clock.acc, msbRising := v.clock.msbRising } :=
      { h with test_holds := fun ht => absurd (htest.symm.trans ht) Bool.false_ne_true }
    exact stepped.clockNoise _

theorem Wave.Inv.output {v : Wave} (h : v.Inv) (p : Params) (m : ChipModel) (a : BitVec 24) : (v.output p m a).Inv := by
  have hnoise : NoiseInv (v.output p m a).sr (v.output p m a).noiseOutput := by
    by_cases hw : v.WritesBack
    · obtain ⟨hsr, hno⟩ := Wave.output_noise_of_writesBack hw p m a
      rw [hsr, hno]; exact h.noise.writeBack _
    · obtain ⟨hsr, hno⟩ := Wave.output_noise_of_not hw p m a
      rw [hsr, hno]; exact h.noise
  obtain ⟨_, _, _, _, _, _, heq⟩ := v.output_changes p m a
  rw [heq] at hnoise ⊢
  exact { h with sr_23_bits := hnoise.sr_23_bits, noise_of_sr := hnoise.noise_of_sr, pulse_level := pulseLevel_cases _ _ }

/-- Hard sync zeroes the accumulator alone. -/
theorem Wave.Inv.zeroed {v : Wave} (h : v.Inv) : Wave.Inv { v with acc := 0 } := { h with test_holds := fun _ => rfl }

theorem Wave.Inv.freq {v : Wave} (h : v.Inv) (x : BitVec 16) : Wave.Inv { v with freq := x } := { h with }

theorem Wave.Inv.pw {v : Wave} (h : v.Inv) (x : BitVec 12) : Wave.Inv { v with pw := x } := { h with }

theorem Wave.select_eq (ttl : BitVec 32) (d : Byte) (v : Wave) :
    v.select ttl d = { v with
      waveform := hiNibble d
      test := d.getLsbD 3
      ring := d.getLsbD 2
      sync := d.getLsbD 1
      ringMsbMask := ringMask (d.getLsbD 2) (hiNibble d)
      noNoise := if hiNibble d = v.waveform then v.noNoise else noNoiseMask (hiNibble d)
      noPulse := if hiNibble d = v.waveform then v.noPulse else noPulseMask (hiNibble d)
      floatingTtl := if hiNibble d ≠ v.waveform ∧ hiNibble d = 0 then ttl else v.floatingTtl } := by
  by_cases hw : hiNibble d = v.waveform
  · rw [Wave.select, if_pos hw, if_pos hw, if_pos hw, if_neg fun h => h.1 hw]
  · rw [Wave.select, if_neg hw, if_neg hw, if_neg hw]
    simp [hw]

/-- The selection keeps the invariant where the accumulator is 0 for a set test bit. -/
theorem Wave.Inv.select {v : Wave} (h : v.Inv) (ttl : BitVec 32) {d : Byte} (htest : d.getLsbD 3 = true → v.acc = 0) :
    (v.select ttl d).Inv := by
  rw [Wave.select_eq]
  refine { h with no_noise := ?_, no_pulse := ?_, ring_mask := rfl, test_holds := htest }
  · dsimp only
    split_ifs with hw
    · rw [hw, h.no_noise]
    · rfl
  · dsimp only
    split_ifs with hw
    · rw [hw, h.no_pulse]
    · rfl

theorem Wave.Inv.testRise {v : Wave} (h : v.Inv) (srr : BitVec 32) (wprev : BitVec 4) : (v.testRise srr wprev).Inv := by
  have held : ∀ u : Wave, u.Inv → Wave.Inv { u with acc := 0, shiftPipeline := 0, srrCount := srr, pulseOutput := 0xFFF#12 } :=
    fun u hu => { hu with
      shift_pipeline := (by decide : (0 : BitVec 2) ≠ 3), pulse_level := .inr rfl, test_holds := fun _ => rfl }
  unfold Wave.testRise
  dsimp only
  split
  · have written := h.noise.writeBack v.waveformOutput
    exact held v.writeBack { h with sr_23_bits := written.sr_23_bits, noise_of_sr := written.noise_of_sr }
  · exact held v h

theorem Wave.Inv.testFall {v : Wave} (h : v.Inv) : v.testFall.Inv := by
  rw [Wave.testFall_eq_shiftIn]
  exact { h with sr_23_bits := shiftIn_bit23 _ _, noise_of_sr := rfl }

/-- A rise of the test bit overwrites the accumulator, so the selection before it may as well see 0 there. -/
theorem Wave.testRise_select_zeroed (srr ttl : BitVec 32) (wprev : BitVec 4) (d : Byte) (v : Wave) :
    (v.select ttl d).testRise srr wprev = (Wave.select ttl d { v with acc := 0 }).testRise srr wprev := by
  rw [Wave.select_eq, Wave.select_eq]
  unfold Wave.testRise
  dsimp only
  split <;> rfl

theorem Wave.Inv.writeControl {v : Wave} (h : v.Inv) (srr ttl : BitVec 32) (d : Byte) : (v.writeControl srr ttl d).Inv := by
  by_cases hsame : d.getLsbD 3 = v.test
  · rw [Wave.writeControl_of_same_test hsame]
    exact h.select ttl fun hd => h.test_holds (hsame.symm.trans hd)
  · cases hd : d.getLsbD 3 with
    | true =>
      rw [Wave.writeControl_of_rise (by rw [hd] at hsame; simpa using hsame) hd, Wave.testRise_select_zeroed]
      exact (h.zeroed.select ttl fun _ => rfl).testRise srr _
    | false =>
      rw [Wave.writeControl_of_fall (by rw [hd] at hsame; simpa using hsame) hd]
      exact (h.select ttl fun ht => absurd (hd.symm.trans ht) Bool.false_ne_true).testFall

theorem Wave.Inv.chipReset (v : Wave) : v.chipReset.Inv :=
  ⟨noiseInv_ones.sr_23_bits, rfl, (by decide : (0 : BitVec 2) ≠ 3), .inr rfl, (by decide : 0xFFF#12 = noNoiseMask 0),
    (by decide : 0xFFF#12 = noPulseMask 0), rfl, fun h => absurd h Bool.false_ne_true⟩

end Sys2Proof.Machine
end

section
/-! PROOFS. One envelope generator (spec/42_envelope.md): its clock step branch by branch (rules R206, R207), the invariant of rule R26
under it and under the register writes, a frozen counter (rule R214), and the latency of an attack (rule R395). -/

namespace Sys2Proof.Machine

/-! ### The pending state change (rule R207) -/

/-- A release takes effect in this step: at the last count from Attack, one earlier from DecaySustain. -/
abbrev Env.Released (e : Env) : Prop :=
  e.nextState = .release ∧
    ((e.state = .attack ∧ e.statePipeline - 1 = 0) ∨ (e.state = .decaySustain ∧ e.statePipeline - 1 = 1))

theorem Env.stateChange_eq (e : Env) :
    e.stateChange = { e with
      statePipeline := e.statePipeline - 1
      state :=
        if e.nextState = .attack ∧ e.statePipeline - 1 = 0 then .attack
        else if e.nextState = .decaySustain ∧ e.statePipeline - 1 = 0 then .decaySustain
        else if e.Released then .release
        else e.state
      rate :=
        if e.nextState = .attack ∧ e.statePipeline - 1 = 1 then adsrRate e.decay
        else if e.nextState = .attack ∧ e.statePipeline - 1 = 0 then adsrRate e.attack
        else if e.nextState = .decaySustain ∧ e.statePipeline - 1 = 0 then adsrRate e.decay
        else if e.Released then adsrRate e.release
        else e.rate
      counterEnabled := if e.nextState = .attack ∧ e.statePipeline - 1 = 0 then true else e.counterEnabled } := by
  unfold Env.stateChange
  dsimp only
  split
  · next attack =>
    simp only [Env.Released, attack, true_and, false_and, reduceCtorEq, if_false]
    split_ifs with h1 h0 h0
    · rw [h0] at h1; exact absurd h1 (by decide)
    all_goals rfl
  · next decay =>
    simp only [Env.Released, decay, true_and, false_and, reduceCtorEq, if_false]
    split_ifs <;> rfl
  · next release =>
    simp only [Env.Released, release, true_and, false_and, reduceCtorEq, if_false, Bool.or_eq_true, Bool.and_eq_true,
      decide_eq_true_eq, beq_iff_eq]
    split_ifs <;> rfl

/-! ### The branches of the clock step (rule R206) -/

theorem Env.clockCounter_of_envelope {e : Env} (h : e.envelopePipeline ≠ 0) :
    e.clockCounter =
      if e.envelopePipeline = 1 ∧ e.counterEnabled = true then Env.step { e with envelopePipeline := e.envelopePipeline - 1 }
      else { e with envelopePipeline := e.envelopePipeline - 1 } := by
  have due_iff : e.envelopePipeline - 1 = 0 ↔ e.envelopePipeline = 1 := by bv_omega
  rw [Env.clockCounter, if_pos (by simpa using h), Env.clockEnvelope]
  simp only [Bool.and_eq_true, decide_eq_true_eq, due_iff]

/-- The exponential pipeline steps the envelope when its count is over, in Release or in DecaySustain off the sustain level. -/
abbrev Env.Falls (e : Env) : Prop := e.state = .release ∨ (e.state = .decaySustain ∧ e.envelopeCounter ≠ e.sustain)

theorem Env.clockCounter_of_exponential_due {e : Env} (h0 : e.envelopePipeline = 0) (h : e.exponentialPipeline = 1) :
    e.clockCounter = { e with
      exponentialPipeline := 0
      expCounter := 0
      envelopePipeline := if e.Falls then 1 else 0 } := by
  rw [Env.clockCounter, if_neg (by simp [h0]), if_pos (by simp [h]), Env.clockExponential]
  simp [h0, h, Env.Falls, or_comm]

theorem Env.clockCounter_of_exponential_pending {e : Env} (h0 : e.envelopePipeline = 0) (h : e.exponentialPipeline ≠ 0)
    (h1 : e.exponentialPipeline ≠ 1) :
    e.clockCounter = { e with exponentialPipeline := e.exponentialPipeline - 1 } := by
  have not_due : ¬(e.exponentialPipeline - 1 = 0) := by bv_omega
  rw [Env.clockCounter, if_neg (by simp [h0]), if_pos (by simpa using h), Env.clockExponential]
  exact if_neg not_due

theorem Env.clockCounter_of_reset {e : Env} (h0 : e.envelopePipeline = 0) (h1 : e.exponentialPipeline = 0)
    (h : e.resetLfsr = true) :
    e.clockCounter =
      if e.state = .attack then { e with lfsr := 0x7FFF#15, resetLfsr := false, expCounter := 0, envelopePipeline := 2 }
      else if e.counterEnabled = true then
        { e with
          lfsr := 0x7FFF#15
          resetLfsr := false
          expCounter := e.expCounter + 1
          exponentialPipeline := if e.expCounter + 1 ≠ e.expPeriod.value then 0 else if e.expPeriod = .p1 then 1 else 2 }
      else { e with lfsr := 0x7FFF#15, resetLfsr := false } := by
  rw [Env.clockCounter, if_neg (by simp [h0]), if_neg (by simp [h1]), if_pos h, Env.clockReset]
  dsimp only
  have period : (if e.expCounter + 1 = e.expPeriod.value then (if e.expPeriod = .p1 then (1 : BitVec 3) else 2)
      else e.exponentialPipeline) =
      if e.expCounter + 1 ≠ e.expPeriod.value then 0 else if e.expPeriod = .p1 then 1 else 2 := by
    simp only [h1, ne_eq, ite_not]
  split
  · next attack => rw [if_pos attack]
  · next decay =>
    have not_attack : e.state ≠ .attack := by rw [decay]; decide
    rw [if_neg not_attack, period]
  · next release =>
    have not_attack : e.state ≠ .attack := by rw [release]; decide
    rw [if_neg not_attack, period]

theorem Env.clockCounter_of_idle {e : Env} (h0 : e.envelopePipeline = 0) (h1 : e.exponentialPipeline = 0)
    (h : e.resetLfsr = false) : e.clockCounter = e := by
  rw [Env.clockCounter, if_neg (by simp [h0]), if_neg (by simp [h1]), if_neg (by simp [h])]

/-- Settles O41: the branches of the step in their order, and the state change case by case. -/
theorem stateChangeAdvances : Obligations.StateChangeAdvances := by
  refine ⟨fun e => ?clock, fun e _ => e.stateChange_eq⟩
  rw [Env.clock, Env.clockLatch]
  dsimp only
  congr 1
  generalize (if e.statePipeline = 0 then _ else _) = a
  by_cases hep : a.envelopePipeline ≠ 0
  · rw [if_pos hep, Env.clockCounter_of_envelope hep]
  rw [if_neg hep]
  push Not at hep
  by_cases hdue : a.exponentialPipeline = 1
  · rw [if_pos hdue, Env.clockCounter_of_exponential_due hep hdue]
  rw [if_neg hdue]
  by_cases hxp : a.exponentialPipeline ≠ 0
  · rw [if_pos hxp, Env.clockCounter_of_exponential_pending hep hxp hdue]
  rw [if_neg hxp]
  push Not at hxp
  cases hreset : a.resetLfsr with
  | true => rw [if_pos rfl, Env.clockCounter_of_reset hep hxp hreset]
  | false => rw [if_neg Bool.false_ne_true, Env.clockCounter_of_idle hep hxp hreset]

/-! ### The invariant of rule R26 -/

theorem Env.Inv.stateChange {e : Env} (h : e.Inv) (hp : e.statePipeline ≠ 0) : e.stateChange.Inv := by
  rw [Env.stateChange_eq]
  have hle := h.state_pipeline
  refine { h with rate_in_table := ?_, frozen_at_zero := fun hce => ?_, state_pipeline := ?_ }
  · dsimp only
    split_ifs
    exacts [adsrRate_mem _, adsrRate_mem _, adsrRate_mem _, adsrRate_mem _, h.rate_in_table]
  · dsimp only at hce
    split_ifs at hce
    exact h.frozen_at_zero hce
  · dsimp only
    bv_omega

theorem Env.Inv.clockLatch {e : Env} (h : e.Inv) : e.clockLatch.Inv := by
  have latched : Env.Inv { e with env3 := e.envelopeCounter } := { h with }
  unfold Env.clockLatch
  dsimp only
  split_ifs with hp
  · exact latched
  · exact latched.stateChange hp

theorem Env.Inv.step {e : Env} (h : e.Inv) (hce : e.counterEnabled = true) : e.step.Inv := by
  rw [Env.step_eq_lookup, Env.lookup_eq]
  refine { h with rate_in_table := ?_, frozen_at_zero := fun hfrozen => ?_ }
  · dsimp only
    split_ifs
    · exact adsrRate_mem _
    · exact h.rate_in_table
  · simpa [hce] using hfrozen

/-- The middle of the clock step: each branch keeps the pipelines in their ranges, and only an enabled counter steps. -/
theorem Env.Inv.clockCounter {e : Env} (h : e.Inv) : e.clockCounter.Inv := by
  have hep := h.envelope_pipeline
  have hxp := h.exponential_pipeline
  by_cases hep0 : e.envelopePipeline = 0
  · by_cases hdue : e.exponentialPipeline = 1
    · rw [Env.clockCounter_of_exponential_due hep0 hdue]
      have range : (if e.Falls then (1 : BitVec 3) else 0) ≤ 4 := by split_ifs <;> decide
      exact { h with envelope_pipeline := range, exponential_pipeline := (by decide : (0 : BitVec 3) ≤ 2) }
    by_cases hxp0 : e.exponentialPipeline = 0
    · cases hreset : e.resetLfsr with
      | false => rwa [Env.clockCounter_of_idle hep0 hxp0 hreset]
      | true =>
        rw [Env.clockCounter_of_reset hep0 hxp0 hreset]
        have restarted : (0x7FFF#15) ≠ 0 := by decide
        have range : (if e.expCounter + 1 ≠ e.expPeriod.value then (0 : BitVec 3) else if e.expPeriod = .p1 then 1 else 2) ≤ 2 := by
          split_ifs <;> decide
        generalize (if e.expCounter + 1 ≠ e.expPeriod.value then (0 : BitVec 3) else if e.expPeriod = .p1 then 1 else 2) = xp
          at range ⊢
        split_ifs
        · exact { h with lfsr_nonzero := restarted, envelope_pipeline := (by decide : (2 : BitVec 3) ≤ 4) }
        · exact { h with lfsr_nonzero := restarted, exponential_pipeline := range }
        · exact { h with lfsr_nonzero := restarted }
    · rw [Env.clockCounter_of_exponential_pending hep0 hxp0 hdue]
      have range : e.exponentialPipeline - 1 ≤ 2 := by bv_omega
      exact { h with exponential_pipeline := range }
  · rw [Env.clockCounter_of_envelope hep0]
    have range : e.envelopePipeline - 1 ≤ 4 := by bv_omega
    have counted : Env.Inv { e with envelopePipeline := e.envelopePipeline - 1 } := { h with envelope_pipeline := range }
    split_ifs with hstep
    · exact counted.step hstep.2
    · exact counted

theorem Env.Inv.lfsrStep {e : Env} (h : e.Inv) : e.lfsrStep.Inv := by
  by_cases hm : e.lfsr = e.rate
  · rw [Env.lfsrStep_of_match hm]; exact { h with }
  · rw [Env.lfsrStep_of_no_match hm]; exact { h with lfsr_nonzero := lfsrNext_ne_zero h.lfsr_nonzero }

theorem Env.Inv.clock {e : Env} (h : e.Inv) : e.clock.Inv := h.clockLatch.clockCounter.lfsrStep

theorem Env.gateOn_eq (e : Env) :
    e.gateOn = { e with
      gate := true
      nextState := .attack
      statePipeline := if e.resetLfsr = false ∧ e.exponentialPipeline = 1 then 3 else 2
      envelopePipeline :=
        if e.resetLfsr = true ∨ e.exponentialPipeline = 2 then
          (if e.expPeriod = .p1 ∨ e.exponentialPipeline = 2 then 2 else 4)
        else e.envelopePipeline } := by
  unfold Env.gateOn
  dsimp only
  by_cases first : e.resetLfsr = true ∨ e.exponentialPipeline = 2
  · have not_second : ¬(e.resetLfsr = false ∧ e.exponentialPipeline = 1) := by
      rcases first with h | h <;> simp [h]
    rw [if_pos (by simpa using first), if_pos first, if_neg not_second]
    simp only [Bool.or_eq_true, decide_eq_true_eq, beq_iff_eq]
  · rw [if_neg (by simpa using first), if_neg first]
    have running : e.resetLfsr = false := Bool.eq_false_iff.2 fun h => first (.inl h)
    by_cases second : e.exponentialPipeline = 1
    · rw [if_pos second, if_pos ⟨running, second⟩]
    · rw [if_neg second, if_neg fun h => second h.2]

theorem Env.Inv.writeControl {e : Env} (h : e.Inv) (d : Byte) : (e.writeControl d).Inv := by
  unfold Env.writeControl
  split_ifs
  · exact h
  · rw [Env.gateOn_eq]
    refine { h with state_pipeline := ?_, envelope_pipeline := ?_ }
    · dsimp only
      split_ifs <;> decide
    · dsimp only
      split_ifs
      · decide
      · decide
      · exact h.envelope_pipeline
  · refine { h with state_pipeline := ?_ }
    dsimp only [Env.gateOff]
    split_ifs <;> decide

theorem Env.writeAd_eq (d : Byte) (e : Env) :
    e.writeAd d = { e with
      attack := d.extractLsb' 4 4
      decay := d.extractLsb' 0 4
      rate := if e.state = .attack then adsrRate (d.extractLsb' 4 4)
        else if e.state = .decaySustain then adsrRate (d.extractLsb' 0 4)
        else e.rate } := by
  unfold Env.writeAd
  dsimp only
  split
  · next attack => rw [if_pos attack]; rfl
  · next decay => rw [if_neg (by rw [decay]; decide), if_pos decay]; rfl
  · next release => rw [if_neg (by rw [release]; decide), if_neg (by rw [release]; decide)]; rfl

theorem Env.writeSr_eq (d : Byte) (e : Env) :
    e.writeSr d = { e with
      sustain := d.extractLsb' 4 4 ++ d.extractLsb' 4 4
      release := d.extractLsb' 0 4
      rate := if e.state = .release then adsrRate (d.extractLsb' 0 4) else e.rate } := by
  unfold Env.writeSr
  dsimp only
  split
  · next attack => rw [if_neg (by rw [attack]; decide)]; rfl
  · next decay => rw [if_neg (by rw [decay]; decide)]; rfl
  · next release => rw [if_pos release]; rfl

theorem Env.Inv.writeAd {e : Env} (h : e.Inv) (d : Byte) : (e.writeAd d).Inv := by
  rw [Env.writeAd_eq]
  refine { h with rate_in_table := ?_ }
  dsimp only
  split_ifs
  · exact adsrRate_mem _
  · exact adsrRate_mem _
  · exact h.rate_in_table

theorem Env.Inv.writeSr {e : Env} (h : e.Inv) (d : Byte) : (e.writeSr d).Inv := by
  rw [Env.writeSr_eq]
  refine { h with rate_in_table := ?_, sustain_extended := hiNibble_sustainLevel _ }
  dsimp only
  split_ifs
  · exact adsrRate_mem _
  · exact h.rate_in_table

theorem Env.Inv.chipReset {e : Env} (h : e.Inv) : e.chipReset.Inv :=
  ⟨h.lfsr_nonzero, adsrRate_mem 0, (by decide : hiNibble 0 = loNibble 0), fun hce => absurd hce.symm Bool.false_ne_true,
    (by decide : (0 : BitVec 3) ≤ 3), (by decide : (0 : BitVec 3) ≤ 4), (by decide : (0 : BitVec 3) ≤ 2)⟩

/-! ### A frozen counter (rules R210, R214) -/

/-- Counting is disabled, and no attack is pending to enable it. -/
structure Env.Frozen (e : Env) : Prop where
  disabled : e.counterEnabled = false
  no_attack : e.nextState ≠ .attack ∨ e.statePipeline = 0

theorem Env.Frozen.clockLatch {e : Env} (h : e.Frozen) : e.clockLatch.Frozen := by
  unfold Env.clockLatch
  dsimp only
  split_ifs with hp
  · exact { h with }
  · have no_attack : e.nextState ≠ .attack := h.no_attack.resolve_right hp
    rw [Env.stateChange_eq]
    exact ⟨(if_neg fun ha => no_attack ha.1).trans h.disabled, .inl no_attack⟩

theorem Env.clockLatch_envelopeCounter (e : Env) : e.clockLatch.envelopeCounter = e.envelopeCounter := by
  obtain ⟨_, _, _, _, h⟩ := e.clockLatch_changes; rw [h]

/-- With counting disabled no branch of the clock step reaches the envelope counter's step. -/
theorem Env.clockCounter_of_disabled {e : Env} (h : e.counterEnabled = false) :
    ∃ ep xp xc l rl, e.clockCounter =
      { e with envelopePipeline := ep, exponentialPipeline := xp, expCounter := xc, lfsr := l, resetLfsr := rl } := by
  by_cases hep0 : e.envelopePipeline = 0
  · by_cases hdue : e.exponentialPipeline = 1
    · rw [Env.clockCounter_of_exponential_due hep0 hdue]; exact ⟨_, _, _, _, _, rfl⟩
    by_cases hxp0 : e.exponentialPipeline = 0
    · cases hreset : e.resetLfsr with
      | false => rw [Env.clockCounter_of_idle hep0 hxp0 hreset]; exact ⟨_, _, _, _, _, rfl⟩
      | true =>
        rw [Env.clockCounter_of_reset hep0 hxp0 hreset, h, if_neg Bool.false_ne_true]
        split_ifs <;> exact ⟨_, _, _, _, _, rfl⟩
    · rw [Env.clockCounter_of_exponential_pending hep0 hxp0 hdue]; exact ⟨_, _, _, _, _, rfl⟩
  · rw [Env.clockCounter_of_envelope hep0, if_neg fun hc => Bool.false_ne_true (h.symm.trans hc.2)]
    exact ⟨_, _, _, _, _, rfl⟩

theorem Env.Frozen.clock {e : Env} (h : e.Frozen) : e.clock.Frozen ∧ e.clock.envelopeCounter = e.envelopeCounter := by
  have latched := h.clockLatch
  obtain ⟨_, _, _, _, _, hcounter⟩ := Env.clockCounter_of_disabled latched.disabled
  obtain ⟨_, _, hlfsr⟩ := e.clockLatch.clockCounter.lfsrStep_changes
  rw [Env.clock, hlfsr, hcounter]
  exact ⟨⟨latched.disabled, latched.no_attack⟩, e.clockLatch_envelopeCounter⟩

/-- Settles O46: a clock step keeps a frozen counter frozen and where it is. -/
theorem frozenCounterStays : Obligations.FrozenCounterStays := by
  intro e n hdisabled hattack
  have frozen : ∀ n, (Env.clock^[n] e).Frozen ∧ (Env.clock^[n] e).envelopeCounter = e.envelopeCounter := by
    intro n
    induction n with
    | zero => exact ⟨⟨hdisabled, hattack⟩, rfl⟩
    | succ n ih =>
      rw [Function.iterate_succ_apply']
      exact ⟨ih.1.clock.1, ih.1.clock.2.trans ih.2⟩
  exact ⟨(frozen n).1.disabled, (frozen n).2⟩

end Sys2Proof.Machine
end

section
/-! PROOFS. The scheduler's calls (spec/40_scheduler.md): SCHEDULE with its faults (rules R113-R115), GET_TIME (rule R120), DISPATCH with
its callback (rules R117, R121), and RUN_UNTIL (rules R118, R119). -/

namespace Sys2Proof.Machine

/-! ### SCHEDULE (rules R113-R115) -/

theorem scheduleTime_eq (t : BitVec 64) (delay : Nat) (ph : Phase) :
    scheduleTime t delay ph = 2 * (t.toNat / 2 + delay) + (if ph = .phi1 then 0 else 1) := by
  cases ph <;> rfl

/-- Only an insertion at the first phase of the current cycle, made in its second, is in the past. -/
theorem scheduleTime_lt_iff (t : BitVec 64) (delay : Nat) (ph : Phase) :
    scheduleTime t delay ph < t.toNat ↔ delay = 0 ∧ ph = .phi1 ∧ t.toNat % 2 = 1 := by
  rw [scheduleTime_eq]
  cases ph with
  | phi1 => rw [if_pos rfl]; simp only [true_and]; omega
  | phi2 => rw [if_neg (by decide)]; simp only [reduceCtorEq, false_and, and_false, iff_false]; omega

section
variable {e : EventId} {delay : Nat} {ph : Phase} {s : State}

theorem State.schedule_of_overflow (h : 2 ^ 64 ≤ scheduleTime s.time delay ph) :
    s.schedule e delay ph = s.raise (.timeOverflow (scheduleTime s.time delay ph)) := if_pos h

theorem State.schedule_of_past (h : scheduleTime s.time delay ph < 2 ^ 64) (hpast : scheduleTime s.time delay ph < s.time.toNat) :
    s.schedule e delay ph = s.raise (.scheduleInPast e (scheduleTime s.time delay ph)) :=
  (if_neg (Nat.not_le.2 h)).trans (if_pos hpast)

theorem State.schedule_of_pending (h : scheduleTime s.time delay ph < 2 ^ 64) (hpast : s.time.toNat ≤ scheduleTime s.time delay ph)
    (hp : ∃ x ∈ s.queue, x.event = e) : s.schedule e delay ph = s.raise (.schedulePending e) :=
  (if_neg (Nat.not_le.2 h)).trans <| (if_neg (Nat.not_lt.2 hpast)).trans <| if_pos (pending_iff.2 hp)

theorem State.schedule_of_free (h : scheduleTime s.time delay ph < 2 ^ 64) (hpast : s.time.toNat ≤ scheduleTime s.time delay ph)
    (hp : ∀ x ∈ s.queue, x.event ≠ e) :
    s.schedule e delay ph =
      { s with
        queue := queueInsert ⟨e, BitVec.ofNat 64 (scheduleTime s.time delay ph), s.nextSeq⟩ s.queue
        nextSeq := s.nextSeq + 1 } :=
  (if_neg (Nat.not_le.2 h)).trans <| (if_neg (Nat.not_lt.2 hpast)).trans <|
    if_neg (Bool.eq_false_iff.1 (pending_eq_false_iff.2 hp))

theorem exec_schedule_of_running (hf : s.faulted = none) (he : e ∈ s.params.events) :
    exec (.schedule e delay ph) s = .next (s.schedule e delay ph) :=
  (operation_of_running hf _).trans (onEvent_of_known he _)

end

/-- Settles O53: the four cases of SCHEDULE on its target time, and the stop on an unknown event. -/
theorem scheduleInsertsOrFaults : Obligations.ScheduleInsertsOrFaults := by
  refine ⟨fun e delay ph s hf he => ?known, fun e delay ph s hf he =>
    ⟨(operation_of_running hf _).trans (onEvent_of_unknown he _), (operation_of_running hf _).trans (onEvent_of_unknown he _)⟩⟩
  rw [exec_schedule_of_running hf he]
  dsimp only
  rw [← scheduleTime_eq]
  refine ⟨scheduleTime_lt_iff .., fun h => by rw [State.schedule_of_overflow h]; rfl,
    fun h hpast => by rw [State.schedule_of_past h hpast]; rfl,
    fun h hpast hp => by rw [State.schedule_of_pending h hpast hp]; rfl, fun h hpast hp => ?inserts⟩
  rw [State.schedule_of_free h hpast hp]
  exact ⟨_, rfl, queueInsert_perm _ _, queueInsert_ordered⟩

/-! ### GET_TIME (rule R120) -/

theorem phaseOf_eq (t : BitVec 64) : phaseOf t = if t.toNat % 2 = 0 then .phi1 else .phi2 := by
  have bit0 : t.getLsbD 0 = decide (t.toNat % 2 = 1) := Nat.testBit_zero _
  rw [phaseOf, bit0]
  rcases Nat.mod_two_eq_zero_or_one t.toNat with h | h <;> simp [h]

/-- Settles O58: the cycle and the phase are the half-cycles' quotient and remainder by 2. -/
theorem getTimeReturnsCycleAndPhase : Obligations.GetTimeReturnsCycleAndPhase := by
  refine fun s hf => ⟨?_, rfl⟩
  rw [← phaseOf_eq]
  exact operation_of_running hf fun s => .next s.getTime

/-! ### The queue under a callback (rules R111, R112) -/

theorem QueueInv.schedule {s : State} (h : QueueInv s.time s.queue) (e : EventId) (delay : Nat) (ph : Phase) :
    QueueInv (s.schedule e delay ph).time (s.schedule e delay ph).queue := by
  rcases s.schedule_cases e delay ph with ⟨f, heq⟩ | ⟨hlt, hle, hfree, heq⟩ <;> rw [heq]
  · exact h
  · refine h.insert (pending_eq_false_iff.1 hfree) ?_
    rwa [BitVec.le_def, BitVec.toNat_ofNat, Nat.mod_eq_of_lt hlt]

/-- A port word runs its operation on its chip, or raises a fault, or returns `FAULT`. -/
theorem portWord_next_cases {c : ChipIndex} {w : PortWord} {s t : State} (h : portWord c w s = .next t) :
    (∃ op, runPort op (s.select c) = .next t) ∨ (∃ f, t = s.raise f) ∨ t = s.emit .faultReturned := by
  unfold portWord at h
  split at h
  · exact .inl ⟨_, h⟩
  · rcases operation_next_cases h with ⟨_, _, rfl⟩ | ⟨_, h⟩
    · exact .inr (.inr rfl)
    · injection h with h
      exact .inr (.inl ⟨_, h.symm⟩)

theorem State.catchup_next {c : ChipIndex} {s t : State} (h : s.catchup c = .next t) : ∃ n, t = s.clockChipTimes c n := by
  unfold State.catchup at h
  split at h
  · injection h with h
    exact ⟨_, h.symm⟩
  · cases h

theorem QueueInv.runCallOp {op : CallOp} {s t : State} (h : QueueInv s.time s.queue) (hop : runCallOp op s = .next t) :
    QueueInv t.time t.queue := by
  cases op with
  | port c w =>
    rcases portWord_next_cases hop with ⟨op, hrun⟩ | ⟨f, rfl⟩ | rfl
    · obtain ⟨cs, os, rfl, _⟩ := runPort_changes hrun
      exact h
    · exact h
    · exact h
  | schedule e delay ph => obtain ⟨_, rfl⟩ := onEvent_next_cases hop; exact h.schedule e delay ph
  | cancel e => obtain ⟨_, rfl⟩ := onEvent_next_cases hop; exact h.remove e
  | getTime => injection hop with hop; subst hop; exact h
  | catchup c =>
    obtain ⟨n, rfl⟩ := State.catchup_next hop
    obtain ⟨cs, os, heq, _⟩ := s.clockChipTimes_changes c n
    rw [heq]
    exact h
  | drive inp => injection hop with hop; subst hop; simpa using h

/-- What every operation keeps, a callback keeps. -/
theorem runCallback_keeps {P : State → Prop} (hP : ∀ op s t, P s → runCallOp op s = .next t → P t) {ops : List CallOp}
    {s t : State} (hs : P s) (h : runCallback ops s = .next t) : P t := by
  induction ops generalizing s with
  | nil => injection h with h; exact h ▸ hs
  | cons op ops ih =>
    cases hop : runCallOp op s with
    | next u =>
      rw [runCallback_cons hop] at h
      split at h
      · exact ih (hP op s u hs hop) h
      · injection h with h; exact h ▸ hP op s u hs hop
    | fault f => rw [runCallback, hop] at h; cases h
    | refused r => rw [runCallback, hop] at h; cases h

theorem QueueInv.dispatchEntry {x : QueueEntry} {rest : List QueueEntry} {s t : State} (h : QueueInv s.time s.queue)
    (hq : s.queue = x :: rest) (hd : s.dispatchEntry x rest = .next t) : QueueInv t.time t.queue := by
  rw [hq] at h
  exact runCallback_keeps (P := fun s => QueueInv s.time s.queue) (fun _ _ _ => QueueInv.runCallOp)
    (s := { s with queue := rest, time := x.time, callbacks := (takeCallback x.event s.callbacks).2 }) h.detach hd

/-! ### DISPATCH (rule R117) -/

theorem exec_dispatch_of_running {s : State} (hf : s.faulted = none) : exec .dispatch s = s.dispatch := operation_of_running hf _

theorem State.dispatch_of_empty {s : State} (hq : s.queue = []) : s.dispatch = .next (s.emit (.dispatched none)) := by
  rw [State.dispatch, hq]

/-- What DISPATCH answers from the state its callback left: the event is put out where no fault was raised. -/
def State.dispatched (e : EventId) (t : State) : State := if t.faulted = none then t.emit (.dispatched (some e)) else t

theorem State.dispatch_of_head {x : QueueEntry} {rest : List QueueEntry} {s t : State} (hq : s.queue = x :: rest)
    (h : s.dispatchEntry x rest = .next t) : s.dispatch = .next (t.dispatched x.event) := by
  simp only [State.dispatch, hq, h, State.dispatched]
  cases t.faulted <;> rfl

theorem State.dispatch_next_cases {x : QueueEntry} {rest : List QueueEntry} {s t : State} (hq : s.queue = x :: rest)
    (h : s.dispatch = .next t) : ∃ u, s.dispatchEntry x rest = .next u ∧ t = u.dispatched x.event := by
  cases hd : s.dispatchEntry x rest with
  | next u =>
    rw [State.dispatch_of_head hq hd] at h
    injection h with h
    exact ⟨u, rfl, h.symm⟩
  | fault f => simp only [State.dispatch, hq, hd] at h; cases h
  | refused r => simp only [State.dispatch, hq, hd] at h; cases h

theorem State.dispatchEntry_of_take {x : QueueEntry} {rest : List QueueEntry} {s : State} {ops : List CallOp}
    {cbs : List (EventId × List CallOp)} (h : takeCallback x.event s.callbacks = (ops, cbs)) :
    s.dispatchEntry x rest = runCallback ops { s with queue := rest, time := x.time, callbacks := cbs } := by
  rw [State.dispatchEntry, h]

/-- With no sequence supplied for its event, an entry is detached and the time advances to it. -/
theorem State.dispatchEntry_of_none {x : QueueEntry} {rest : List QueueEntry} {s : State}
    (h : ∀ cb ∈ s.callbacks, cb.1 ≠ x.event) :
    s.dispatchEntry x rest = .next { s with queue := rest, time := x.time } :=
  State.dispatchEntry_of_take (takeCallback_of_none h)

/-- An operation of a callback is the same operation of the trace, in a block that is not faulted. -/
theorem runCallOp_eq_exec (op : CallOp) {s : State} (hf : s.faulted = none) :
    runCallOp op s = match op with
      | .port c w => portWord c w s
      | .schedule e delay ph => exec (.schedule e delay ph) s
      | .cancel e => exec (.cancel e) s
      | .getTime => exec .getTime s
      | .catchup c => exec (.catchup c) s
      | .drive inp => step { s with input := .host (.drive inp) :: s.input } := by
  cases op with
  | port => rfl
  | drive => rfl
  | schedule | cancel | getTime | catchup => exact (operation_of_running hf _).symm

/-- Settles O56: DISPATCH is the run of the head's callback, put out where it ends without a fault. -/
theorem dispatchRunsHead : Obligations.DispatchRunsHead := by
  refine ⟨fun s hf hq => ?empty, fun s x rest hf hq hnone => ?noCallback,
    fun s x rest before ops after hf hq hcbs hfirst t ht => ?callback, fun s x rest hf hq hreach => ?total, fun s => rfl,
    fun op ops s t h => runCallback_cons h ops, fun op s hf => runCallOp_eq_exec op hf⟩
  case empty => exact (exec_dispatch_of_running hf).trans (State.dispatch_of_empty hq)
  case noCallback =>
    rw [exec_dispatch_of_running hf, State.dispatch_of_head hq (State.dispatchEntry_of_none hnone)]
    exact congrArg _ (if_pos hf)
  case callback =>
    have hentry : s.dispatchEntry x rest = .next t :=
      (State.dispatchEntry_of_take (by rw [hcbs, takeCallback_of_first hfirst])).trans ht
    rw [exec_dispatch_of_running hf, State.dispatch_of_head hq hentry]
    rfl
  case total =>
    obtain ⟨t, ht, same⟩ := dispatchEntry_total (x := x) (rest := rest) hreach
    refine ⟨t.dispatched x.event, (exec_dispatch_of_running hf).trans (State.dispatch_of_head hq ht), ?_⟩
    unfold State.dispatched
    split_ifs with hfault
    · exact ⟨(dispatchEntry_time ht :), same.chips, fun _ => rfl⟩
    · exact ⟨(dispatchEntry_time ht :), same.chips, fun h => absurd h hfault⟩

/-! ### RUN_UNTIL (rules R118, R119) -/

/-- Nothing in the queue is due by `target`: its head is later, or there is none. -/
def State.NothingDue (target : Nat) (s : State) : Prop := ∀ x, s.queue.head? = some x → target < x.time.toNat

theorem State.nothingDue_of_empty {target : Nat} {s : State} (h : s.queue = []) : s.NothingDue target := by
  intro x hx
  rw [h] at hx
  cases hx

theorem State.nothingDue_of_head {target : Nat} {s : State} {x : QueueEntry} {rest : List QueueEntry} (h : s.queue = x :: rest)
    (hx : target < x.time.toNat) : s.NothingDue target := by
  intro y hy
  rw [h] at hy
  injection hy with hy
  exact hy ▸ hx

/-- In an ordered queue whose head is not due no entry is. -/
theorem State.NothingDue.all_later {target : Nat} {s : State} (h : s.NothingDue target)
    (ho : s.queue.Pairwise fun x y => y.before x = false) : ∀ x ∈ s.queue, target < x.time.toNat := by
  unfold State.NothingDue at h
  cases hq : s.queue with
  | nil => simp
  | cons y ys =>
    rw [hq] at h ho
    exact fun z hz => (h y rfl).trans_le (queue_head_time_le ho z hz)

theorem runLoop_of_nothingDue {target : Nat} {s : State} (h : s.NothingDue target) (n : Nat) :
    runLoop target n s = .next { s with time := BitVec.ofNat 64 target } := by
  cases n with
  | zero => rfl
  | succ n =>
    cases hq : s.queue with
    | nil => simp only [runLoop, hq]
    | cons x rest => simp only [runLoop, hq, if_pos (h x (by rw [hq]; rfl))]

/-- RUN_UNTIL's loop dispatches due entries, keeping what each dispatch keeps, until a callback raises a fault or nothing is due. -/
theorem runLoop_ends {P : State → Prop} {target : Nat}
    (hP : ∀ s t x rest, P s → s.queue = x :: rest → x.time.toNat ≤ target → s.dispatchEntry x rest = .next t → P t)
    {n : Nat} {s t : State} (hn : s.dispatchBound ≤ n) (hs : P s) (h : runLoop target n s = .next t) :
    ∃ u, P u ∧ ((t = u ∧ u.faulted ≠ none) ∨ (t = { u with time := BitVec.ofNat 64 target } ∧ u.NothingDue target)) := by
  induction n generalizing s with
  | zero =>
    have hq : s.queue = [] := List.length_eq_zero_iff.1 (by simp only [State.dispatchBound] at hn; omega)
    injection h with h
    exact ⟨s, hs, .inr ⟨h.symm, State.nothingDue_of_empty hq⟩⟩
  | succ n ih =>
    have idle : s.NothingDue target → ∃ u, P u ∧
        ((t = u ∧ u.faulted ≠ none) ∨ (t = { u with time := BitVec.ofNat 64 target } ∧ u.NothingDue target)) := fun hidle =>
      ⟨s, hs, .inr ⟨Host.Outcome.next.inj (h.symm.trans (runLoop_of_nothingDue hidle _)), hidle⟩⟩
    cases hq : s.queue with
    | nil => exact idle (State.nothingDue_of_empty hq)
    | cons x rest =>
      by_cases hx : target < x.time.toNat
      · exact idle (State.nothingDue_of_head hq hx)
      simp only [runLoop, hq, if_neg hx] at h
      cases hd : s.dispatchEntry x rest with
      | next u =>
        rw [hd] at h
        have hu : P u := hP s u x rest hs hq (Nat.le_of_not_lt hx) hd
        have hbound := dispatchEntry_bound hq hd
        cases hfault : u.faulted with
        | some f =>
          simp only [hfault] at h
          injection h with h
          exact ⟨u, hu, .inl ⟨h.symm, by rw [hfault]; exact Option.some_ne_none f⟩⟩
        | none =>
          simp only [hfault] at h
          exact ih (by omega) hu h
      | fault f => rw [hd] at h; cases h
      | refused r => rw [hd] at h; cases h

theorem exec_runUntil_of_running {s : State} (hf : s.faulted = none) (target : Nat) : exec (.runUntil target) s = s.runUntil target :=
  operation_of_running hf _

theorem State.runUntil_of_overflow {target : Nat} {s : State} (h : 2 ^ 64 ≤ target) :
    s.runUntil target = .next (s.raise (.timeOverflow target)) := if_pos h

theorem State.runUntil_of_past {target : Nat} {s : State} (hlt : target < 2 ^ 64) (hpast : target < s.time.toNat) :
    s.runUntil target = .next (s.raise (.runUntilPast target)) :=
  (if_neg (Nat.not_le.2 hlt)).trans (if_pos hpast)

theorem State.runUntil_of_ahead {target : Nat} {s : State} (hlt : target < 2 ^ 64) (hle : s.time.toNat ≤ target) :
    s.runUntil target = runLoop target s.dispatchBound s :=
  (if_neg (Nat.not_le.2 hlt)).trans (if_neg (Nat.not_lt.2 hle))

/-- What the loop of RUN_UNTIL reaches: every dispatch moves the time forward within the target. -/
theorem runLoop_reaches {target : Nat} {s t : State} (hlt : target < 2 ^ 64) (hle : s.time.toNat ≤ target)
    (hq : QueueInv s.time s.queue) (h : runLoop target s.dispatchBound s = .next t) :
    s.time ≤ t.time ∧ t.time.toNat ≤ target ∧
      (t.faulted = none → t.time.toNat = target ∧ ∀ x ∈ t.queue, target < x.time.toNat) := by
  have dispatches : ∀ (u v : State) (x : QueueEntry) (rest : List QueueEntry),
      (s.time ≤ u.time ∧ u.time.toNat ≤ target ∧ QueueInv u.time u.queue) → u.queue = x :: rest →
      x.time.toNat ≤ target → u.dispatchEntry x rest = .next v →
      s.time ≤ v.time ∧ v.time.toNat ≤ target ∧ QueueInv v.time v.queue := by
    rintro u v x rest ⟨hstart, -, hinv⟩ hqu hx hd
    have not_past : u.time ≤ x.time := hinv.not_past x (by rw [hqu]; exact List.mem_cons_self ..)
    rw [dispatchEntry_time hd]
    exact ⟨BitVec.le_trans hstart not_past, hx, dispatchEntry_time hd ▸ hinv.dispatchEntry hqu hd⟩
  have target_toNat : (BitVec.ofNat 64 target).toNat = target := by rw [BitVec.toNat_ofNat, Nat.mod_eq_of_lt hlt]
  obtain ⟨u, ⟨hstart, hwithin, hinv⟩, ⟨rfl, hfault⟩ | ⟨rfl, hidle⟩⟩ :=
    runLoop_ends dispatches le_rfl ⟨BitVec.le_refl _, hle, hq⟩ h
  · exact ⟨hstart, hwithin, fun hnone => absurd hnone hfault⟩
  · refine ⟨?_, target_toNat.le, fun _ => ⟨target_toNat, hidle.all_later hinv.ordered⟩⟩
    rw [BitVec.le_def] at hstart ⊢
    rw [target_toNat]
    exact hstart.trans hwithin

/-- With no callbacks the loop takes the due entries off the queue, which in an ordered queue are its front. -/
theorem runLoop_of_no_callbacks {target : Nat} {s : State} (hf : s.faulted = none) (hcb : s.callbacks = [])
    (ho : s.queue.Pairwise fun x y => y.before x = false) :
    runLoop target s.dispatchBound s =
      .next { s with time := BitVec.ofNat 64 target, queue := s.queue.filter fun x => decide (target < x.time.toNat) } := by
  cases s with | mk params chips time queue nextSeq faulted chipSel input callbacks outputs =>
  dsimp only at hf hcb ho ⊢
  subst hcb hf
  induction queue generalizing time with
  | nil => exact runLoop_of_nothingDue (State.nothingDue_of_empty rfl) _
  | cons x rest ih =>
    by_cases hx : target < x.time.toNat
    · have hidle : State.NothingDue target ⟨params, chips, time, x :: rest, nextSeq, none, chipSel, input, [], outputs⟩ :=
        State.nothingDue_of_head rfl hx
      rw [runLoop_of_nothingDue hidle, List.filter_eq_self.2 fun y hy => decide_eq_true (hidle.all_later ho y hy)]
    · rw [runLoop_of_due rfl (Nat.le_of_not_lt hx) (State.dispatchEntry_of_none (by simp)),
        List.filter_cons_of_neg (by simpa using hx)]
      exact ih x.time ho.of_cons

/-- Settles O57: the two faults, then the loop: what it reaches, its first dispatch, and its two simple ends. -/
theorem runUntilReachesTarget : Obligations.RunUntilReachesTarget := by
  intro target s hf
  rw [exec_runUntil_of_running hf]
  refine ⟨State.runUntil_of_overflow, State.runUntil_of_past, fun hlt hle hq hreach => ?reaches,
    fun x rest t hlt hle hq hx hd => ?dispatches, fun hlt hle hidle => ?idle, fun hlt hle hq hcb => ?noCallbacks⟩
  case reaches =>
    rw [State.runUntil_of_ahead hlt hle]
    obtain ⟨t, ht, -⟩ := runLoop_total (target := target) (n := s.dispatchBound) hreach
    exact ⟨t, ht, runLoop_reaches hlt hle hq ht⟩
  case dispatches =>
    rw [exec_dispatch_of_running hf] at hd
    obtain ⟨u, hu, rfl⟩ := State.dispatch_next_cases hq hd
    rw [State.runUntil_of_ahead hlt hle, runLoop_of_due hq hx hu]
    unfold State.dispatched
    cases hfault : u.faulted with
    | some f => simp [hfault]
    | none =>
      have hle' : u.time.toNat ≤ target := dispatchEntry_time hu ▸ hx
      rw [if_pos rfl, if_pos (by exact hfault)]
      exact ((exec_runUntil_of_running (s := u) hfault target).trans (State.runUntil_of_ahead hlt hle')).symm
  case idle => rw [State.runUntil_of_ahead hlt hle, runLoop_of_nothingDue hidle]
  case noCallbacks => rw [State.runUntil_of_ahead hlt hle, runLoop_of_no_callbacks hf hcb hq.ordered]

end Sys2Proof.Machine
end

section
/-! PROOFS. Port transactions (spec/45_chip_io.md): what a step does with each input (rule R300), the fault state (rule R350), what a
transaction leaves alone (rule R86), and each register write and read on a ready block (rules R140-R146, R203-R205, R240-R243,
R320-R330). -/

namespace Sys2Proof.Machine

/-! ### An instruction of a port word is its port transaction (rule R300) -/

theorem exec_instr (op : PortOp) (s : State) : exec op.instr s = runPort op s := by
  cases op with
  | busWrite off d => fin_cases off <;> rfl
  | busRead off => fin_cases off <;> rfl
  | clock => rfl
  | reset => rfl

theorem exec_of_port? {i : Instr} {op : PortOp} (h : i.port? = some op) (s : State) : exec i s = runPort op s := by
  rw [← instr_of_port? h, exec_instr]

theorem exec_of_decode {w : PortWord} {i : Instr} (h : decode w = some i) (c : ChipIndex) (s : State) :
    exec i (s.select c) = portWord c w s := by
  obtain ⟨op, hop, rfl⟩ := decode_eq_some_iff.1 h
  simp only [portWord, hop, exec_instr]

theorem portWord_of_illegal {w : PortWord} (h : decode w = none) (c : ChipIndex) (s : State) : portWord c w s = illegalWord w s := by
  simp only [portWord, decode_eq_none_iff.1 h]

/-- The instructions with a row of bits are those with a port transaction. -/
theorem port?_of_row {i : Instr} (h : i.row.isSome = true) : ∃ op, i.port? = some op := by
  cases i with
  | schedule | cancel | dispatch | runUntil | getTime | catchup => cases h
  | _ => exact ⟨_, rfl⟩

/-! ### A step on each kind of input -/

section
variable {s : State} {rest : List Input}

theorem step_of_word {c : ChipIndex} {w : PortWord} {i : Instr} (hin : s.input = .port c w :: rest) (hw : decode w = some i) :
    step s = exec i (State.select { s with input := rest } c) := by
  simp only [step, hin, hw]

theorem step_of_call {call : SchedCall} (hin : s.input = .call call :: rest) : step s = exec call.instr { s with input := rest } := by
  simp only [step, hin]

theorem step_of_host {ev : HostEvent} (hin : s.input = .host ev :: rest) :
    step s = .next (State.host ev { s with input := rest }) := by
  simp only [step, hin]

theorem step_of_idle (hin : s.input = []) : step s = .next s := by
  simp only [step, hin]

end

/-- The chip with an input driven, field by field. -/
def Chip.driven (inp : HostInput) (c : Chip) : Chip :=
  match inp with
  | .potX _ x => { c with potX := x }
  | .potY _ y => { c with potY := y }
  | .mute _ v on => { c with mute1 := if v = 0 then on else c.mute1, mute2 := if v = 1 then on else c.mute2,
                             mute3 := if v = 2 then on else c.mute3 }
  | .extIn _ x => { c with extIn := x }

theorem Chip.setMute_eq (k : Fin 3) (on : Bool) (c : Chip) :
    c.setMute (VoiceId.ofIndex k) on = { c with
      mute1 := if k = 0 then on else c.mute1, mute2 := if k = 1 then on else c.mute2, mute3 := if k = 2 then on else c.mute3 } := by
  fin_cases k <;> rfl

theorem State.driveInput_eq (inp : HostInput) (s : State) : s.driveInput inp = s.drive inp.chip (Chip.driven inp) := by
  cases inp with
  | mute c k on => exact congrArg (fun f => s.drive c f) (funext (Chip.setMute_eq k on))
  | _ => rfl

theorem callbackWellFormed_iff (n : Nat) (events : List EventId) (e : EventId) (ops : List CallOp) :
    callbackWellFormed n events (e, ops) = true ↔ e ∈ events ∧ ∀ op ∈ ops, op.wellFormed n events = true := by
  rw [callbackWellFormed, Bool.and_eq_true, decide_eq_true_eq, List.all_eq_true]

/-- Settles O7: each kind of input by the case of `step` on it. -/
theorem stepRunsNextInput : Obligations.StepRunsNextInput := by
  refine ⟨fun s c w rest i hin hw => step_of_word hin hw, fun s call rest hin => step_of_call hin,
    fun c w i s hw => (exec_of_decode hw c s).symm,
    fun c w s hw hf => (portWord_of_illegal hw c s).trans (illegalWord_of_running hf w),
    fun s inp rest c hin hc => ?present, fun s inp rest hin hc => ?absent, fun s e ops rest hin => ?supply,
    fun s a rest hin => step_of_host hin, fun s hin => step_of_idle hin⟩
  case present =>
    rw [step_of_host hin, State.host, State.driveInput_eq, State.drive_of_present (s := { s with input := rest }) hc]
    cases inp <;> rfl
  case absent =>
    rw [step_of_host hin, State.host, State.driveInput_eq, State.drive_of_absent (s := { s with input := rest }) hc]
  case supply =>
    rw [step_of_host hin, State.host, State.supply_eq]
    simp only [callbackWellFormed_iff]

/-! ### The fault state (rules R350, R362) -/

/-- Every port transaction is an operation that runs on the selected chip. -/
theorem runPort_eq_operation (op : PortOp) :
    ∃ run : State → Chip → State, ∀ s, runPort op s = operation s fun s => onSelected s (run s) := by
  cases op with
  | busWrite off d => exact ⟨fun s c => s.setChip s.chipSel (c.busWrite s.params off (registerAt off) d), fun _ => rfl⟩
  | busRead off =>
    exact ⟨fun s c => (s.setChip s.chipSel (readAt off c).1).emit (.byte s.chipSel (readAt off c).2), fun _ => rfl⟩
  | clock => exact ⟨fun s _ => s.clockChip s.chipSel, fun _ => rfl⟩
  | reset => exact ⟨fun s c => s.setChip s.chipSel (c.chipReset s.params), fun _ => rfl⟩

theorem runPort_of_faulted {s : State} {f : BlockFault} (h : s.faulted = some f) (op : PortOp) :
    runPort op s = .next (s.emit .faultReturned) := by
  obtain ⟨run, hrun⟩ := runPort_eq_operation op
  rw [hrun, operation_of_faulted h]

theorem exec_of_faulted {s : State} {f : BlockFault} (h : s.faulted = some f) (i : Instr) :
    exec i s = .next (s.emit .faultReturned) := by
  cases hp : i.port? with
  | some op => rw [exec_of_port? hp, runPort_of_faulted h]
  | none =>
    cases i with
    | schedule | cancel | dispatch | runUntil | catchup => exact operation_of_faulted h _
    | getTime => exact operation_of_faulted h fun s => .next s.getTime
    | _ => cases hp

/-- Of the host's events only an accepted power-on leaves the fault state. -/
theorem State.host_faulted {s : State} {f : BlockFault} (h : s.faulted = some f) (ev : HostEvent) :
    (s.host ev).faulted = some f ∨ ∃ a, ev = .powerOn a ∧ powerOnRefusal a = none ∧ (s.host ev).faulted = none := by
  cases ev with
  | drive inp => exact .inl ((State.driveInput_faulted s inp).trans h)
  | supplyCallback e ops => exact .inl ((State.supply_faulted s e ops).trans h)
  | powerOn a =>
    rw [State.host]
    cases ha : powerOnRefusal a with
    | none => exact .inr ⟨a, rfl, ha, by rw [State.powerOn_of_accepted ha]; rfl⟩
    | some name => exact .inl (by rw [State.powerOn_of_refused ha]; exact h)

/-- Settles O8: every operation checks `FAULTED` first, and the host's events do not touch it. -/
theorem faultStateAbsorbs : Obligations.FaultStateAbsorbs := by
  refine ⟨fun i s f hf => exec_of_faulted hf i, fun s f c w rest hf hin hw => ?illegal, fun s f ev rest hf hin =>
    ⟨_, step_of_host hin, State.host_faulted (s := { s with input := rest }) hf ev⟩⟩
  case illegal => exact (step_of_illegal hin hw).trans (operation_of_faulted (s := { s with input := rest }) hf _)

/-! ### What a port transaction leaves alone (rules R86, R351, R365) -/

theorem runPort_of_absent {s : State} (hf : s.faulted = none) (h : s.chips.length ≤ s.chipSel) (op : PortOp) :
    runPort op s = .fault (.noSuchChip s.chipSel) := by
  obtain ⟨run, hrun⟩ := runPort_eq_operation op
  rw [hrun, operation_of_running hf, onSelected, State.chip?, List.getElem?_eq_none h]

/-- Settles O9: a port transaction stores one chip and puts out at most a byte, a sample or `FAULT`. -/
theorem portTransactionIsolatesChips : Obligations.PortTransactionIsolatesChips := by
  refine ⟨fun i s t hrow h => ?_, fun i s hrow hf hsel => ?_⟩ <;> obtain ⟨op, hop⟩ := port?_of_row hrow
  · rw [exec_of_port? hop] at h
    obtain ⟨cs, os, rfl, -, hothers⟩ := runPort_changes h
    exact ⟨hothers, rfl, rfl, rfl, rfl, rfl, rfl, rfl, rfl⟩
  · rw [exec_of_port? hop, runPort_of_absent hf hsel]

/-! ### Register writes of the voices -/

/-- Settles O14: each of the four registers is a `mapWave` of its voice at an offset that is not CONTROL. -/
theorem frequencyAndPulseWidthWrites : Obligations.FrequencyAndPulseWidthWrites := by
  intro v d s c hr
  cases v <;>
  exact ⟨⟨_, portWrite_of_ready hr _ _ _, voiceWritten_mapWave (by decide) _ _ Wave.writeFreqLo _ _⟩,
    ⟨_, portWrite_of_ready hr _ _ _, voiceWritten_mapWave (by decide) _ _ Wave.writeFreqHi _ _⟩,
    ⟨_, portWrite_of_ready hr _ _ _, voiceWritten_mapWave (by decide) _ _ Wave.writePwLo _ _⟩,
    ⟨_, portWrite_of_ready hr _ _ _, voiceWritten_mapWave (by decide) _ _ Wave.writePwHi _ _⟩⟩

/-- Settles O19: the two registers are a `mapEnv` of their voice, and take the rate of the current state. -/
theorem envelopeRegisterWrites : Obligations.EnvelopeRegisterWrites := by
  intro v d s c hr
  rw [← Env.writeAd_eq, ← Env.writeSr_eq]
  cases v <;>
  exact ⟨⟨_, portWrite_of_ready hr _ _ _, voiceWritten_mapEnv (by decide) _ _ Env.writeAd _ _⟩,
    ⟨_, portWrite_of_ready hr _ _ _, voiceWritten_mapEnv (by decide) _ _ Env.writeSr _ _⟩⟩

/-- A CONTROL write of a ready block: the two halves of its voice take the delivered byte, and nothing else but the bus changes. -/
theorem exec_controlOf {s : State} {c : Chip} (hr : Ready s c) (v : VoiceId) (d : Byte) :
    ∃ c', exec (controlOf v d) s = .next (withSelected s c') ∧ BusLoaded d c c' ∧ c'.filter = c.filter ∧
      (∀ u, u ≠ v → c'.voice u = c.voice u) ∧
      c'.voice v =
        { wave := (c.voice v).wave.writeControl (srrCycles s.params c.model) (floatTtl s.params c.model) (delivered c v d)
          env := (c.voice v).env.writeControl (delivered c v d) } := by
  cases v <;> exact ⟨_, portWrite_of_ready hr _ _ _, control_busWrite (by decide) _ _ _⟩

theorem floatTtl_eq (p : Params) (m : ChipModel) : floatTtl p m = if m = .mos6581 then p.floatTtl6581 else p.floatTtl8580 := by
  cases m <;> rfl

theorem srrCycles_eq (p : Params) (m : ChipModel) :
    srrCycles p m = if m = .mos6581 then p.srrCycles6581 else p.srrCycles8580 := by
  cases m <;> rfl

theorem controlSelected_eq_select (p : Params) (m : ChipModel) (b : Byte) (old : Wave) :
    controlSelected p m b old = old.select (floatTtl p m) b := by
  rw [Wave.select_eq, floatTtl_eq]
  simp only [controlSelected, ringMask, Bool.and_eq_true, Bool.not_eq_true']
  rfl

/-- Settles O15: with the test bit as it was, the waveform half is the selection. -/
theorem controlWriteSelectsWaveform : Obligations.ControlWriteSelectsWaveform := by
  intro v d s c hr hsame
  obtain ⟨c', hexec, hbus, hfilter, hothers, hvoice⟩ := exec_controlOf hr v d
  refine ⟨c', hexec, hbus, hfilter, hothers, ?_⟩
  rw [hvoice, controlSelected_eq_select]
  exact Wave.writeControl_of_same_test hsame _ _

/-- Write-back looks at the noise and the output, which the selection leaves alone. -/
theorem Wave.testRise_select (srr ttl : BitVec 32) (b : Byte) (old : Wave) :
    (old.select ttl b).testRise srr old.waveform =
      { old.select ttl b with
        acc := 0
        shiftPipeline := 0
        srrCount := srr
        pulseOutput := 0xFFF#12
        sr := if noiseCombined old.waveform then old.sr &&& wbMask old.waveformOutput else old.sr
        noiseOutput := if noiseCombined old.waveform then old.noiseOutput &&& old.waveformOutput else old.noiseOutput } := by
  rw [Wave.select_eq, Wave.testRise]
  dsimp only
  split <;> rfl

/-- Settles O16: a rise of the test bit after the selection. -/
theorem testRiseHoldsAccumulator : Obligations.TestRiseHoldsAccumulator := by
  intro v d s c hr htest hd
  obtain ⟨c', hexec, hbus, hfilter, hothers, hvoice⟩ := exec_controlOf hr v d
  refine ⟨c', hexec, hbus, hfilter, hothers, ?_⟩
  dsimp only
  rw [hvoice, controlSelected_eq_select, ← srrCycles_eq]
  simp only [← noiseCombined_iff]
  exact (Wave.writeControl_of_rise htest hd _ _).trans (Wave.testRise_select ..)

/-- Settles O17: a fall of the test bit after the selection, the shift bit by bit. -/
theorem testFallShiftsNoise : Obligations.TestFallShiftsNoise := by
  intro v d s c hr htest hd
  obtain ⟨c', hexec, hbus, hfilter, hothers, hvoice⟩ := exec_controlOf hr v d
  have hwave : (c'.voice v).wave = ((c.voice v).wave.select (floatTtl s.params c.model) (delivered c v d)).testFall := by
    rw [hvoice]; exact Wave.writeControl_of_fall htest hd _ _
  have hsr : (c'.voice v).wave.sr = shiftIn (!(c.voice v).wave.sr.getLsbD 17) (c.voice v).wave.sr := by
    rw [hwave, Wave.testFall_eq_shiftIn, Wave.select_eq]
  refine ⟨c', hexec, hbus, hfilter, hothers, ?_⟩
  dsimp only
  rw [hsr, controlSelected_eq_select, hwave, Wave.testFall_eq_shiftIn, Wave.select_eq]
  exact ⟨rfl, shiftIn_bit0 _ _, shiftIn_bit23 _ _, fun k h1 h22 => shiftIn_bit _ _ h1 h22⟩

/-- The fields that a CONTROL write always takes from its byte. -/
theorem Wave.writeControl_fields (v : Wave) (srr ttl : BitVec 32) (b : Byte) :
    (v.writeControl srr ttl b).waveform = hiNibble b ∧ (v.writeControl srr ttl b).test = b.getLsbD 3 ∧
    (v.writeControl srr ttl b).ring = b.getLsbD 2 ∧ (v.writeControl srr ttl b).sync = b.getLsbD 1 := by
  by_cases hsame : b.getLsbD 3 = v.test
  · rw [Wave.writeControl_of_same_test hsame, Wave.select_eq]
    exact ⟨rfl, rfl, rfl, rfl⟩
  · cases hb : b.getLsbD 3 with
    | true =>
      rw [Wave.writeControl_of_rise (by rw [hb] at hsame; simpa using hsame) hb, Wave.testRise_select, Wave.select_eq]
      exact ⟨rfl, hb, rfl, rfl⟩
    | false =>
      rw [Wave.writeControl_of_fall (by rw [hb] at hsame; simpa using hsame) hb, Wave.testFall_eq_shiftIn, Wave.select_eq]
      exact ⟨rfl, hb, rfl, rfl⟩

theorem Env.writeControl_of_same_gate {e : Env} {d : Byte} (h : d.getLsbD 0 = e.gate) : e.writeControl d = e := if_pos h

theorem Env.writeControl_of_gate_on {e : Env} {d : Byte} (h : d.getLsbD 0 ≠ e.gate) (hd : d.getLsbD 0 = true) :
    e.writeControl d = e.gateOn := (if_neg h).trans (if_pos hd)

theorem Env.writeControl_of_gate_off {e : Env} {d : Byte} (h : d.getLsbD 0 ≠ e.gate) (hd : d.getLsbD 0 = false) :
    e.writeControl d = e.gateOff := (if_neg h).trans (if_neg (Bool.eq_false_iff.1 hd))

theorem Env.writeControl_gate (e : Env) (d : Byte) : (e.writeControl d).gate = d.getLsbD 0 := by
  by_cases h : d.getLsbD 0 = e.gate
  · rw [Env.writeControl_of_same_gate h, h]
  · cases hd : d.getLsbD 0 with
    | true => rw [Env.writeControl_of_gate_on h hd, Env.gateOn_eq]
    | false => rw [Env.writeControl_of_gate_off h hd, Env.gateOff]

/-- Settles O20: the three cases of the gate half. -/
theorem gateWriteStartsPhase : Obligations.GateWriteStartsPhase := by
  intro v d s c hr
  obtain ⟨c', hexec, hbus, hfilter, hothers, hvoice⟩ := exec_controlOf hr v d
  refine ⟨c', hexec, hbus, hfilter, hothers, ?_⟩
  rw [hvoice]
  exact ⟨Env.writeControl_of_same_gate, fun h hg => (Env.writeControl_of_gate_on h hg).trans (Env.gateOn_eq _),
    fun h hg => Env.writeControl_of_gate_off h hg⟩

theorem Chip.muted_setMute_self (c : Chip) (v : VoiceId) (on : Bool) : (c.setMute v on).muted v = on := by
  cases v <;> rfl

theorem Chip.muted_setMute_of_ne (c : Chip) (on : Bool) {u v : VoiceId} (h : u ≠ v) : (c.setMute v on).muted u = c.muted u := by
  cases u <;> cases v <;> trivial

theorem Chip.setMute_frame (c : Chip) (v : VoiceId) (on : Bool) :
    c.setMute v on =
      { c with mute1 := (c.setMute v on).mute1, mute2 := (c.setMute v on).mute2, mute3 := (c.setMute v on).mute3 } := by
  cases v <;> rfl

/-- Settles O18: the delivered byte is 0, whose every bit is; MUTE is a host input of its own. -/
theorem mutedControlDeliversZero : Obligations.MutedControlDeliversZero := by
  refine ⟨fun v d s c hr hmuted => ?_, fun s i c k on rest hin hc =>
    ⟨c.setMute (VoiceId.ofIndex k) on, ?_, c.setMute_frame _ on, c.muted_setMute_self _ on,
      fun v hv => c.muted_setMute_of_ne on hv⟩⟩
  · obtain ⟨c', hexec, hbus, -, -, hvoice⟩ := exec_controlOf hr v d
    have zero : delivered c v d = 0 := if_pos hmuted
    obtain ⟨hw, ht, hring, hsync⟩ :=
      (c.voice v).wave.writeControl_fields (srrCycles s.params c.model) (floatTtl s.params c.model) 0
    rw [zero] at hvoice
    refine ⟨c', hexec, hbus.value, ?_⟩
    rw [hvoice]
    exact ⟨hw, ht, hring, hsync, Env.writeControl_gate _ 0⟩
  · rw [step_of_host hin]
    exact congrArg _ (State.drive_of_present (s := { s with input := rest }) hc _)

/-! ### The other writes, and the reads -/

/-- Settles O21: each filter write is its rule on the filter at an offset that is not CONTROL. -/
theorem filterWriteSetsFields : Obligations.FilterWriteSetsFields := fun _ _ _ hr =>
  ⟨⟨_, portWrite_of_ready hr _ _ _, filter_busWrite (by decide) _ Filter.writeFcLo _ _⟩,
    ⟨_, portWrite_of_ready hr _ _ _, filter_busWrite (by decide) _ Filter.writeFcHi _ _⟩,
    ⟨_, portWrite_of_ready hr _ _ _, filter_busWrite (by decide) _ Filter.writeResFilt _ _⟩,
    ⟨_, portWrite_of_ready hr _ _ _, filter_busWrite (by decide) _ Filter.writeModeVol _ _⟩⟩

/-- Settles O22: the three `W_NONE` rows write at their offsets with no register rule. -/
theorem noneWriteLoadsBusOnly : Obligations.NoneWriteLoadsBusOnly := by
  intro i d s c hi hr
  cases i with
  | wNone19 | wNone1A | wNone1C => obtain rfl := hi; exact ⟨_, portWrite_of_ready hr _ _ _, none_busWrite _ _ _ _⟩
  | _ => exact hi.elim

/-- A read that leaves its chip as it is changes nothing but the outputs. -/
theorem portRead_of_latch {s : State} {c : Chip} (hr : Ready s c) {read : ReadRule} (h : (read c).1 = c) :
    portRead read s = .next { s with outputs := .byte s.chipSel (read c).2 :: s.outputs } := by
  rw [portRead_of_ready hr, h, withSelected_self hr.selected]
  rfl

/-- Settles O23: the four read registers are reads of a latch. -/
theorem registerReadsReturnLatches : Obligations.RegisterReadsReturnLatches := fun _ _ hr =>
  ⟨portRead_of_latch hr rfl, portRead_of_latch hr rfl, portRead_of_latch hr rfl, portRead_of_latch hr rfl⟩

theorem exec_of_busRead {i : Instr} (hi : IsBusRead i) (s : State) : exec i s = portRead readBus s := by
  cases i with
  | rBus00 | rBus10 | rBus18 | rBus1D | rBus1E => rfl
  | _ => exact hi.elim

/-- Settles O24: a read of the bus puts out the value before its own halving; an arithmetic shift by one is the floor of the half. -/
theorem busReadHalvesLife : Obligations.BusReadHalvesLife := by
  intro i s c hi hr
  rw [exec_of_busRead hi]
  exact ⟨c.halveBus, portRead_of_ready hr readBus, sameButBus_halveBus c,
    BitVec.toInt_sshiftRight.trans (Int.shiftRight_eq_div_pow _ 1), rfl⟩

/-! ### The chip reset (rules R381-R386) -/

/-- With no sync bit set there is no candidate, so the deadline is the one of no voice. -/
theorem Chip.syncDeadline_of_no_sync {c : Chip} (h : ∀ v, (c.voice v).wave.sync = false) : c.syncDeadline = 0xFFFFFFFF#32 := by
  have none : ∀ i, c.syncCandidate i = none := fun i => by simp [Chip.syncCandidate, h]
  simp [Chip.syncDeadline, none]

theorem Chip.chipReset_voice (p : Params) (c : Chip) (v : VoiceId) : (c.chipReset p).voice v = (c.voice v).chipReset := by
  cases v <;> rfl

/-- Settles O52: the chip reset field by field; no voice has its sync bit set after it. -/
theorem resetLeavesChip : Obligations.ResetLeavesChip := by
  intro s c hr
  have deadline : (c.chipReset s.params).nextVoiceSync = 0xFFFFFFFF#32 :=
    Chip.syncDeadline_of_no_sync fun v => by cases v <;> rfl
  refine ⟨c.chipReset s.params, portReset_of_ready hr, rfl, rfl, rfl, rfl, fun v => by cases v <;> rfl, rfl, rfl, rfl, rfl,
    deadline, rfl, fun v => ?_⟩
  rw [Chip.chipReset_voice]
  exact ⟨rfl, rfl⟩

end Sys2Proof.Machine
end

section
/-! PROOFS. The SID cycle (spec/45_chip_io.md): CLK (rule R311), the ageing of the bus value (rules R323, R332), hard sync and the
outputs before it (rules R162, R163, R402), the sync deadline (rule R165), and CATCHUP (rules R125-R127). -/

namespace Sys2Proof.Machine

/-! ### The bus value over cycles (rules R323, R332) -/

theorem Chip.ageBus_eq (c : Chip) :
    c.ageBus = { c with
      busTtl := if c.busTtl = 0 then 0 else c.busTtl - 1
      busValue := if c.busTtl = 1 then 0 else c.busValue } := by
  unfold Chip.ageBus
  split_ifs with h0 h1 h1
  · rw [h0] at h1; exact absurd h1 (by decide)
  · rw [← h0]
  · rw [h1]; rfl
  · rfl

/-- From a life of `BUS_TTL` the life after `n` cycles has gone down by `n`, and the value has held until it ran out. -/
theorem Chip.cycle_iterate_bus (p : Params) {c : Chip} (h : c.busTtl = busTtlOf c.model) (n : Nat) :
    let x := (fun y => (Chip.cycle p y).1)^[n] c
    x.busTtl.toNat = (busTtlOf c.model).toNat - n ∧
    x.busValue = if n < (busTtlOf c.model).toNat then c.busValue else 0x00#8 := by
  have hpos : 0 < (busTtlOf c.model).toNat := by cases c.model <;> decide
  induction n with
  | zero => exact ⟨by rw [← h]; rfl, (if_pos hpos).symm⟩
  | succ n ih =>
    obtain ⟨hcount, hvalue⟩ := ih
    rw [Function.iterate_succ_apply']
    generalize (fun y => (Chip.cycle p y).1)^[n] c = x at *
    dsimp only
    rw [Chip.cycle_busTtl, Chip.cycle_busValue, Chip.ageBus_eq]
    refine ⟨(countDown_toNat _).trans (by rw [hcount]; omega), ?_⟩
    dsimp only
    have last_iff : x.busTtl = 1 ↔ (busTtlOf c.model).toNat - n = 1 := by rw [← BitVec.toNat_inj, hcount]; rfl
    rw [hvalue]
    simp only [last_iff]
    grind

/-- Settles O26: the value's half of the countdown. -/
theorem busValueLife : Obligations.BusValueLife := fun p _ n h => (Chip.cycle_iterate_bus p h n).2

/-! ### CLK (rule R311) -/

/-- A voice's generator after a cycle is its stepped one but for the accumulator. -/
theorem Chip.cycle_wave (p : Params) (c : Chip) (v : VoiceId) :
    ((c.cycle p).1.voice v).wave = { c.stepped p v with acc := ((c.cycle p).1.voice v).wave.acc } := by
  rw [Chip.cycle_voice]
  dsimp only
  split <;> rfl

theorem Chip.cycle_env (p : Params) (c : Chip) (v : VoiceId) : ((c.cycle p).1.voice v).env = (c.voice v).env.clock := by
  rw [Chip.cycle_voice]

theorem Chip.cycle_waveformOutput (p : Params) (c : Chip) (v : VoiceId) :
    ((c.cycle p).1.voice v).wave.waveformOutput = (c.stepped p v).waveformOutput := by
  rw [Chip.cycle_wave]

/-- A cycle leaves the fields that register writes set as they were. -/
theorem Chip.cycle_wave_registers (p : Params) (c : Chip) (v : VoiceId) :
    let old := (c.voice v).wave
    let new := ((c.cycle p).1.voice v).wave
    new.freq = old.freq ∧ new.pw = old.pw ∧ new.waveform = old.waveform ∧ new.test = old.test ∧ new.ring = old.ring ∧
      new.sync = old.sync := by
  dsimp only
  rw [Chip.cycle_wave]
  simp [Chip.stepped]

theorem Chip.cycle_muted (p : Params) (c : Chip) (v : VoiceId) : (c.cycle p).1.muted v = c.muted v :=
  Chip.muted_of_mutes (by simp) (by simp) (by simp) v

theorem voiceOut_default {p : Params} (h : p.voiceOut = .default) (m : ChipModel) (w : BitVec 12) (e : BitVec 8) :
    voiceOut p m w e = (waveDac p m w - 2048) * envDac p m e := by
  rw [voiceOut, h]
  rfl

/-- Settles O25: the parts of the cycle, field by field. -/
theorem clkRunsOneCycle : Obligations.ClkRunsOneCycle := by
  intro s c hr
  dsimp only
  simp only [Chip.cycle_waveformOutput, Chip.cycle_env]
  obtain ⟨_, _, _, _, _, hfilter⟩ := Filter.clock_changes s.params c.model (c.voiceOut s.params .v1) (c.voiceOut s.params .v2)
    (c.voiceOut s.params .v3) c.extIn c.filter
  have registers : (c.cycle s.params).1.filter.fc = c.filter.fc ∧ (c.cycle s.params).1.filter.res = c.filter.res ∧
      (c.cycle s.params).1.filter.filt = c.filter.filt ∧ (c.cycle s.params).1.filter.mode = c.filter.mode ∧
      (c.cycle s.params).1.filter.vol = c.filter.vol := by
    rw [Chip.cycle_filter, Chip.filtered, hfilter]
    exact ⟨rfl, rfl, rfl, rfl, rfl⟩
  obtain ⟨hfc, hres, hfilt, hmode, hvol⟩ := registers
  refine ⟨?clk, Chip.cycle_filter _ c, Chip.cycle_ext _ c, fun hv v => voiceOut_default hv _ _ _, Chip.cycle_cycles _ c,
    Chip.cycle_model _ c, Chip.cycle_nextVoiceSync _ c, Chip.cycle_potX _ c, Chip.cycle_potY _ c, Chip.cycle_extIn _ c, ?ttl, ?value,
    hfc, hres, hfilt, hmode, hvol, fun v => ?voice⟩
  case clk =>
    have hclk : exec .clk s = portClock s := rfl
    rw [hclk, portClock_of_ready hr, Chip.cycle_sample]
    rfl
  case ttl => rw [Chip.cycle_busTtl, Chip.ageBus_eq]
  case value => rw [Chip.cycle_busValue, Chip.ageBus_eq]; rfl
  case voice =>
    obtain ⟨hfreq, hpw, hwaveform, htest, hring, hsync⟩ := c.cycle_wave_registers s.params v
    exact ⟨trivial, Env.clock_env3 _, c.cycle_muted _ v, hfreq, hpw, hwaveform, htest, hring, hsync, Env.clock_gate _,
      Env.clock_attack _, Env.clock_decay _, Env.clock_sustain _, Env.clock_release _⟩

/-! ### Hard sync (rules R162, R163, R402) -/

theorem Wave.clock_msbRising_iff (v : Wave) :
    v.clock.msbRising = true ↔ v.test = false ∧ v.acc.getLsbD 23 = false ∧ v.clock.acc.getLsbD 23 = true := by
  cases htest : v.test with
  | true => rw [Wave.clock_msbRising, htest]; simp
  | false => rw [Wave.clock_msbRising_of_running htest, bitRose_iff]; simp

theorem Chip.synced_iff (c : Chip) (v : VoiceId) :
    c.synced v = true ↔ (c.voice v.src).wave.clock.msbRising = true ∧ (c.voice v).wave.sync = true ∧
      ¬((c.voice v.src).wave.sync = true ∧ (c.voice v.src.src).wave.clock.msbRising = true) := by
  rw [Chip.synced, Bool.and_eq_true, Bool.and_eq_true, Bool.not_eq_true', ← Bool.not_eq_true, Bool.and_eq_true, and_assoc]

/-- Settles O27: a synced voice's accumulator is zeroed, any other's is the clock step's. -/
theorem cycleStepsAndSyncsAccumulators : Obligations.CycleStepsAndSyncsAccumulators := by
  intro p c v
  dsimp only
  simp only [← Wave.clock_acc, ← Wave.clock_msbRising_iff, ← Chip.synced_iff]
  rw [Chip.cycle_voice]
  refine ⟨fun h => by rw [if_pos h], fun h => ?_⟩
  rw [if_neg h, Chip.stepped, Wave.output_acc]

/-- Settles O28: hard sync comes last and touches the accumulator alone. -/
theorem cycleOutputPrecedesSync : Obligations.CycleOutputPrecedesSync := Chip.cycle_wave

/-! ### The low nibble of a combined waveform (rule R166) -/

/-- Two or more waveforms: a combined table, or noise with one other. -/
theorem combined_cases (w : BitVec 4) (h : w ∉ [0#4, 1#4, 2#4, 4#4, 8#4]) :
    waveSelect w ∈ [3#3, 5#3, 6#3, 7#3] ∨ w.getLsbD 3 = true := by
  revert w; decide

/-- With noise selected the gates pass the noise output, whose low nibble is grounded. -/
theorem Wave.Inv.gates_low_nibble {v : Wave} (h : v.Inv) (hnoise : v.waveform.getLsbD 3 = true) :
    v.gates.extractLsb' 0 4 = 0#4 := by
  have selected : v.noNoise = 0#12 := by rw [h.no_noise, noNoiseMask, if_pos hnoise]
  rw [Wave.gates, selected, h.noise_of_sr, BitVec.zero_or, BitVec.extractLsb'_and, noiseOf_low_nibble]
  exact BitVec.and_zero

/-- Settles O36: the base of a combined table or the gates of noise have a low nibble of 0. -/
theorem combinedOutputLowNibbleZero : Obligations.CombinedOutputLowNibbleZero := by
  intro p c v hinv hw
  have hclock := (hinv.voice v).wave.clock
  have selected : (c.voice v).wave.clock.waveform ≠ 0 := fun h0 => hw (by rw [← Wave.clock_waveform, h0]; decide)
  rw [Chip.cycle_waveformOutput, Chip.stepped, Wave.output_waveformOutput selected, BitVec.extractLsb'_and]
  rcases combined_cases _ hw with htable | hnoise
  · rw [Wave.clock_waveform, waveBase_combined htable, extractLsb'_low_nibble (waveTable_lowNibble ..), BitVec.zero_and]
  · rw [hclock.gates_low_nibble (by rwa [Wave.clock_waveform]), BitVec.and_zero]

/-! ### The sync deadline (rule R165) -/

/-- A fold of `min` is the least of its list and its start value. -/
theorem foldl_min_least (l : List Nat) (a : Nat) : l.foldl min a ∈ a :: l ∧ ∀ x ∈ a :: l, l.foldl min a ≤ x :=
  List.min?_eq_some_iff.1 List.min?_cons'

theorem VoiceId.mem_all (i : VoiceId) : i ∈ [VoiceId.v1, .v2, .v3] := by
  cases i <;> decide

/-- The voices with a candidate, and its number (rule R165). -/
theorem Chip.syncCandidate_eq_some_iff (c : Chip) (i : VoiceId) (n : Nat) :
    c.syncCandidate i = some n ↔
      ((c.voice i.dest).wave.sync = true ∧ (c.voice i).wave.freq ≠ 0 ∧ (c.voice i).wave.test = false) ∧
      (0x7FFFFF#24 - (c.voice i).wave.acc).toNat / (c.voice i).wave.freq.toNat + 1 = n := by
  unfold Chip.syncCandidate
  dsimp only
  simp only [Bool.and_eq_true, bne_iff_ne, Bool.not_eq_true', and_assoc, Option.ite_none_right_eq_some, Option.some_inj]

/-- The candidates of a chip, in the order of its voices. -/
def Chip.syncCandidates (c : Chip) : List Nat := [VoiceId.v1, .v2, .v3].filterMap c.syncCandidate

theorem Chip.mem_syncCandidates {c : Chip} {n : Nat} : n ∈ c.syncCandidates ↔ ∃ i, c.syncCandidate i = some n := by
  rw [Chip.syncCandidates, List.mem_filterMap]
  exact ⟨fun ⟨i, _, h⟩ => ⟨i, h⟩, fun ⟨i, h⟩ => ⟨i, i.mem_all, h⟩⟩

theorem Chip.syncDeadline_toNat (c : Chip) : c.syncDeadline.toNat = c.syncCandidates.foldl min 0xFFFFFFFF := by
  have small : c.syncCandidates.foldl min 0xFFFFFFFF ≤ 0xFFFFFFFF := (foldl_min_least _ _).2 _ (List.mem_cons_self ..)
  exact (BitVec.toNat_ofNat ..).trans (Nat.mod_eq_of_lt (Nat.lt_of_le_of_lt small (by decide)))

/-- A candidate is at most the accumulator's span, far below the deadline of no voice. -/
theorem Chip.syncCandidates_lt {c : Chip} {n : Nat} (h : n ∈ c.syncCandidates) : n < 0xFFFFFFFF := by
  obtain ⟨i, hi⟩ := Chip.mem_syncCandidates.1 h
  obtain ⟨-, rfl⟩ := (c.syncCandidate_eq_some_iff i n).1 hi
  have span := (0x7FFFFF#24 - (c.voice i).wave.acc).isLt
  have div_le := Nat.div_le_self (0x7FFFFF#24 - (c.voice i).wave.acc).toNat (c.voice i).wave.freq.toNat
  omega

/-- Settles O40: the fold takes the least candidate, which is below its start value. -/
theorem syncDeadlineIsLeast : Obligations.SyncDeadlineIsLeast := by
  intro c
  dsimp only
  refine ⟨fun i hi => ?least, fun ⟨i, hi⟩ => ?attained, fun hnone => ?noVoice⟩
  case least =>
    rw [Chip.syncDeadline_toNat]
    exact (foldl_min_least _ _).2 _ <| List.mem_cons_of_mem _ <|
      Chip.mem_syncCandidates.2 ⟨i, (c.syncCandidate_eq_some_iff i _).2 ⟨hi, rfl⟩⟩
  case attained =>
    have cand_mem := Chip.mem_syncCandidates.2 ⟨i, (c.syncCandidate_eq_some_iff i _).2 ⟨hi, rfl⟩⟩
    rw [Chip.syncDeadline_toNat]
    obtain ⟨attained, least⟩ := foldl_min_least c.syncCandidates 0xFFFFFFFF
    rcases List.mem_cons.1 attained with hstart | hmem
    · have below := least _ (List.mem_cons_of_mem _ cand_mem)
      have := Chip.syncCandidates_lt cand_mem
      omega
    · obtain ⟨j, hj⟩ := Chip.mem_syncCandidates.1 hmem
      obtain ⟨hcounts, hcand⟩ := (c.syncCandidate_eq_some_iff j _).1 hj
      exact ⟨j, hcounts, hcand.symm⟩
  case noVoice =>
    have no_candidate : c.syncCandidates = [] := List.eq_nil_iff_forall_not_mem.2 fun n hn => by
      obtain ⟨i, hi⟩ := Chip.mem_syncCandidates.1 hn
      exact hnone ⟨i, ((c.syncCandidate_eq_some_iff i n).1 hi).1⟩
    refine BitVec.eq_of_toNat_eq ?_
    rw [Chip.syncDeadline_toNat, no_candidate]
    rfl

/-! ### CATCHUP (rules R125-R127) -/

/-- A chip after `n` cycles. -/
def Chip.after (p : Params) (x : Chip) (n : Nat) : Chip := (fun y => (Chip.cycle p y).1)^[n] x

theorem Chip.after_succ (p : Params) (x : Chip) (n : Nat) : x.after p (n + 1) = ((x.after p n).cycle p).1 :=
  Function.iterate_succ_apply' ..

theorem Chip.after_cycles (p : Params) (x : Chip) (n : Nat) : (x.after p n).cycles = x.cycles + BitVec.ofNat 64 n := by
  induction n with
  | zero => exact (BitVec.add_zero _).symm
  | succ n ih => rw [Chip.after_succ, Chip.cycle_cycles, ih, BitVec.ofNat_add, BitVec.add_assoc]; rfl

theorem State.clockChipTimes_eq_iterate (i : ChipIndex) (n : Nat) (s : State) :
    s.clockChipTimes i n = (fun s => s.clockChip i)^[n] s := by
  induction n generalizing s with
  | zero => rfl
  | succ n ih => rw [State.clockChipTimes, ih, Function.iterate_succ_apply]

/-- The samples of `n` cycles of chip `i`, newest first, as the outputs are kept. -/
def samples (p : Params) (i : ChipIndex) (x : Chip) (n : Nat) : List Output :=
  (List.range n).reverse.map fun k => Output.sample i ((x.after p k).cycle p).2

theorem samples_succ (p : Params) (i : ChipIndex) (x : Chip) (n : Nat) :
    samples p i x (n + 1) = .sample i ((x.after p n).cycle p).2 :: samples p i x n := by
  rw [samples, List.range_succ, List.reverse_append]
  rfl

theorem State.clockChipTimes_of_present {s : State} {i : ChipIndex} {x : Chip} (h : s.chips[i]? = some x) (n : Nat) :
    s.clockChipTimes i n =
      { s with chips := s.chips.set i (x.after s.params n), outputs := samples s.params i x n ++ s.outputs } := by
  have hlt : i < s.chips.length := (List.getElem?_eq_some_iff.1 h).1
  rw [State.clockChipTimes_eq_iterate]
  induction n with
  | zero =>
    have unchanged : s.chips.set i x = s.chips := by
      obtain ⟨_, rfl⟩ := List.getElem?_eq_some_iff.1 h
      exact List.set_getElem_self ..
    exact congrArg (fun cs => { s with chips := cs }) unchanged.symm
  | succ n ih =>
    rw [Function.iterate_succ_apply', ih, clockChip_of_present (List.getElem?_set_self hlt), Chip.after_succ, samples_succ]
    simp only [State.setChip, State.emit, List.set_set, List.cons_append]

theorem State.catchup_of_present {s : State} {c : ChipIndex} {x : Chip} (h : s.chips[c]? = some x) :
    s.catchup c = .next (s.clockChipTimes c (cyclesDue s.time - x.cycles.toNat)) := by
  rw [State.catchup, State.chip?, h]

theorem State.catchup_of_absent {s : State} {c : ChipIndex} (h : s.chips.length ≤ c) : s.catchup c = .fault (.noSuchChip c) := by
  rw [State.catchup, State.chip?, List.getElem?_eq_none h]

theorem exec_catchup_of_running {s : State} (hf : s.faulted = none) (c : ChipIndex) : exec (.catchup c) s = s.catchup c :=
  operation_of_running hf _

/-- Catching up to `due` leaves the larger of the two counts; neither is past 64 bits. -/
theorem Chip.after_due_cycles (p : Params) (x : Chip) {due : Nat} (h : due < 2 ^ 64) :
    (x.after p (due - x.cycles.toNat)).cycles.toNat = max due x.cycles.toNat := by
  have := x.cycles.isLt
  rw [Chip.after_cycles, BitVec.toNat_add, BitVec.toNat_ofNat]
  omega

/-- Settles O59: the cycles still due, each with its sample, and the count they reach. -/
theorem catchupRunsDueCycles : Obligations.CatchupRunsDueCycles := by
  refine ⟨fun c x s hf hc => ⟨?_, Chip.after_due_cycles s.params x ?_⟩, fun c s hf hc =>
    (exec_catchup_of_running hf c).trans (State.catchup_of_absent hc)⟩
  · rw [exec_catchup_of_running hf, State.catchup_of_present hc, State.clockChipTimes_of_present hc]
    rfl
  · have := s.time.isLt
    omega

/-- What a CATCHUP of a block that is not faulted has done: its chip's due cycles, and nothing else but the outputs. -/
theorem exec_catchup_next {c : ChipIndex} {s t : State} (hf : s.faulted = none) (h : exec (.catchup c) s = .next t) :
    ∃ x os, s.chips[c]? = some x ∧
      t = { s with chips := s.chips.set c (x.after s.params (cyclesDue s.time - x.cycles.toNat)), outputs := os } := by
  rw [exec_catchup_of_running hf] at h
  cases hc : s.chips[c]? with
  | none => rw [State.catchup_of_absent (List.getElem?_eq_none_iff.1 hc)] at h; cases h
  | some x =>
    rw [State.catchup_of_present hc, State.clockChipTimes_of_present hc] at h
    injection h with h
    exact ⟨x, _, rfl, h.symm⟩

theorem exec_next_of_faulted {i : Instr} {s t : State} {f : BlockFault} (hf : s.faulted = some f) (h : exec i s = .next t) :
    t = s.emit .faultReturned :=
  Host.Outcome.next.inj (h.symm.trans (exec_of_faulted hf i))

/-- CATCHUP of two different chips, in either order: each stores its own chip, formed from that chip, the parameters and the time. -/
theorem exec_catchup_comm {a b : ChipIndex} (hne : a ≠ b) {s ta tab tb tba : State} (hf : s.faulted = none)
    (ha : exec (.catchup a) s = .next ta) (hab : exec (.catchup b) ta = .next tab)
    (hb : exec (.catchup b) s = .next tb) (hba : exec (.catchup a) tb = .next tba) : tab.chips = tba.chips := by
  obtain ⟨x, _, hx, rfl⟩ := exec_catchup_next hf ha
  obtain ⟨y, _, hy, rfl⟩ := exec_catchup_next hf hb
  obtain ⟨y', _, hy', rfl⟩ := exec_catchup_next (by exact hf) hab
  obtain ⟨x', _, hx', rfl⟩ := exec_catchup_next (by exact hf) hba
  obtain rfl : y = y' := Option.some.inj (hy.symm.trans ((List.getElem?_set_ne hne).symm.trans hy'))
  obtain rfl : x = x' := Option.some.inj (hx.symm.trans ((List.getElem?_set_ne hne.symm).symm.trans hx'))
  exact List.set_comm _ _ hne

/-- Settles O60: a CATCHUP stores one chip; in the fault state, or for one chip twice, there is nothing to compare. -/
theorem catchupOrderIrrelevant : Obligations.CatchupOrderIrrelevant := by
  refine ⟨fun c s t k h hk => ?others, fun a b s ta tab tb tba ha hab hb hba => ?order⟩ <;> cases hf : s.faulted
  case others.some f => rw [exec_next_of_faulted hf h]; rfl
  case others.none =>
    obtain ⟨x, _, -, rfl⟩ := exec_catchup_next hf h
    exact List.getElem?_set_ne (Ne.symm hk)
  case order.some f =>
    obtain rfl := exec_next_of_faulted hf ha
    obtain rfl := exec_next_of_faulted hf hb
    obtain rfl := exec_next_of_faulted (by exact hf) hab
    obtain rfl := exec_next_of_faulted (by exact hf) hba
    rfl
  case order.none =>
    rcases eq_or_ne a b with rfl | hne
    · obtain rfl := Host.Outcome.next.inj (ha.symm.trans hb)
      rw [Host.Outcome.next.inj (hab.symm.trans hba)]
    · exact exec_catchup_comm hne hf ha hab hb hba

end Sys2Proof.Machine
end

section
/-! PROOFS. The invariant of one chip under everything that reaches it: the filter step (rules R251-R259), the SID cycle, every bus write
and read, the chip reset and the host inputs; and the lock-up of a noise LFSR (rule R167). -/

namespace Sys2Proof.Machine

/-! ### The filter (rule R259) -/

theorem Filter.clock_inv (p : Params) (m : ChipModel) (f : Filter) (o1 o2 o3 xe : Int) : (f.clock p m o1 o2 o3 xe).1.Inv :=
  ⟨signed16_summer .., signed16_integ .., signed16_integ ..⟩

theorem Routed.add_eq (r : Routed) (b : Bool) (x : Int) :
    r.add b x =
      { vi := r.vi + if b = true then x else 0
        nsum := r.nsum + if b = true then 1 else 0
        vo := r.vo + if (!b) = true then x else 0
        nmix := r.nmix + if (!b) = true then 1 else 0 } := by
  cases b <;> simp [Routed.add, Routed.toFilter, Routed.toMixer]

/-- Voice 3, which 3OFF removes from the direct path. -/
theorem Routed.add_voice3_eq (r : Routed) (b off : Bool) (x : Int) :
    (if b = true then r.toFilter x else if off = true then r else r.toMixer x) =
      { vi := r.vi + if b = true then x else 0
        nsum := r.nsum + if b = true then 1 else 0
        vo := r.vo + if (!b && !off) = true then x else 0
        nmix := r.nmix + if (!b && !off) = true then 1 else 0 } := by
  cases b <;> cases off <;> simp [Routed.toFilter, Routed.toMixer]

/-- Settles O47: the routing adds each input to one side, or to none. -/
theorem routingSums : Obligations.RoutingSums := by
  intro f x1 x2 x3 xe
  simp only [Filter.route, Routed.add_eq, Routed.add_voice3_eq, Int.zero_add, Nat.zero_add]

theorem Filter.route_counts (f : Filter) (x1 x2 x3 xe : Int) :
    (f.route x1 x2 x3 xe).nsum ≤ 4 ∧ (f.route x1 x2 x3 xe).nmix ≤ 4 := by
  rw [routingSums f x1 x2 x3 xe]
  grind

/-- The three filter outputs add at most three inputs to the mixer. -/
theorem Filter.mix_nmix_le (f : Filter) (r : Routed) : (f.mix r).nmix ≤ r.nmix + 3 := by
  unfold Filter.mix Routed.toMixer
  split_ifs <;> simp

/-- Settles O48: the clamps of the filter's functions, and the counts of the routing. -/
theorem filterStaysInRange : Obligations.FilterStaysInRange := by
  intro p m f o1 o2 o3 xe
  obtain ⟨hsum, hmix⟩ := f.route_counts o1 o2 o3 xe
  obtain ⟨hlow, hhigh⟩ := mixer_range p m _ _
  exact ⟨f.clock_inv .., (volGain_range p m _ hlow hhigh).1, (volGain_range p m _ hlow hhigh).2, hsum,
    (Filter.mix_nmix_le _ _).trans (Nat.add_le_add_right hmix 3)⟩

/-! ### The SID cycle -/

theorem Chip.Inv.stepped {c : Chip} (h : c.Inv) (p : Params) (v : VoiceId) : (c.stepped p v).Inv :=
  (h.voice v).wave.clock.output p _ _

theorem Chip.Inv.cycle {c : Chip} (h : c.Inv) (p : Params) : (c.cycle p).1.Inv where
  voice v := by
    rw [Chip.cycle_voice]
    refine ⟨?_, (h.voice v).env.clock⟩
    dsimp only
    split_ifs
    · exact (h.stepped p v).zeroed
    · exact h.stepped p v
  filter := by rw [Chip.cycle_filter]; exact Filter.clock_inv ..
  bus_ttl := by
    have := h.bus_ttl
    rw [Chip.cycle_busTtl, Chip.cycle_model, Chip.ageBus_eq]
    dsimp only
    split_ifs <;> bv_omega
  bus_decayed := by
    rw [Chip.cycle_busTtl, Chip.cycle_busValue, Chip.ageBus_eq]
    dsimp only
    intro hover
    split_ifs with hlast
    · rfl
    · exact h.bus_decayed (by split_ifs at hover <;> bv_omega)

/-! ### Bus writes -/

/-- A register rule that changes voices and filter alone, and keeps their invariants. -/
structure RegisterSound (reg : RegisterRule) : Prop where
  only : RegisterOnly reg
  voice : ∀ p d c, (∀ v, (c.voice v).Inv) → ∀ v, ((reg p d c).voice v).Inv
  filter : ∀ p d c, c.filter.Inv → (reg p d c).filter.Inv

theorem voice_mapWave_inv {c : Chip} (h : ∀ v, (c.voice v).Inv) (i : VoiceId) {f : Wave → Wave}
    (hf : ∀ w : Wave, w.Inv → (f w).Inv) :
    ∀ v, ((c.mapWave i f).voice v).Inv := by
  intro v
  rcases eq_or_ne v i with rfl | hne
  · rw [Chip.voice_mapWave_self]; exact ⟨hf _ (h v).wave, (h v).env⟩
  · rw [Chip.voice_mapWave_of_ne _ _ hne]; exact h v

theorem voice_mapEnv_inv {c : Chip} (h : ∀ v, (c.voice v).Inv) (i : VoiceId) {f : Env → Env}
    (hf : ∀ e : Env, e.Inv → (f e).Inv) :
    ∀ v, ((c.mapEnv i f).voice v).Inv := by
  intro v
  rcases eq_or_ne v i with rfl | hne
  · rw [Chip.voice_mapEnv_self]; exact ⟨(h v).wave, hf _ (h v).env⟩
  · rw [Chip.voice_mapEnv_of_ne _ _ hne]; exact h v

theorem registerSound_mapWave (v : VoiceId) {f : Byte → Wave → Wave} (hf : ∀ d (w : Wave), w.Inv → (f d w).Inv) :
    RegisterSound fun _ d c => c.mapWave v (f d) where
  only := registerOnly_mapWave v fun _ d _ => f d
  voice _ d _ h := voice_mapWave_inv h v (hf d)
  filter _ _ _ h := by rwa [Chip.mapWave_filter]

theorem registerSound_mapEnv (v : VoiceId) {f : Byte → Env → Env} (hf : ∀ d (e : Env), e.Inv → (f d e).Inv) :
    RegisterSound fun _ d c => c.mapEnv v (f d) where
  only := registerOnly_mapEnv v fun _ d _ => f d
  voice _ d _ h := voice_mapEnv_inv h v (hf d)
  filter _ _ _ h := by rwa [Chip.mapEnv_filter]

theorem registerSound_control (v : VoiceId) : RegisterSound (regControl v) where
  only := registerOnly_control v
  voice _ _ _ h := voice_mapEnv_inv (voice_mapWave_inv h v fun _ hw => hw.writeControl _ _ _) v fun _ he => he.writeControl _
  filter _ _ _ h := by rwa [regControl, Chip.mapEnv_filter, Chip.mapWave_filter]

/-- A filter write leaves the node voltages. -/
theorem registerSound_filter {f : Byte → Filter → Filter} (hf : ∀ d (x : Filter), x.Inv → (f d x).Inv) :
    RegisterSound fun _ d c => { c with filter := f d c.filter } where
  only := registerOnly_filter f
  voice _ _ _ h v := by cases v; exacts [h .v1, h .v2, h .v3]
  filter _ d _ h := hf d _ h

theorem registerSound_none : RegisterSound regNone := ⟨registerOnly_none, fun _ _ _ h => h, fun _ _ _ h => h⟩

theorem registerSound_freqLo (v : VoiceId) : RegisterSound (regFreqLo v) := registerSound_mapWave v fun _ _ h => h.freq _
theorem registerSound_freqHi (v : VoiceId) : RegisterSound (regFreqHi v) := registerSound_mapWave v fun _ _ h => h.freq _
theorem registerSound_pwLo (v : VoiceId) : RegisterSound (regPwLo v) := registerSound_mapWave v fun _ _ h => h.pw _
theorem registerSound_pwHi (v : VoiceId) : RegisterSound (regPwHi v) := registerSound_mapWave v fun _ _ h => h.pw _
theorem registerSound_ad (v : VoiceId) : RegisterSound (regAd v) := registerSound_mapEnv v fun d _ h => h.writeAd d
theorem registerSound_sr (v : VoiceId) : RegisterSound (regSr v) := registerSound_mapEnv v fun d _ h => h.writeSr d

/-- Every register of the map of rule R320 keeps the invariants it reaches. -/
theorem registerSound_registerAt (off : Offset) : RegisterSound (registerAt off) := by
  unfold registerAt
  split
  exacts [registerSound_freqLo _, registerSound_freqHi _, registerSound_pwLo _, registerSound_pwHi _, registerSound_control _,
    registerSound_ad _, registerSound_sr _, registerSound_freqLo _, registerSound_freqHi _, registerSound_pwLo _,
    registerSound_pwHi _, registerSound_control _, registerSound_ad _, registerSound_sr _, registerSound_freqLo _,
    registerSound_freqHi _, registerSound_pwLo _, registerSound_pwHi _, registerSound_control _, registerSound_ad _,
    registerSound_sr _, registerSound_filter fun _ _ h => { h with }, registerSound_filter fun _ _ h => { h with },
    registerSound_filter fun _ _ h => { h with }, registerSound_filter fun _ _ h => { h with }, registerSound_none]

theorem busTtlOf_ne_zero (m : ChipModel) : busTtlOf m ≠ 0 := by
  cases m <;> decide

theorem Chip.Inv.busWrite {c : Chip} (h : c.Inv) {reg : RegisterRule} (hreg : RegisterSound reg) (p : Params) (off : Offset)
    (d : Byte) :
    (c.busWrite p off reg d).Inv := by
  have loaded := busLoaded_busWrite hreg.only p off d c
  have ttl : (c.busWrite p off reg d).busTtl = busTtlOf c.model := hreg.only.bus_ttl ..
  refine ⟨fun v => ?voice, ?filter, ?ttl, ?decayed⟩
  case voice =>
    rw [busWrite_voice]
    exact hreg.voice _ _ _ (fun u => by rw [voice_loaded]; exact h.voice u) v
  case filter => rw [busWrite_filter]; exact hreg.filter _ _ _ h.filter
  case ttl => rw [ttl, loaded.frame.model]; exact BitVec.le_refl _
  case decayed => exact fun hover => absurd (ttl.symm.trans hover) (busTtlOf_ne_zero _)

/-! ### Bus reads, the chip reset, and the host inputs -/

/-- A life of at most `BUS_TTL` is a non-negative number, which the halving does not raise. -/
theorem sshiftRight_le_busTtl {t : BitVec 32} {m : ChipModel} (h : t ≤ busTtlOf m) : t.sshiftRight 1 ≤ busTtlOf m := by
  have small : busTtlOf m ≤ 0xA2000#32 := by cases m <;> decide
  have non_negative : t.msb = false := BitVec.msb_eq_false_iff_two_mul_lt.2 (by bv_omega)
  rw [BitVec.sshiftRight_eq_of_msb_false non_negative, BitVec.le_def, BitVec.toNat_ushiftRight, Nat.shiftRight_eq_div_pow]
  bv_omega

theorem Chip.Inv.halveBus {c : Chip} (h : c.Inv) : c.halveBus.Inv where
  voice v := by rw [(sameButBus_halveBus c).voices]; exact h.voice v
  filter := h.filter
  bus_ttl := sshiftRight_le_busTtl h.bus_ttl
  bus_decayed hover := if_pos hover

/-- A read that keeps the invariant of its chip. -/
def ReadSound (read : ReadRule) : Prop := ∀ c : Chip, c.Inv → (read c).1.Inv

/-- Every read of rule R324 leaves its chip as it is, or halves the bus value's life. -/
theorem readSound_readAt (off : Offset) : ReadSound (readAt off) := by
  unfold readAt
  split
  exacts [fun _ h => h, fun _ h => h, fun _ h => h, fun _ h => h, fun _ h => h.halveBus]

theorem filter_reset_inv (init : Integ) : (resetFilter init).Inv :=
  have zero : Signed16 0 := by unfold Signed16; decide
  ⟨zero, zero, zero⟩

theorem Chip.Inv.chipReset {c : Chip} (h : c.Inv) (p : Params) : (c.chipReset p).Inv where
  voice v := by rw [Chip.chipReset_voice]; exact ⟨Wave.Inv.chipReset _, (h.voice v).env.chipReset⟩
  filter := filter_reset_inv _
  bus_ttl := (by rw [BitVec.le_def]; exact Nat.zero_le _)
  bus_decayed _ := rfl

/-- A chip right after power-on meets its invariant. -/
theorem Chip.powerOn_inv (m : ChipModel) (init : Integ) : (Chip.powerOn m init).Inv where
  voice v := by
    have voice_inv : Voice.powerOn.Inv := ⟨Wave.Inv.chipReset Wave.powerOn,
      ⟨by decide, by decide, by decide, by decide, by decide, by decide, by decide⟩⟩
    cases v <;> exact voice_inv
  filter := filter_reset_inv init
  bus_ttl := (by rw [BitVec.le_def]; exact Nat.zero_le _)
  bus_decayed _ := rfl

theorem Chip.Inv.driven {c : Chip} (h : c.Inv) (inp : HostInput) : (c.driven inp).Inv := by
  cases inp <;>
  exact ⟨fun v => by cases v; exacts [h.voice .v1, h.voice .v2, h.voice .v3], h.filter, h.bus_ttl, h.bus_decayed⟩

/-! ### The lock-up of the noise LFSR (rule R167) -/

theorem Wave.clock_sr_of_locked {v : Wave} (htest : v.test = false) (h : v.sr = 0) : v.clock.sr = 0 := by
  rw [Wave.clock_eq_clockNoise htest]
  cases bitRose 19 v.acc v.clock.acc with
  | true => exact h
  | false =>
    by_cases hdue : v.shiftPipeline = 1
    · rw [Wave.clockNoise_of_due (by exact hdue)]
      dsimp only
      rw [h]
      decide
    · exact (Wave.clockNoise_sr_of_not_due (by exact hdue)).1.trans h

theorem Wave.output_sr_of_locked {v : Wave} (h : v.sr = 0) (p : Params) (m : ChipModel) (a : BitVec 24) :
    (v.output p m a).sr = 0 := by
  by_cases hw : v.WritesBack
  · rw [(Wave.output_noise_of_writesBack hw p m a).1, h]
    exact BitVec.zero_and
  · rw [(Wave.output_noise_of_not hw p m a).1, h]

/-- A voice whose LFSR is locked: nothing shifts a 1 in while the test bit is clear. -/
structure Chip.Locked (v : VoiceId) (c : Chip) : Prop where
  inv : c.Inv
  running : (c.voice v).wave.test = false
  zero : (c.voice v).wave.sr = 0

theorem Chip.Locked.cycle {v : VoiceId} {c : Chip} (h : c.Locked v) (p : Params) : Chip.Locked v (c.cycle p).1 where
  inv := h.inv.cycle p
  running := (c.cycle_wave_registers p v).2.2.2.1.trans h.running
  zero := by
    rw [Chip.cycle_wave]
    exact Wave.output_sr_of_locked (Wave.clock_sr_of_locked h.running h.zero) ..

/-- Settles O38: a cycle keeps a voice locked, and the noise output is that of the LFSR. -/
theorem noiseLockUp : Obligations.NoiseLockUp := by
  intro p c v n hinv htest hsr
  have locked : ((fun x => (Chip.cycle p x).1)^[n] c).Locked v :=
    Function.Iterate.rec (Chip.Locked v) ⟨hinv, htest, hsr⟩ (fun _ h => h.cycle p) n
  refine ⟨locked.zero, ?_⟩
  rw [(locked.inv.voice v).wave.noise_of_sr, locked.zero]
  decide

end Sys2Proof.Machine
end

section
/-! PROOFS. The invariant of the block (spec/10_state.md, spec/40_scheduler.md): it holds at reset, every step keeps it, and a step on a
well-formed input answers a next state (rules R111, R112, R358). -/

namespace Sys2Proof.Machine

/-! ### The state's updates -/

theorem State.Inv.emit {s : State} (h : s.Inv) (o : Output) : (s.emit o).Inv := { h with }
theorem State.Inv.raise {s : State} (h : s.Inv) (f : BlockFault) : (s.raise f).Inv := { h with }
theorem State.Inv.select {s : State} (h : s.Inv) (c : ChipIndex) : (s.select c).Inv := { h with }
theorem State.Inv.withInput {s : State} (h : s.Inv) (rest : List Input) : State.Inv { s with input := rest } := { h with }

theorem State.Inv.setChip {s : State} (h : s.Inv) (i : ChipIndex) {c : Chip} (hc : c.Inv) : (s.setChip i c).Inv where
  some_chip := by rw [State.setChip_chips, List.length_set]; exact h.some_chip
  at_most_three := by rw [State.setChip_chips, List.length_set]; exact h.at_most_three
  chip x hx := by
    rcases List.mem_or_eq_of_mem_set hx with hx | rfl
    · exact h.chip x hx
    · exact hc
  queue := h.queue
  events := h.events
  callbacks cb hcb := by rw [State.setChip_chips, List.length_set]; exact h.callbacks cb hcb

theorem State.Inv.chip_of_present {s : State} (h : s.Inv) {i : ChipIndex} {c : Chip} (hc : s.chips[i]? = some c) : c.Inv :=
  h.chip c (List.mem_of_getElem? hc)

theorem State.Inv.clockChip {s : State} (h : s.Inv) (i : ChipIndex) : (s.clockChip i).Inv := by
  cases hc : s.chips[i]? with
  | some c => rw [clockChip_of_present hc]; exact (h.setChip i ((h.chip_of_present hc).cycle _)).emit _
  | none => simp only [State.clockChip, State.chip?, hc]; exact h

theorem State.Inv.clockChipTimes {s : State} (h : s.Inv) (i : ChipIndex) (n : Nat) : (s.clockChipTimes i n).Inv := by
  rw [State.clockChipTimes_eq_iterate]
  exact Function.Iterate.rec State.Inv h (fun _ hs => hs.clockChip i) n

theorem State.Inv.driveInput {s : State} (h : s.Inv) (inp : HostInput) : (s.driveInput inp).Inv := by
  rw [State.driveInput_eq]
  cases hc : s.chips[inp.chip]? with
  | some c => rw [State.drive_of_present hc]; exact h.setChip _ ((h.chip_of_present hc).driven inp)
  | none => rw [State.drive_of_absent (List.getElem?_eq_none_iff.1 hc)]; exact h

/-! ### Port words -/

/-- An operation on the selected chip keeps the invariant where its run on a chip of the block does. -/
theorem State.Inv.onSelected {run : State → Chip → State} (hrun : ∀ s c, State.Inv s → Chip.Inv c → (run s c).Inv)
    {s t : State} (h : s.Inv) (ht : operation s (fun s => onSelected s (run s)) = .next t) : t.Inv := by
  rcases operation_next_cases ht with ⟨_, _, rfl⟩ | ⟨_, ht⟩
  · exact h.emit _
  · obtain ⟨c, hc, rfl⟩ := onSelected_next_cases ht
    exact hrun s c h (h.chip_of_present hc)

theorem State.Inv.runPort {op : PortOp} {s t : State} (h : s.Inv) (ht : runPort op s = .next t) : t.Inv := by
  cases op with
  | busWrite off d =>
    exact h.onSelected (run := fun s c => s.setChip s.chipSel (c.busWrite s.params off (registerAt off) d))
      (fun s c hs hc => hs.setChip _ (hc.busWrite (registerSound_registerAt off) ..)) ht
  | busRead off =>
    exact h.onSelected (run := fun s c => (s.setChip s.chipSel (readAt off c).1).emit (.byte s.chipSel (readAt off c).2))
      (fun s c hs hc => (hs.setChip _ (readSound_readAt off c hc)).emit _) ht
  | clock => exact h.onSelected (run := fun s _ => s.clockChip s.chipSel) (fun s _ hs _ => hs.clockChip _) ht
  | reset =>
    exact h.onSelected (run := fun s c => s.setChip s.chipSel (c.chipReset s.params))
      (fun s c hs hc => hs.setChip _ (hc.chipReset _)) ht

theorem State.Inv.portWord {c : ChipIndex} {w : PortWord} {s t : State} (h : s.Inv) (ht : portWord c w s = .next t) : t.Inv := by
  rcases portWord_next_cases ht with ⟨op, hrun⟩ | ⟨f, rfl⟩ | rfl
  · exact (h.select c).runPort hrun
  · exact h.raise f
  · exact h.emit _

/-! ### The scheduler's calls -/

theorem State.Inv.schedule {s : State} (h : s.Inv) {e : EventId} (he : e ∈ s.params.events) (delay : Nat) (ph : Phase) :
    (s.schedule e delay ph).Inv := by
  have queue := h.queue.schedule e delay ph
  rcases s.schedule_cases e delay ph with ⟨f, heq⟩ | ⟨_, _, _, heq⟩ <;> rw [heq] at queue ⊢
  · exact h.raise f
  · refine { h with queue := queue, events := fun x hx => ?_ }
    rcases mem_queueInsert.1 hx with rfl | hx
    · exact he
    · exact h.events x hx

theorem State.Inv.cancel {s : State} (h : s.Inv) (e : EventId) : (s.cancel e).Inv :=
  { h with queue := h.queue.remove e, events := fun x hx => h.events x (mem_queueRemove.1 hx).1 }

theorem State.Inv.catchup {c : ChipIndex} {s t : State} (h : s.Inv) (ht : s.catchup c = .next t) : t.Inv := by
  obtain ⟨n, rfl⟩ := State.catchup_next ht
  exact h.clockChipTimes c n

theorem State.Inv.runCallOp {op : CallOp} {s t : State} (h : s.Inv) (ht : runCallOp op s = .next t) : t.Inv := by
  cases op with
  | port c w => exact h.portWord ht
  | schedule e delay ph => obtain ⟨he, rfl⟩ := onEvent_next_cases ht; exact h.schedule he delay ph
  | cancel e => obtain ⟨_, rfl⟩ := onEvent_next_cases ht; exact h.cancel e
  | getTime => injection ht with ht; exact ht ▸ h.emit _
  | catchup c => exact h.catchup ht
  | drive inp => injection ht with ht; exact ht ▸ h.driveInput inp

/-- The block with its head entry detached and the time at the entry's, before the callback runs (rule R117). -/
theorem State.Inv.detach {x : QueueEntry} {rest : List QueueEntry} {s : State} (h : s.Inv) (hq : s.queue = x :: rest) :
    State.Inv { s with queue := rest, time := x.time, callbacks := (takeCallback x.event s.callbacks).2 } := by
  have queue := h.queue
  rw [hq] at queue
  exact { h with
    queue := queue.detach
    events := fun y hy => h.events y (by rw [hq]; exact List.mem_cons_of_mem _ hy)
    callbacks := fun cb hcb => h.callbacks cb (takeCallback_mem.1 cb hcb) }

theorem State.Inv.dispatchEntry {x : QueueEntry} {rest : List QueueEntry} {s t : State} (h : s.Inv) (hq : s.queue = x :: rest)
    (ht : s.dispatchEntry x rest = .next t) : t.Inv :=
  runCallback_keeps (P := State.Inv) (fun _ _ _ => State.Inv.runCallOp) (h.detach hq) ht

theorem State.Inv.dispatch {s t : State} (h : s.Inv) (ht : s.dispatch = .next t) : t.Inv := by
  cases hq : s.queue with
  | nil =>
    rw [State.dispatch_of_empty hq] at ht
    injection ht with ht
    exact ht ▸ h.emit _
  | cons x rest =>
    obtain ⟨u, hu, rfl⟩ := State.dispatch_next_cases hq ht
    unfold State.dispatched
    split
    · exact (h.dispatchEntry hq hu).emit _
    · exact h.dispatchEntry hq hu

theorem State.Inv.runUntil {target : Nat} {s t : State} (h : s.Inv) (ht : s.runUntil target = .next t) : t.Inv := by
  by_cases hlt : target < 2 ^ 64
  · by_cases hle : s.time.toNat ≤ target
    · rw [State.runUntil_of_ahead hlt hle] at ht
      obtain ⟨u, hu, ⟨rfl, -⟩ | ⟨rfl, hidle⟩⟩ := runLoop_ends (P := State.Inv)
        (fun _ _ _ _ hs hq _ hd => hs.dispatchEntry hq hd) le_rfl h ht
      · exact hu
      · have later := hidle.all_later hu.queue.ordered
        have not_past : ∀ x ∈ u.queue, BitVec.ofNat 64 target ≤ x.time := fun x hx => by
          rw [BitVec.le_def, BitVec.toNat_ofNat, Nat.mod_eq_of_lt hlt]
          exact (later x hx).le
        exact { hu with queue := { hu.queue with not_past := not_past } }
    · rw [State.runUntil_of_past hlt (Nat.lt_of_not_le hle)] at ht
      injection ht with ht
      exact ht ▸ h.raise _
  · rw [State.runUntil_of_overflow (Nat.le_of_not_lt hlt)] at ht
    injection ht with ht
    exact ht ▸ h.raise _

theorem State.Inv.call {call : SchedCall} {s t : State} (h : s.Inv) (ht : exec call.instr s = .next t) : t.Inv := by
  cases hf : s.faulted with
  | some f => rw [exec_next_of_faulted hf ht]; exact h.emit _
  | none =>
    cases call with
    | schedule e delay ph =>
      obtain ⟨he, rfl⟩ := onEvent_next_cases ((operation_of_running hf _).symm.trans ht)
      exact h.schedule he delay ph
    | cancel e =>
      obtain ⟨_, rfl⟩ := onEvent_next_cases ((operation_of_running hf _).symm.trans ht)
      exact h.cancel e
    | dispatch => exact h.dispatch ((exec_dispatch_of_running hf).symm.trans ht)
    | runUntil target => exact h.runUntil ((exec_runUntil_of_running hf target).symm.trans ht)
    | getTime =>
      have hget : s.getTime = t := Host.Outcome.next.inj ((operation_of_running hf fun s => .next s.getTime).symm.trans ht)
      exact hget ▸ h.emit _
    | catchup c => exact h.catchup ((exec_catchup_of_running hf c).symm.trans ht)

/-! ### The host's events, and the whole step -/

theorem State.built_inv {a : PowerOnArgs} (ha : powerOnRefusal a = none) (s : State) : (s.built a).Inv := by
  have count : 1 ≤ a.models.length ∧ a.models.length ≤ 3 := (powerOnRefusal_eq_none a).1 ha .nChips
  have chips : (s.built a).chips.length = a.models.length := List.length_map ..
  exact
    { some_chip := chips ▸ count.1
      at_most_three := chips ▸ count.2
      chip := fun c hc => by
        obtain ⟨m, -, rfl⟩ := List.mem_map.1 hc
        exact Chip.powerOn_inv m _
      queue := QueueInv.nil 0
      events := fun x hx => nomatch hx
      callbacks := fun cb hcb => by rw [chips]; exact (List.mem_filter.1 hcb).2 }

theorem State.Inv.host {s : State} (h : s.Inv) (ev : HostEvent) : (s.host ev).Inv := by
  cases ev with
  | drive inp => exact h.driveInput inp
  | supplyCallback e ops =>
    have supplied := supply_wellFormed h.callbacks e ops
    rw [State.host]
    rw [State.supply_eq] at supplied ⊢
    exact { h with callbacks := supplied }
  | powerOn a =>
    rw [State.host]
    cases ha : powerOnRefusal a with
    | none => rw [State.powerOn_of_accepted ha]; exact State.built_inv ha s
    | some name => rw [State.powerOn_of_refused ha]; exact h.emit _

/-- A step on a port word is the port word's, legal or not (rule R300). -/
theorem step_of_port {s : State} {c : ChipIndex} {w : PortWord} {rest : List Input} (hin : s.input = .port c w :: rest) :
    step s = portWord c w { s with input := rest } := by
  cases hw : decode w with
  | some i => rw [step_of_word hin hw, exec_of_decode hw]
  | none => rw [step_of_illegal hin hw, portWord_of_illegal hw]

theorem State.Inv.step {s t : State} (h : s.Inv) (ht : step s = .next t) : t.Inv := by
  cases hin : s.input with
  | nil => rw [step_of_idle hin] at ht; injection ht with ht; exact ht ▸ h
  | cons i rest =>
    have consumed := h.withInput rest
    cases i with
    | port c w => exact consumed.portWord ((step_of_port hin).symm.trans ht)
    | call a => exact consumed.call ((step_of_call hin).symm.trans ht)
    | host ev => rw [step_of_host hin] at ht; injection ht with ht; exact ht ▸ consumed.host ev

/-! ### Progress (rule R358) -/

/-- A scheduler call whose operands are of the block's types answers a next state, and keeps the block's types. -/
theorem exec_call_total {a : SchedCall} {s : State} (hcb : callbacksWellFormed s)
    (h : a.instr.wellFormed s.chips.length s.params.events = true) : ∃ t, exec a.instr s = .next t ∧ SameTypes s t := by
  have reach := callbacksReach_of_wellFormed hcb
  cases hf : s.faulted with
  | some f => exact ⟨_, exec_of_faulted hf _, rfl, rfl, fun _ h => h⟩
  | none =>
    cases a with
    | schedule e delay ph =>
      exact ⟨_, exec_schedule_of_running hf (by simpa [SchedCall.instr, Instr.wellFormed] using h),
        schedule_sameTypes e delay ph s⟩
    | cancel e =>
      exact ⟨_, exec_cancel_of_running hf (by simpa [SchedCall.instr, Instr.wellFormed] using h), rfl, rfl, fun _ h => h⟩
    | dispatch => exact (exec_dispatch_of_running hf).symm ▸ dispatch_total reach
    | runUntil target => exact (exec_runUntil_of_running hf target).symm ▸ runUntil_total reach
    | getTime => exact ⟨_, operation_of_running hf fun s => .next s.getTime, rfl, rfl, fun _ h => h⟩
    | catchup c =>
      exact (exec_catchup_of_running hf c).symm ▸ catchup_total (by simpa [SchedCall.instr, Instr.wellFormed] using h)

theorem host_wellFormed {s : State} (h : callbacksWellFormed s) (ev : HostEvent) : callbacksWellFormed (s.host ev) := by
  cases ev with
  | drive inp =>
    obtain ⟨cs, heq, hlen⟩ := s.driveInput_changes inp
    have same : SameTypes s (s.driveInput inp) := ⟨by rw [heq], by rw [heq]; exact hlen, by rw [heq]; exact fun _ hcb => hcb⟩
    exact same.wellFormed h
  | supplyCallback e ops => exact supply_wellFormed h e ops
  | powerOn a => exact powerOn_wellFormed h a

/-- Settles O10: each kind of input keeps the invariant, and each well-formed one answers a next state. -/
theorem stepKeepsInvariant : Obligations.StepKeepsInvariant := by
  refine ⟨fun s t h ht => h.step ht, fun s i rest hin hcb hwf => ?_⟩
  have consumed : callbacksWellFormed { s with input := rest } := hcb
  cases i with
  | port c w =>
    have on_chip : c < s.chips.length := by simpa [Input.wellFormed] using hwf
    obtain ⟨t, ht, same⟩ := portWord_total (w := w) (s := { s with input := rest }) on_chip
    exact ⟨t, (step_of_port hin).trans ht, same.wellFormed consumed⟩
  | call a =>
    obtain ⟨t, ht, same⟩ := exec_call_total consumed hwf
    exact ⟨t, (step_of_call hin).trans ht, same.wellFormed consumed⟩
  | host ev => exact ⟨_, step_of_host hin, host_wellFormed consumed ev⟩

/-- Settles O11: one chip right after power-on, and nothing pending or supplied. -/
theorem resetMeetsInvariant : Obligations.ResetMeetsInvariant where
  some_chip := by decide
  at_most_three := by decide
  chip c hc := by rw [List.mem_singleton.1 hc]; exact Chip.powerOn_inv _ _
  queue := QueueInv.nil 0
  events _ hx := nomatch hx
  callbacks _ hcb := nomatch hcb

/-! ### Construction (rules R356, R380) -/

/-- A chip right after power-on is as a chip reset leaves it. -/
theorem Chip.powerOn_eq_chipReset (p : Params) (m : ChipModel) :
    Chip.powerOn m (integInit p m) = (Chip.powerOn m (integInit p m)).chipReset p := by
  have deadline : ((Chip.powerOn m (integInit p m)).chipReset p).nextVoiceSync = 0xFFFFFFFF#32 :=
    Chip.syncDeadline_of_no_sync fun v => by cases v <;> rfl
  have reset : (Chip.powerOn m (integInit p m)).chipReset p =
      { Chip.powerOn m (integInit p m) with nextVoiceSync := ((Chip.powerOn m (integInit p m)).chipReset p).nextVoiceSync } := rfl
  rw [reset, deadline]
  rfl

/-- Settles O12: the block that an accepted construction builds, field by field. -/
theorem powerOnBuildsBlock : Obligations.PowerOnBuildsBlock := by
  intro a s ha
  have in_domain := (powerOnRefusal_eq_none a).1 ha
  obtain ⟨some_chip, at_most_three⟩ : 1 ≤ a.models.length ∧ a.models.length ≤ 3 := in_domain .nChips
  rw [State.powerOn_of_accepted ha]
  refine ⟨rfl, rfl, rfl, rfl, rfl, ?models, some_chip, at_most_three, in_domain .digiBoost, rfl, rfl, rfl, rfl, fun c hc => ?chips⟩
  case models => exact (List.map_map ..).trans (List.map_id _)
  case chips =>
    obtain ⟨m, -, rfl⟩ := List.mem_map.1 hc
    exact ⟨rfl, Chip.powerOn_eq_chipReset a.params m, rfl, rfl, rfl, fun v => by cases v <;> exact ⟨rfl, rfl, rfl, rfl, rfl⟩⟩

/-- Settles O13: a construction is refused by the first check that fails, and the check of the digi boost is the second. -/
theorem badConstructionRefused : Obligations.BadConstructionRefused := by
  refine ⟨powerOnRefusal_eq_none, fun a ha => ?refused, fun a hsome hthree hboost => ?digiBoost⟩
  case refused =>
    obtain ⟨name, hname⟩ := Option.ne_none_iff_exists'.1 ha
    exact ⟨name, hname, powerOnRefusal_names hname, fun s => State.powerOn_of_refused hname s⟩
  case digiBoost =>
    have count : paramAccepted a .nChips = true := (paramAccepted_iff a .nChips).2 ⟨hsome, hthree⟩
    have boost : paramAccepted a .digiBoost = false := by rw [paramAccepted, hboost]; rfl
    simp [powerOnRefusal, paramOrder, count, boost]

end Sys2Proof.Machine
end

section
/-! PROOFS. The output path's numerics: the default filter step (spec/43_filter.md rules R247-R255), the external filter
(spec/44_output_stage.md rules R290, R291), and the default DACs as rounded ladders (rules R281, R282). -/

namespace Sys2Proof.Machine

/-! ### Clamps -/

theorem sat16_eq (x : Int) : sat16 x = if x < -32768 then -32768 else if 32767 < x then 32767 else x := by
  unfold sat16 clampInt
  split_ifs <;> omega

theorem clampMixer_eq (x : Int) :
    clampInt 0 65535 (x + 0x8000) = if x < -0x8000 then 0 else if 0x7FFF < x then 65535 else x + 0x8000 := by
  unfold clampInt
  split_ifs <;> omega

/-! ### The default filter step (rules R247-R255) -/

theorem Filter.mix_vo (f : Filter) (r : Routed) :
    (f.mix r).vo = r.vo + (if f.mode.getLsbD 0 = true then f.vlp else 0) + (if f.mode.getLsbD 1 = true then f.vbp else 0) +
      (if f.mode.getLsbD 2 = true then f.vhp else 0) := by
  unfold Filter.mix Routed.toMixer
  split_ifs <;> simp

/-- The step of the default integrator (rule R255). -/
theorem integ_default {p : Params} (h : p.integ = .default) (m : ChipModel) (fc : BitVec 11) (st : Integ) (vi : Int) :
    integ p m fc st vi =
      ({ st with vc := sat16 (st.vc - cutoffW0 p fc * vi / 2 ^ 20) }, sat16 (st.vc - cutoffW0 p fc * vi / 2 ^ 20)) := by
  rw [integ, h]
  rfl

theorem summer_resGain_default {p : Params} (hr : p.resGain = .default) (hs : p.summer = .default) (m : ChipModel) (n : Nat)
    (res : BitVec 4) (vbp vlp vi : Int) :
    summer p m n (resGain p m res vbp + vlp + vi) = sat16 (-(-(vbp * q1024 m res / 1024) + vlp + vi)) := by
  rw [summer, resGain, hr, hs]
  rfl

theorem voiceScale_default {p : Params} (h : p.voiceScale = .default) (m : ChipModel) (o : Int) : voiceScale p m o = o / 128 := by
  rw [voiceScale, h]
  rfl

theorem volGain_mixer_default {p : Params} (hm : p.mixer = .default) (hv : p.volGain = .default) (m : ChipModel) (vol : BitVec 4)
    (n : Nat) (vo : Int) :
    volGain p m vol (mixer p m n vo) =
      0x8000 + ((if vo < -0x8000 then 0 else if 0x7FFF < vo then 65535 else vo + 0x8000) - 0x8000) * vol.toNat / 16 := by
  rw [volGain, mixer, hm, hv]
  dsimp only
  rw [clampMixer_eq]
  rfl

theorem cutoffW0_examples {p : Params} (h : p.clockHz = 985248) :
    cutoffW0 p 0 = 201 ∧ cutoffW0 p 1024 = 40342 ∧ cutoffW0 p 2047 = 80445 := by
  simp only [cutoffW0, h]
  decide +kernel

/-- Settles O49: the default functions written out, and the tables read off. -/
theorem defaultFilterStep : Obligations.DefaultFilterStep := by
  refine ⟨fun p m f o1 o2 o3 xe hscale hres hsum hinteg => ?step, by decide, by decide, fun p h => cutoffW0_examples h⟩
  simp only [Filter.clock, Filter.integrate, voiceScale_default hscale, summer_resGain_default hres hsum,
    integ_default hinteg, sat16_eq]
  refine ⟨trivial, trivial, trivial, trivial, trivial, fun hmixer hvol => ?_⟩
  rw [volGain_mixer_default hmixer hvol, Filter.mix_vo]

/-! ### The external filter (rules R290, R291) -/

theorem toInt_ofInt_of_signed16 {x : Int} (h : Signed16 x) : (BitVec.ofInt 16 x).toInt = x :=
  BitVec.toInt_ofInt_eq_self (by decide) h.1 (Int.lt_add_one_of_le h.2)

/-- Settles O50: the step is the rule's, its shifts divisions; and the coefficients at the two rates. -/
theorem externalFilterStep : Obligations.ExternalFilterStep := by
  refine ⟨fun p x f => ⟨rfl, rfl, ?sample⟩, fun p h => ?coefficients⟩
  case sample =>
    dsimp only
    rw [← sat16_eq]
    exact toInt_ofInt_of_signed16 (signed16_sat16 _)
  case coefficients =>
    rcases h with h | h <;> simp only [extWLp, extWHp, h] <;> decide +kernel

/-! ### The default DACs (rules R281, R282) -/

/-- Scaling every weight scales the sum of the weights of the bits set. -/
theorem weightSum_scaled (k : Rat) (x : Nat) (ws : List Nat) :
    weightSum x (ws.map fun w : Nat => (w : Rat) * k) = weightSumNat x ws * k := by
  induction ws generalizing x with
  | nil => simp [weightSum, weightSumNat]
  | cons w ws ih =>
    rw [List.map_cons, weightSum, weightSumNat, ih]
    split_ifs <;> push_cast <;> ring

theorem sum_scaled (k : Rat) (ws : List Nat) : (ws.map fun w : Nat => (w : Rat) * k).sum = ws.sum * k := by
  induction ws with
  | nil => simp
  | cons w ws ih => rw [List.map_cons, List.sum_cons, List.sum_cons, ih]; push_cast; ring

/-- Whole numbers in the proportions of the bits of a ladder. -/
structure LadderWeights (m : ChipModel) (n : Nat) (ws : List Nat) : Prop where
  length : ws.length = n
  positive : 0 < ws.sum
  proportional : ∃ k : Rat, 0 < k ∧ (List.range n).map (ladderBit m n) = ws.map fun w : Nat => (w : Rat) * k

theorem ladderWeights8_ladder (m : ChipModel) : LadderWeights m 8 (ladderWeights8 m) where
  length := by cases m <;> rfl
  positive := by cases m <;> decide
  proportional := ⟨ladderBit m 8 0 / ((ladderWeights8 m).getD 0 0 : Nat), by cases m <;> decide +kernel,
    (ladderWeights8_proportional m).trans (by cases m <;> rfl)⟩

theorem ladderWeights12_ladder (m : ChipModel) : LadderWeights m 12 (ladderWeights12 m) where
  length := by cases m <;> rfl
  positive := by cases m <;> decide
  proportional := ⟨ladderBit m 12 0 / ((ladderWeights12 m).getD 0 0 : Nat), by cases m <;> decide +kernel,
    (ladderWeights12_proportional m).trans (by cases m <;> rfl)⟩

section
variable {m : ChipModel} {n : Nat} {ws : List Nat}

/-- The ladder from whole-number weights: their common factor cancels. -/
theorem LadderWeights.ladder_eq (h : LadderWeights m n ws) (x : Nat) :
    ladder m n x = ((2 ^ n * weightSumNat x ws : Nat) : Rat) / (ws.sum : Nat) := by
  obtain ⟨k, hk, hbits⟩ := h.proportional
  have hsum : ((ws.sum : Nat) : Rat) ≠ 0 := by exact_mod_cast h.positive.ne'
  rw [ladder, hbits, weightSum_scaled, sum_scaled]
  push_cast
  field_simp

theorem LadderWeights.ladder_lt_iff (h : LadderWeights m n ws) (x y : Nat) :
    ladder m n x < ladder m n y ↔ weightSumNat x ws < weightSumNat y ws := by
  have hsum : (0 : Rat) < (ws.sum : Nat) := by exact_mod_cast h.positive
  rw [h.ladder_eq, h.ladder_eq, div_lt_div_iff_of_pos_right hsum, Nat.cast_lt, Nat.mul_lt_mul_left (Nat.two_pow_pos n)]

/-- Rounding to the nearest whole number is the floor of one half more. -/
theorem roundDiv_eq_floor (a : Nat) {b : Nat} (hb : 0 < b) : (roundDiv a b : Int) = ((a : Rat) / b + 1 / 2).floor := by
  have hb' : (b : Rat) ≠ 0 := by exact_mod_cast hb.ne'
  have halves : (a : Rat) / b + 1 / 2 = ((2 * a + b : Nat) : Int) / ((2 * b : Nat) : Rat) := by
    push_cast
    field_simp
  rw [halves, roundDiv, Int.natCast_ediv]
  exact (Rat.floor_intCast_div_natCast _ _).symm

theorem LadderWeights.level_eq (h : LadderWeights m n ws) (x : Nat) : ladderLevel ws x = (ladder m n x + 1 / 2).floor := by
  rw [h.ladder_eq, ← roundDiv_eq_floor _ h.positive, ladderLevel, h.length]

end

theorem envDac_default {p : Params} (h : p.envDac = .default) (m : ChipModel) (e : BitVec 8) :
    envDac p m e = ladderLevel (ladderWeights8 m) e.toNat := by
  rw [envDac, h]

theorem waveDac_default {p : Params} (h : p.waveDac = .default) (m : ChipModel) (w : BitVec 12) :
    waveDac p m w = ladderLevel (ladderWeights12 m) w.toNat := by
  rw [waveDac, h]

/-- The default envelope DAC of a MOS8580 increases from each level to the next (rule R282). -/
theorem envDac_default_increasing {p : Params} (h : p.envDac = .default) {e : BitVec 8} (he : e ≠ 0xFF#8) :
    envDac p .mos8580 e < envDac p .mos8580 (e + 1) := by
  have below : e.toNat < 255 := by bv_omega
  have step := allBelow_iff.1 (envDacIncreasing_default h) e.toNat below
  rwa [decide_eq_true_eq, BitVec.ofNat_toNat, BitVec.setWidth_eq, BitVec.ofNat_add, BitVec.ofNat_toNat, BitVec.setWidth_eq] at step

/-- Settles O51: the levels are rounded from proportional whole-number weights, on which the falls of the 6581's ladder are counted. -/
theorem defaultDacsAreLadders : Obligations.DefaultDacsAreLadders := by
  refine ⟨fun p m e h => ?env, fun p m w h => ?wave, fun p e h he => envDac_default_increasing h he, ?falls, ?first⟩
  case env => rw [envDac_default h, (ladderWeights8_ladder m).level_eq]
  case wave => rw [waveDac_default h, (ladderWeights12_ladder m).level_eq]
  case falls =>
    simp only [(ladderWeights8_ladder .mos6581).ladder_lt_iff]
    decide +kernel
  case first =>
    rw [(ladderWeights8_ladder .mos6581).ladder_lt_iff]
    decide

end Sys2Proof.Machine
end

section
/-! PROOFS. The rate LFSR's periods (spec/42_envelope.md rule R201) and the latency of an attack
(spec/70_reset_and_hazards.md rule R395). -/

namespace Sys2Proof.Machine

/-! ### The rate LFSR on whole numbers -/

/-- `lfsrNext` on whole numbers, which the kernel computes with directly. -/
def lfsrNextNat (n : Nat) : Nat := Nat.lor (n.shiftRight 1) (((n.shiftLeft 14).xor (n.shiftLeft 13)).land 0x4000)

theorem lfsrNext_toNat (l : BitVec 15) : (lfsrNext l).toNat = lfsrNextNat l.toNat := by
  have entering (x : Nat) : x % 2 ^ 15 &&& 0x4000 = x &&& 0x4000 :=
    (Nat.and_mod_two_pow (n := 15) (b := 0x4000)).symm.trans (Nat.mod_eq_of_lt (Nat.and_le_right.trans_lt (by decide)))
  rw [lfsrNext, BitVec.toNat_or, BitVec.toNat_ushiftRight, BitVec.toNat_and, BitVec.toNat_xor, BitVec.toNat_shiftLeft,
    BitVec.toNat_shiftLeft, ← Nat.xor_mod_two_pow]
  exact congrArg _ (entering _)

theorem lfsrNext_iterate_toNat (n : Nat) (l : BitVec 15) : (lfsrNext^[n] l).toNat = lfsrNextNat^[n] l.toNat :=
  (show Function.Semiconj BitVec.toNat lfsrNext lfsrNextNat from lfsrNext_toNat).iterate_right n l

/-- From `at_` on, each entry `(n, y)` of the table is the state `y` after `n` steps, reached from the entry before it. -/
def followsOrbit (start : Nat × Nat) : List (Nat × Nat) → Bool
  | [] => true
  | (n, y) :: rest => decide (start.1 ≤ n) && lfsrNextNat^[n - start.1] start.2 == y && followsOrbit (n, y) rest

theorem mem_of_followsOrbit {x : Nat} {start : Nat × Nat} {table : List (Nat × Nat)} (h : followsOrbit start table = true)
    (hstart : lfsrNextNat^[start.1] x = start.2) : ∀ entry ∈ table, lfsrNextNat^[entry.1] x = entry.2 := by
  induction table generalizing start with
  | nil => exact fun _ hmem => nomatch hmem
  | cons entry rest ih =>
    obtain ⟨n, y⟩ := entry
    rw [followsOrbit, Bool.and_eq_true, Bool.and_eq_true, decide_eq_true_eq, beq_iff_eq] at h
    obtain ⟨⟨hle, hreach⟩, hrest⟩ := h
    have reached : lfsrNextNat^[n] x = y := by
      rw [← hreach, ← hstart, ← Function.iterate_add_apply, Nat.sub_add_cancel hle]
    intro entry hmem
    rcases List.mem_cons.1 hmem with rfl | hmem
    · exact reached
    · exact ih hrest reached entry hmem

/-- States on the orbit of 0x7FFF by the number of steps to them: the sixteen rates, the states after the three largest proper divisors
of 32767, the start again after 32767, and some in between that keep each stretch short. -/
def orbitTable : List (Nat × Nat) :=
  [(8, 0x007F), (31, 0x3000), (62, 0x1E00), (94, 0x0660), (148, 0x0182), (217, 0x55CC), (219, 0x5573), (266, 0x000E)] ++
  [(312, 0x3805), (391, 0x2424), (976, 0x2220), (1057, 0x05C0), (1953, 0x090C), (3125, 0x0ECD), (3906, 0x010E), (4681, 0x3BD8)] ++
  [(7027, 0x4C14), (9373, 0x7602), (11719, 0x23F7), (13672, 0x5A7C), (15625, 0x5014), (17578, 0x5D73), (19531, 0x5237)] ++
  [(21874, 0x2446), (24218, 0x1225), (26562, 0x5E17), (28906, 0x2FBC), (31250, 0x64A8), (32767, 0x7FFF)]

theorem orbitTable_follows : followsOrbit (0, 0x7FFF) orbitTable = true := by
  decide +kernel

theorem lfsrNext_iterate_of_mem {n y : Nat} (h : (n, y) ∈ orbitTable) : (lfsrNext^[n] 0x7FFF#15).toNat = y :=
  (lfsrNext_iterate_toNat ..).trans (mem_of_followsOrbit orbitTable_follows rfl _ h)

theorem dvd_of_dvd_mul_prime {p m n d : Nat} (hp : p.Prime) (hn : m * p = n) (h : d ∣ n) (hd : ¬p ∣ d) : d ∣ m :=
  (hp.coprime_iff_not_dvd.2 hd).symm.dvd_of_dvd_mul_right (hn ▸ h)

/-- A divisor of 32767 = 7 * 31 * 151 is the number itself, or divides one of its three largest proper divisors. -/
theorem dvd_32767_cases {d : Nat} (h : d ∣ 32767) : d = 32767 ∨ d ∣ 217 ∨ d ∣ 1057 ∨ d ∣ 4681 := by
  by_cases h151 : 151 ∣ d
  · by_cases h31 : 31 ∣ d
    · by_cases h7 : 7 ∣ d
      · have two : 7 * 31 ∣ d := Nat.Coprime.mul_dvd_of_dvd_of_dvd (by norm_num) h7 h31
        have three : 7 * 31 * 151 ∣ d := Nat.Coprime.mul_dvd_of_dvd_of_dvd (by norm_num) two h151
        exact .inl (Nat.dvd_antisymm h three)
      · exact .inr (.inr (.inr (dvd_of_dvd_mul_prime (p := 7) (by norm_num) (by norm_num) h h7)))
    · exact .inr (.inr (.inl (dvd_of_dvd_mul_prime (p := 31) (by norm_num) (by norm_num) h h31)))
  · exact .inr (.inl (dvd_of_dvd_mul_prime (p := 151) (by norm_num) (by norm_num) h h151))

/-- The LFSR runs through all 32767 states before it comes back. -/
theorem lfsrNext_minimalPeriod : Function.minimalPeriod lfsrNext 0x7FFF#15 = 32767 := by
  have returns : Function.IsPeriodicPt lfsrNext 32767 0x7FFF#15 := BitVec.eq_of_toNat_eq (lfsrNext_iterate_of_mem (by decide))
  have not_before : ∀ n y, (n, y) ∈ orbitTable → y ≠ 0x7FFF → ¬Function.minimalPeriod lfsrNext 0x7FFF#15 ∣ n := by
    intro n y hmem hy hdvd
    have back : lfsrNext^[n] 0x7FFF#15 = 0x7FFF#15 := Function.isPeriodicPt_iff_minimalPeriod_dvd.2 hdvd
    exact hy ((lfsrNext_iterate_of_mem hmem).symm.trans (congrArg BitVec.toNat back))
  rcases dvd_32767_cases returns.minimalPeriod_dvd with h | h | h | h
  · exact h
  · exact absurd h (not_before 217 0x55CC (by decide) (by decide))
  · exact absurd h (not_before 1057 0x05C0 (by decide) (by decide))
  · exact absurd h (not_before 4681 0x3BD8 (by decide) (by decide))

/-- The steps from 0x7FFF to a rate, one less than its period (rule R201). -/
theorem ratePeriod_mem_orbitTable (r : Fin 16) :
    ([9, 32, 63, 95, 149, 220, 267, 313, 392, 977, 1954, 3126, 3907, 11720, 19532, 31251].getD r.val 0 - 1,
      (adsrRate (BitVec.ofNat 4 r.val)).toNat) ∈ orbitTable ∧
    [9, 32, 63, 95, 149, 220, 267, 313, 392, 977, 1954, 3126, 3907, 11720, 19532, 31251].getD r.val 0 - 1 < 32767 := by
  revert r; decide

/-- Settles O44: the rates stand on the orbit at their periods, and no state of the orbit comes twice before it closes. -/
theorem ratePeriods : Obligations.RatePeriods := by
  intro r
  obtain ⟨hmem, hlt⟩ := ratePeriod_mem_orbitTable r
  dsimp only
  generalize [9, 32, 63, 95, 149, 220, 267, 313, 392, 977, 1954, 3126, 3907, 11720, 19532, 31251].getD r.val 0 - 1 = n at *
  have reached : lfsrNext^[n] 0x7FFF#15 = adsrRate (BitVec.ofNat 4 r.val) := BitVec.eq_of_toNat_eq (lfsrNext_iterate_of_mem hmem)
  refine ⟨reached, fun k hk heq => ?_⟩
  have in_period : ∀ j ≤ n, j ∈ Set.Iio (Function.minimalPeriod lfsrNext 0x7FFF#15) := fun j hj => by
    rw [lfsrNext_minimalPeriod]
    exact hj.trans_lt hlt
  exact hk.ne (Function.iterate_injOn_Iio_minimalPeriod (in_period k hk.le) (in_period n le_rfl) (heq.trans reached.symm))

/-! ### The latency of an attack (rule R395) -/

/-- After a chip reset with the counter at 0 and a gate-on write: an attack is pending, whatever the rate LFSR holds. -/
def attackPending (l : BitVec 15) : Env :=
  { Env.powerOn with
    lfsr := l, envelopeCounter := 0, nextState := .attack, gate := true, statePipeline := 2, envelopePipeline := 2 }

theorem gateOn_after_chipReset {e : Env} (h : e.envelopeCounter = 0) : e.chipReset.writeControl 0x01#8 = attackPending e.lfsr := by
  have zeroed : e.chipReset = { Env.powerOn with lfsr := e.lfsr, envelopeCounter := 0 } := by rw [Env.chipReset, h]; rfl
  rw [zeroed]
  rfl

/-- One clock step later the rate is the decay rate. -/
def attackNext (l : BitVec 15) : Env := { attackPending l with statePipeline := 1, envelopePipeline := 1 }

/-- Two clock steps later the attack has begun, and the counter has made its first step. -/
def attackBegun (l : BitVec 15) : Env :=
  { attackPending l with state := .attack, statePipeline := 0, envelopePipeline := 0, envelopeCounter := 1 }

/-- While a reset of the rate LFSR is pending, its step changes the LFSR alone. -/
theorem Env.lfsrStep_of_pending {e : Env} (h : e.resetLfsr = true) : ∃ l, e.lfsrStep = { e with lfsr := l } := by
  by_cases hm : e.lfsr = e.rate
  · exact ⟨e.lfsr, by rw [Env.lfsrStep_of_match hm, ← h]⟩
  · exact ⟨_, Env.lfsrStep_of_no_match hm⟩

theorem attackPending_beforeLfsr (l : BitVec 15) : (attackPending l).clockLatch.clockCounter = attackNext l := by
  simp [Env.clockLatch, Env.stateChange, Env.clockCounter, Env.clockEnvelope, attackNext, attackPending, Env.powerOn,
    adsrRate, adsrTable]

theorem attackNext_beforeLfsr (l : BitVec 15) : (attackNext l).clockLatch.clockCounter = attackBegun l := by
  simp [Env.clockLatch, Env.stateChange, Env.clockCounter, Env.clockEnvelope, Env.step, Env.lookup, expLookup, attackNext,
    attackBegun, attackPending, Env.powerOn, adsrRate, adsrTable]

theorem clock_attackPending (l : BitVec 15) : ∃ l', (attackPending l).clock = attackNext l' := by
  rw [Env.clock, attackPending_beforeLfsr]
  exact Env.lfsrStep_of_pending rfl

theorem clock_attackNext (l : BitVec 15) : ∃ l', (attackNext l).clock = attackBegun l' := by
  rw [Env.clock, attackNext_beforeLfsr]
  exact Env.lfsrStep_of_pending rfl

/-- The third clock step restarts the rate LFSR, so from then on nothing depends on what it held. -/
theorem clock_attackBegun (l : BitVec 15) : (attackBegun l).clock = (attackBegun 0).clock := rfl

/-- Settles O45: two steps with any LFSR, the restart, and the rest by evaluation. -/
theorem attackLatency : Obligations.AttackLatency := by
  intro e h
  dsimp only
  rw [gateOn_after_chipReset h]
  obtain ⟨l1, h1⟩ := clock_attackPending e.lfsr
  obtain ⟨l2, h2⟩ := clock_attackNext l1
  have step2 : Env.clock^[2] (attackPending e.lfsr) = attackBegun l2 := by
    rw [Function.iterate_succ_apply, Function.iterate_one, h1, h2]
  have later : ∀ n, Env.clock^[n + 3] (attackPending e.lfsr) = Env.clock^[n + 1] (attackBegun 0) := fun n => by
    rw [show n + 3 = n + 1 + 2 from rfl, Function.iterate_add_apply, step2, Function.iterate_succ_apply, clock_attackBegun,
      ← Function.iterate_succ_apply]
  have restarted : (Env.clock^[2] (attackBegun 0)).envelopeCounter = 1 ∧ (Env.clock^[3] (attackBegun 0)).envelopeCounter = 2 ∧
      (Env.clock^[11] (attackBegun 0)).envelopeCounter = 2 ∧ (Env.clock^[12] (attackBegun 0)).envelopeCounter = 3 ∧
      (Env.clock^[20] (attackBegun 0)).envelopeCounter = 3 ∧ (Env.clock^[21] (attackBegun 0)).envelopeCounter = 4 := by
    decide +kernel
  rw [Function.iterate_one, h1, step2, later 1, later 2, later 10, later 11, later 19, later 20]
  exact ⟨rfl, rfl, rfl, rfl, rfl, restarted⟩

end Sys2Proof.Machine
end
